-- ==== Sys2Proof/Word.lean ====
section
/-! DEFINITION. The words of the block: 32-bit bus words, bytes, and bit sequences (spec/00_scope.md R12, R13). -/

namespace Sys2Proof

/-- A 32-bit host bus word (R10 DATA_W). -/
abbrev Word := BitVec 32

/-- A symbol, and a byte of IN or OUT (R9 SYM_BITS). -/
abbrev Byte := BitVec 8

/-- A finite sequence of binary digits, first digit first in stream order (R13 `Bits`). -/
abbrev Bits := List Bool

/-- A byte offset from BASE: 0 ≤ offset < 2^30 (R80). -/
abbrev Offset := BitVec 30

end Sys2Proof
end

