-- ==== Sys2Proof/Config.lean ====
section
/-! DEFINITION. What an instance of the block fixes (R11) and the values the spec leaves open
(spec/93_implementation_defined.md U1, U3). A free value has no body: no proof can see it. -/

namespace Sys2Proof

/-- The capacities of one instance (R11): each is one more than a number below 2^28, so that
1 ≤ capacity ≤ 2^28 holds by construction. -/
structure Params where
  inCapPred  : Fin (2 ^ 28)
  outCapPred : Fin (2 ^ 28)
  deriving DecidableEq, Repr, Inhabited

/-- IN_CAP, the bytes of IN (R11, R34). -/
def Params.inCap (p : Params) : Nat := p.inCapPred.val + 1

/-- OUT_CAP, the bytes of OUT (R11, R34). -/
def Params.outCap (p : Params) : Nat := p.outCapPred.val + 1

/-- The two byte buffers (R52, R53). -/
inductive Buffer
  | input
  | output
  deriving DecidableEq, Repr

/-- The instance's capacities, left open by R11 (assumption 1). -/
opaque Config.params : Params

/-- What byte `k` of a buffer holds after the `epoch`-th reset and before anything writes it:
unspecified (R56, U1; assumption 3). -/
opaque Config.resetByte (b : Buffer) (epoch k : Nat) : Byte

/-- TREE_VALID (bit 0) and CODES_VALID (bit 1) as the `n`-th STATUS read during BUSY returns them:
unspecified (R36, U3; assumption 5). -/
opaque Config.busyFlags (n : Nat) : BitVec 2

/-- Whether a read of CMD shows bits [31:8] of the last accepted word (R35, R384) or 0 there
(R58 and 93 section 3): the spec says both (assumption 8). -/
opaque Config.cmdReadsReserved : Bool

end Sys2Proof
end

