-- ==== Sys2Proof/Syntax.lean ====
section
/-! DEFINITION. The ten commands (spec/30_encoding.md R122) and the raw command word (R120). -/

namespace Sys2Proof

/-- The commands of the opcode map (R122), one constructor per row of spec/opcode_table.json. No
command carries an operand in its word (R123). -/
inductive Instr
  | nop            -- NOP, R310
  | clear          -- CLEAR, R311
  | freqCount      -- FREQ_COUNT, R160
  | treeBuild      -- TREE_BUILD, R180
  | codeGen        -- CODE_GEN, R200
  | emit           -- EMIT, R253
  | treeLoad       -- TREE_LOAD, R222
  | decodePayload  -- DECODE_PAYLOAD, R280
  | compress       -- COMPRESS, R312
  | decompress     -- DECOMPRESS, R313
  deriving DecidableEq, Repr

/-- The two fields of a command word (R120): OPCODE in [7:0], RSVD in [31:8]. -/
structure CommandWord where
  rsvd   : BitVec 24
  opcode : BitVec 8
  deriving DecidableEq, Repr

/-- The opcode of a command (R122). -/
def Instr.opcode : Instr → BitVec 8
  | .nop           => 0x00#8
  | .clear         => 0x01#8
  | .freqCount     => 0x10#8
  | .treeBuild     => 0x20#8
  | .codeGen       => 0x30#8
  | .emit          => 0x40#8
  | .treeLoad      => 0x50#8
  | .decodePayload => 0x60#8
  | .compress      => 0x80#8
  | .decompress    => 0x81#8

end Sys2Proof
end

