-- ==== Sys2Proof/WellFormed.lean ====
section
/-! DEFINITION. Which command words are legal (spec/30_encoding.md R120, R124). A command of the
opcode map has no operand, so every `Instr` is well formed; what can be ill formed is a raw word. -/

namespace Sys2Proof

/-- RSVD must be 0 (R120). -/
def CommandWord.rsvdOk (c : CommandWord) : Bool := c.rsvd == 0#24

/-- The opcodes of the table of R122; every other one is reserved (R124). -/
def definedOpcodes : List (BitVec 8) :=
  [0x00#8, 0x01#8, 0x10#8, 0x20#8, 0x30#8, 0x40#8, 0x50#8, 0x60#8, 0x80#8, 0x81#8]

/-- OPCODE must be one of the table's (R122, R124). -/
def CommandWord.opcodeOk (c : CommandWord) : Bool := definedOpcodes.contains c.opcode

/-- A legal command word (R124). -/
def CommandWord.wf (c : CommandWord) : Bool := c.rsvdOk && c.opcodeOk

/-- The command word of a command: its opcode, RSVD 0 (R120). -/
def Instr.commandWord (i : Instr) : CommandWord := { rsvd := 0#24, opcode := i.opcode }

/-- Well-formedness of a command: that of its word. -/
def Instr.wf (i : Instr) : Bool := i.commandWord.wf

end Sys2Proof
end

