-- ==== Sys2Proof/Decode.lean ====
section
/-! DEFINITION. Decoding a command word (spec/30_encoding.md R120 to R124) and encoding a command. -/

namespace Sys2Proof

/-- Why a word is illegal (R121, R124). -/
inductive DecodeError
  | reservedBits    -- a bit of [31:8] is set
  | reservedOpcode  -- [31:8] is 0 and [7:0] is no opcode of R122
  deriving DecidableEq, Repr

/-- The two fields of a word (R120). -/
def splitWord (w : Word) : CommandWord :=
  { rsvd := w.extractLsb' 8 24, opcode := w.extractLsb' 0 8 }

/-- The word with the two given fields (R120). -/
def joinWord (c : CommandWord) : Word := c.rsvd ++ c.opcode

/-- The command an opcode selects (R122), or none where it is reserved (R124). -/
def opcodeInstr (op : BitVec 8) : Option Instr :=
  if op = 0x00#8 then some .nop
  else if op = 0x01#8 then some .clear
  else if op = 0x10#8 then some .freqCount
  else if op = 0x20#8 then some .treeBuild
  else if op = 0x30#8 then some .codeGen
  else if op = 0x40#8 then some .emit
  else if op = 0x50#8 then some .treeLoad
  else if op = 0x60#8 then some .decodePayload
  else if op = 0x80#8 then some .compress
  else if op = 0x81#8 then some .decompress
  else none

/-- Decode the pending word (R121): RSVD is checked, then OPCODE selects. -/
def decode (w : Word) : Except DecodeError Instr :=
  if (splitWord w).rsvd ≠ 0#24 then .error .reservedBits
  else
    match opcodeInstr (splitWord w).opcode with
    | some i => .ok i
    | none   => .error .reservedOpcode

/-- The command word of a command (R122 column "word"). -/
def encode (i : Instr) : Word := joinWord i.commandWord

/-- The word that bits numbered as spec/opcode_table.json numbers them stand for: bit 0 is the least
significant bit of the one 32-bit word, and every bit at or above `nbits` is 0. -/
def tableWord (nbits w : Nat) : Word := BitVec.ofNat 32 (w % 2 ^ nbits)

/-- What the decoder reads from a row's word. -/
def decodeTableWord (nbits w : Nat) : Option Instr :=
  match decode (tableWord nbits w) with
  | .ok i    => some i
  | .error _ => none

end Sys2Proof
end

