-- ==== Sys2Proof/Machine/Bits.lean ====
section
/-! DEFINITION. Bit sequences, their numbers and their bytes (spec/00_scope.md R13, R15;
spec/20_memory.md R83, R85; spec/44_bitpacker.md R251, R252). -/

namespace Sys2Proof.Machine

/-- `bin8(v)`: the 8 digits of a byte, most significant first (R13). -/
def bin8 (v : Byte) : Bits :=
  [v.getLsbD 7, v.getLsbD 6, v.getLsbD 5, v.getLsbD 4, v.getLsbD 3, v.getLsbD 2, v.getLsbD 1, v.getLsbD 0]

/-- `val(a)`: the unsigned number a sequence spells, first digit most significant (R13). -/
def val (a : Bits) : Nat := a.foldl (fun n b => 2 * n + b.toNat) 0

/-- `zeros(k)`: k digits 0 (R13). -/
def zeros (k : Nat) : Bits := List.replicate k false

/-- The byte that 8 digits spell. -/
def byteOf (a : Bits) : Byte := BitVec.ofNat 8 (val a)

/-- `pack(S)`: byte j is `val(S[8j..8j+8))` (R252, R134). -/
def pack : Bits → List Byte
  | b7 :: b6 :: b5 :: b4 :: b3 :: b2 :: b1 :: b0 :: rest => byteOf [b7, b6, b5, b4, b3, b2, b1, b0] :: pack rest
  | _ => []

/-- The unpacked stream of a byte sequence: each byte's 8 digits, in byte order (R260). -/
def unpack (bytes : List Byte) : Bits := bytes.flatMap bin8

/-- `pad(T, P)`, the pad count for a tree of T bits and a payload of P bits (R132, R251). -/
def pad (t p : Nat) : Nat := (8 - (t + p) % 8) % 8

/-- The first `k` digits of a sequence and the rest, or none where fewer remain. -/
def splitBits : Nat → Bits → Option (Bits × Bits)
  | 0, bs => some ([], bs)
  | _ + 1, [] => none
  | k + 1, b :: bs =>
    match splitBits k bs with
    | some (front, rest) => some (b :: front, rest)
    | none => none

/-- Lane j of a bus word, bits [8j+7:8j] (R83). -/
def lane (w : Word) (j : Nat) : Byte := (w >>> (8 * j)).setWidth 8

/-- The bus word with the given lanes, lane 0 in bits [7:0] (R83). -/
def ofLanes (b0 b1 b2 b3 : Byte) : Word := b3 ++ b2 ++ b1 ++ b0

end Sys2Proof.Machine
end

