-- ==== Sys2Proof/Machine/Bus.lean ====
section
/-! DEFINITION. What reaches the block from outside: host accesses (spec/20_memory.md R82), the
registers by name (spec/10_state.md R32), and the events of the world the machine runs in. -/

namespace Sys2Proof.Machine

/-- A read, or a write of a value. -/
inductive BusOp
  | read
  | write (v : Word)
  deriving DecidableEq, Repr

/-- One host access: its width in bytes, its offset from BASE, and what it does (R80, R82). The
interface defines width 4 at a multiple of 4 only. -/
structure BusAccess where
  bytes  : Nat
  offset : Offset
  op     : BusOp
  deriving DecidableEq, Repr

/-- What happens next around the engine (assumption 2). -/
inductive Event
  | host (a : BusAccess)  -- one host access
  | wait                  -- the host reads STATUS until one read returns BUSY = 0 (R125)
  | waitIrq               -- the host waits for the IRQ line (R386)
  | engine                -- the engine's turn: it completes the pending command, if there is one (R342)
  | reset                 -- the reset input is asserted and released (R380)
  deriving DecidableEq, Repr

/-- The registers of R32, by name. -/
inductive Reg
  | id | inCapR | outCapR | cmd | status | ctrl | errCode | errPos | inLen | outLen | bitpos
  | root | nodeCount | leafCount | treeBits | padCount | payloadBits
  deriving DecidableEq, Repr

/-- Where an offset lies in the map of R81. -/
inductive Region
  | reg (r : Reg)
  | freq (s : Byte)                 -- FREQ[s]
  | node (slot word : Nat)          -- word 0..3 of NODE slot 0..511
  | code (s : Byte) (word : Nat)    -- word 0..15 of CODE slot s
  | input (k : Nat)                 -- IN[k..k+3]
  | output (k : Nat)                -- OUT[k..k+3]
  | reserved
  deriving DecidableEq, Repr

end Sys2Proof.Machine
end

