-- ==== Sys2Proof/Machine/State.lean ====
section
/-! DEFINITION. The state of the block as plain data (spec/10_state.md R59), why a run can stop, and
the state after reset (R56). -/

namespace Sys2Proof.Machine

/-- A NODE entry (R48). -/
structure Node where
  kind  : Bool       -- KIND: true is 1, a leaf; false is 0, an internal node
  sym   : Byte
  nfreq : BitVec 40
  left  : BitVec 9
  right : BitVec 9
  deriving DecidableEq, Repr

/-- The all-zero NODE entry (R48, R56). -/
def Node.zero : Node := { kind := false, sym := 0, nfreq := 0, left := 0, right := 0 }

/-- A CODE entry (R50): LEN, and the LEN digits, first emitted first. -/
structure Code where
  len  : BitVec 8
  bits : Bits
  deriving DecidableEq, Repr

/-- The cleared CODE entry (R50, R61). -/
def Code.zero : Code := { len := 0, bits := [] }

/-- The NODE table, NODE_CAP = 511 entries (R10, R48). -/
abbrev Arena := Vector Node 511

/-- The FREQ table (R47). -/
abbrev FreqTable := Vector Word 256

/-- The CODE table (R50). -/
abbrev CodeTable := Vector Code 256

/-- A byte buffer: the bytes written since reset, as (index, byte) pairs with strictly rising
indices. An unlisted index holds its unspecified reset byte (assumption 3). -/
abbrev Memory := List Host.Cell

/-- The whole state: the record of R59, and the model's own fields that carry the parameters and the
world around the block. -/
structure State where
  -- parameters of the instance (R11); no step changes them
  cfg         : Params
  -- control and status registers (R32 to R45)
  cmdw        : Word
  busy        : Bool
  done        : Bool
  error       : Bool
  treeValid   : Bool
  codesValid  : Bool
  irqEn       : Bool
  errCode     : BitVec 8
  errPos      : Word
  inLen       : Word
  outLen      : Word
  bitpos      : Word
  root        : BitVec 9
  nodeCount   : BitVec 10
  leafCount   : BitVec 9
  treeBits    : Word
  padCount    : BitVec 3
  payloadBits : Word
  -- tables (R47, R48, R50)
  freq        : FreqTable
  node        : Arena
  code        : CodeTable
  -- buffers (R52, R53)
  inBuf       : Memory
  outBuf      : Memory
  -- the engine's sequencing state (R46)
  pending     : Option Word
  -- the model's own: the world around the block (assumptions 2 to 5)
  agenda      : List Event
  readLog     : List (Offset × Word)
  draws       : Nat
  epoch       : Nat
  deriving DecidableEq, Repr

/-- The machine stops with a fault in one case only. -/
inductive Fault
  /-- Raised by CODE_GEN, EMIT and COMPRESS where TREE_VALID = 1 and yet the nodes reached from ROOT
  are no tree of depth at most 255, so that the walks of R200 and R220 have no end. R49 rules it out
  in every state a run reaches. Safe: the model stops. -/
  | arenaNotATree
  deriving DecidableEq, Repr

/-- The model gives a host program no such move. -/
inductive Refusal
  /-- Answered by an arm of `exec` whose command has no meaning yet. Safe: the model stops. -/
  | notModelled (mnemonic : String)
  /-- Raised by a host access that is not one word at a multiple of 4 (R82, U4 "refuse"). Safe. -/
  | notAWordAccess
  /-- Raised by a host access while BUSY = 1 that is not a read of STATUS (R390, U5 "refuse"). Safe. -/
  | accessWhileBusy
  deriving DecidableEq, Repr

/-- The state right after reset of an instance with given capacities (R56). -/
def State.resetWith (p : Params) : State where
  cfg := p
  cmdw := 0
  busy := false
  done := false
  error := false
  treeValid := false
  codesValid := false
  irqEn := false
  errCode := 0
  errPos := 0
  inLen := 0
  outLen := 0
  bitpos := 0
  root := 0
  nodeCount := 0
  leafCount := 0
  treeBits := 0
  padCount := 0
  payloadBits := 0
  freq := Vector.replicate 256 0
  node := Vector.replicate 511 Node.zero
  code := Vector.replicate 256 Code.zero
  inBuf := []
  outBuf := []
  pending := none
  agenda := []
  readLog := []
  draws := 0
  epoch := 0

/-- The state right after reset (R56, R380). -/
def State.reset : State := State.resetWith Config.params

end Sys2Proof.Machine
end

