-- ==== Sys2Proof/Machine/Ops.lean ====
section
/-! DEFINITION. The named operations over tables and buffers, clearing (spec/10_state.md R60, R61),
the command issue (spec/70_reset_and_hazards.md R384), raising an error, completing a command
(spec/60_exceptions.md R341 to R351), and reset (R380). -/

namespace Sys2Proof.Machine

/-! ## Byte buffers -/

/-- The byte listed at an index, or none where nothing has been written since reset. -/
def Memory.get : Memory → Nat → Option Byte
  | [], _ => none
  | (a, b) :: m, k => if a = k then some b else Memory.get m k

/-- Write one byte, keeping the indices strictly rising. -/
def Memory.put : Memory → Nat → Byte → Memory
  | [], k, v => [(k, v)]
  | (a, b) :: m, k, v =>
    if k < a then (k, v) :: (a, b) :: m
    else if k = a then (k, v) :: m
    else (a, b) :: Memory.put m k v

/-- Write a sequence of bytes at rising indices from `k`. -/
def Memory.putAll : Memory → Nat → List Byte → Memory
  | m, _, [] => m
  | m, k, v :: vs => Memory.putAll (Memory.put m k v) (k + 1) vs

/-- Every index of a buffer is above `k`, and the indices rise strictly. -/
def Memory.above : Nat → Memory → Bool
  | _, [] => true
  | k, (a, _) :: m => decide (k < a) && Memory.above a m

/-- The canonical form of a buffer: strictly rising indices. An entry is never what an unlisted
index reads as, since an unlisted index has no listed byte (assumption 3). -/
def Memory.wf : Memory → Bool
  | [] => true
  | (a, _) :: m => Memory.above a m

/-- Every index of a buffer is below the capacity. -/
def Memory.within (cap : Nat) (m : Memory) : Bool := m.all fun c => decide (c.1 < cap)

/-- What byte `k` of a buffer holds: the byte written there, or the unspecified byte it came out of
reset with (R56, U1). -/
def Memory.byte (m : Memory) (b : Buffer) (epoch k : Nat) : Byte :=
  (Memory.get m k).getD (Config.resetByte b epoch k)

/-- `IN[k]` (R14). -/
def inByte (s : State) (k : Nat) : Byte := Memory.byte s.inBuf .input s.epoch k

/-- `OUT[k]` (R14). -/
def outByte (s : State) (k : Nat) : Byte := Memory.byte s.outBuf .output s.epoch k

/-! ## Tables -/

/-- `FREQ[s]`. -/
def freqAt (f : FreqTable) (b : Byte) : Word := f[b.toNat]

/-- `FREQ[s] <- v`. -/
def freqPut (f : FreqTable) (b : Byte) (v : Word) : FreqTable := f.set b.toNat v b.isLt

/-- FREQ with every entry 0. -/
def freqZero : FreqTable := Vector.replicate 256 0

/-- `NODE[i]`; index 511 is no entry and reads all zero (R88). -/
def nodeAt (a : Arena) (i : Nat) : Node := if h : i < 511 then a[i] else Node.zero

/-- `NODE[i] <- n`, for i in 0..510. -/
def nodePut (a : Arena) (i : Nat) (n : Node) : Arena := if h : i < 511 then a.set i n else a

/-- NODE with every entry zero. -/
def arenaZero : Arena := Vector.replicate 511 Node.zero

/-- `CODE[s]`. -/
def codeAt (tbl : CodeTable) (b : Byte) : Code := tbl[b.toNat]

/-- `CODE[s] <- v`. -/
def codePut (tbl : CodeTable) (b : Byte) (v : Code) : CodeTable := tbl.set b.toNat v b.isLt

/-- CODE with every entry cleared. -/
def codeZero : CodeTable := Vector.replicate 256 Code.zero

/-! ## Clearing -/

/-- `ClearCodes()` (R61). -/
def clearCodes (s : State) : State := { s with code := codeZero, codesValid := false }

/-- `ClearTree()` (R60). -/
def clearTree (s : State) : State :=
  clearCodes { s with node := arenaZero, root := 0, nodeCount := 0, leafCount := 0, treeBits := 0, treeValid := false }

/-! ## Issue -/

/-- A command issue: the effects of a write of `w` to CMD while BUSY = 0 (R384). -/
def issue (w : Word) (s : State) : State :=
  { s with cmdw := w, pending := some w, busy := true, done := false, error := false, errCode := 0, errPos := 0 }

/-! ## Raising -/

/-- Why a command ends by a raise (R341), with what ERR_POS reports (R344). OUT_OVERFLOW has two
causes, since its class depends on the stage that raises it. -/
inductive Cause
  | illegalCmd (w : Word)
  | badLength (v : Word)
  | emptyInput
  | noTree
  | noCodes
  | corruptTree (pos : Nat)
  | treeTooLarge (pos : Nat)
  | badPadding (pos : Nat)
  | invalidBranch (pos : Nat)
  | truncatedPayload (pos : Nat)
  | uncodedSymbol (k : Nat)
  | emitOverflow (cap : Nat)
  | decodeOverflow (pos : Nat)
  deriving DecidableEq, Repr

/-- The classes of R341's last column. -/
inductive ErrClass
  | precondition
  | emitData
  | treeData
  | decodeData
  deriving DecidableEq, Repr

/-- ERR_CODE of a cause (R341). -/
def Cause.code : Cause → BitVec 8
  | .illegalCmd _       => 1
  | .badLength _        => 2
  | .emptyInput         => 3
  | .noTree             => 4
  | .noCodes            => 5
  | .corruptTree _      => 6
  | .treeTooLarge _     => 7
  | .badPadding _       => 8
  | .invalidBranch _    => 9
  | .truncatedPayload _ => 10
  | .uncodedSymbol _    => 11
  | .emitOverflow _     => 12
  | .decodeOverflow _   => 12

/-- ERR_POS of a cause (R344). -/
def Cause.pos : Cause → Word
  | .illegalCmd w       => w
  | .badLength v        => v
  | .emptyInput         => 0
  | .noTree             => 0
  | .noCodes            => 0
  | .corruptTree p      => BitVec.ofNat 32 p
  | .treeTooLarge p     => BitVec.ofNat 32 p
  | .badPadding p       => BitVec.ofNat 32 p
  | .invalidBranch p    => BitVec.ofNat 32 p
  | .truncatedPayload p => BitVec.ofNat 32 p
  | .uncodedSymbol k    => BitVec.ofNat 32 k
  | .emitOverflow c     => BitVec.ofNat 32 c
  | .decodeOverflow p   => BitVec.ofNat 32 p

/-- The class of a cause (R341). -/
def Cause.cls : Cause → ErrClass
  | .illegalCmd _       => .precondition
  | .badLength _        => .precondition
  | .emptyInput         => .precondition
  | .noTree             => .precondition
  | .noCodes            => .precondition
  | .corruptTree _      => .treeData
  | .treeTooLarge _     => .treeData
  | .badPadding _       => .decodeData
  | .invalidBranch _    => .decodeData
  | .truncatedPayload _ => .decodeData
  | .uncodedSymbol _    => .emitData
  | .emitOverflow _     => .emitData
  | .decodeOverflow _   => .decodeData

/-- The effects of an error class (R347 to R350), on the state with the writes the command made
before the raise (R345). -/
def classEffects : ErrClass → State → State
  | .precondition, s => s
  | .emitData, s     => { s with outLen := 0, padCount := 0, payloadBits := 0 }
  | .treeData, s     => { clearTree s with outLen := 0 }
  | .decodeData, s   => { s with outLen := 0, padCount := 0, payloadBits := 0 }

/-! ## Completing -/

/-- How the pseudocode of a command ends: at its end, by a raise (R16), or not at all. -/
inductive Ran
  | done (s : State)
  | raised (c : Cause) (s : State)
  | stuck (f : Fault)
  deriving DecidableEq, Repr

/-- Run a stage on what the previous one left; the first raise ends the command (R312, R313, R351). -/
def Ran.andThen : Ran → (State → Ran) → Ran
  | .done s, f     => f s
  | .raised c s, _ => .raised c s
  | .stuck x, _    => .stuck x

/-- The engine becomes idle (R342). -/
def idle (s : State) : State := { s with busy := false, pending := none }

/-- Completion without error (R342). -/
def complete (s : State) : State := idle { s with done := true }

/-- TAKING AN EXCEPTION: completion by a raise. The class's effects, then ERROR, ERR_CODE and
ERR_POS, and the engine is idle (R342, R345). -/
def takeError (c : Cause) (s : State) : State :=
  idle { classEffects c.cls s with error := true, errCode := c.code, errPos := c.pos }

/-- The engine step's outcome (R342). -/
def finish : Ran → Host.Outcome State Fault Refusal
  | .done s     => .next (complete s)
  | .raised c s => .next (takeError c s)
  | .stuck f    => .fault f

/-- The completion step of a pending word that is no command (R121, R124, R347). -/
def execIllegal (w : Word) (s : State) : Host.Outcome State Fault Refusal :=
  finish (.raised (.illegalCmd w) s)

/-- RETURNING: the host acknowledges a completion by writing 1 to DONE or ERROR (R36 W1C, R352). -/
def acknowledge (v : Word) (s : State) : State :=
  { s with done := s.done && !v.getLsbD 1, error := s.error && !v.getLsbD 2 }

/-! ## Reset -/

/-- The reset input (R380): every piece of the block's state takes its value of R56; IN and OUT are
unspecified anew. What is outside the block stays. -/
def resetBlock (s : State) : State :=
  { State.resetWith s.cfg with agenda := s.agenda, readLog := s.readLog, draws := s.draws, epoch := s.epoch + 1 }

end Sys2Proof.Machine
end

