-- ==== Sys2Proof/Machine/Operands.lean ====
section
/-! DEFINITION. The operand forms of the commands (spec/30_encoding.md R123): all are fixed state. The
input bytes, the unpacked input stream, and the trees that NODE and ROOT hold. -/

namespace Sys2Proof.Machine

/-- Whether a command that reads IN may run: IN_LEN ≤ IN_CAP (R40). -/
def inLenOk (s : State) : Bool := decide (s.inLen.toNat ≤ s.cfg.inCap)

/-- IN[0..IN_LEN) (R52). -/
def inBytes (s : State) : List Byte := (List.range s.inLen.toNat).map (inByte s)

/-- OUT[0..OUT_LEN) (R53). -/
def outBytes (s : State) : List Byte := (List.range s.outLen.toNat).map (outByte s)

/-- The unpacked stream U of IN, of 8 × IN_LEN digits (R260). -/
def inStream (s : State) : Bits := unpack (inBytes s)

/-- `bitof(k)` (R262). -/
def bitof (s : State) (k : Nat) : Bool := (inByte s (k / 8)).getLsbD (7 - k % 8)

/-- A tree as the arena holds it: every node with its NODE index (R18). -/
inductive Tree
  | leaf (i : Nat) (sym : Byte)
  | node (i : Nat) (left right : Tree)
  deriving DecidableEq, Repr

/-- The tree at index `i` of the arena, if the nodes reached from there form one of at most `fuel`
levels. -/
def readTree (a : Arena) : Nat → Nat → Option Tree
  | 0, _ => none
  | fuel + 1, i =>
    if (nodeAt a i).kind then some (.leaf i (nodeAt a i).sym)
    else
      match readTree a fuel (nodeAt a i).left.toNat with
      | none => none
      | some l =>
        match readTree a fuel (nodeAt a i).right.toNat with
        | none => none
        | some r => some (.node i l r)

/-- The most levels of a tree: a depth of at most 255 = MAX_CODE_LEN (R10, R204). -/
def maxLevels : Nat := 256

/-- The current tree, from ROOT. -/
def currentTree (s : State) : Option Tree := readTree s.node maxLevels s.root.toNat

end Sys2Proof.Machine
end

