-- ==== Sys2Proof/Machine/TreeCodec.lean ====
section
/-! DEFINITION. The tree serializer and TREE_LOAD (spec/43_tree_codec.md). -/

namespace Sys2Proof.Machine

/-- `serialize(i)`: preorder, a leaf is 1 and its symbol, an internal node is 0 and its subtrees
(R220, R130). -/
def serialize : Tree → Bits
  | .leaf _ sym => true :: bin8 sym
  | .node _ l r => false :: (serialize l ++ serialize r)

/-- What the parse carries: the digits not yet consumed, the position p of the first of them, the
nodes and leaves so far, and the arena (R222). -/
structure Loader where
  bits   : Bits
  pos    : Nat
  cnt    : Nat
  leaves : Nat
  node   : Arena
  deriving DecidableEq, Repr

/-- The entry a leaf gets (R222, R228). -/
def loadedLeaf (sym : Byte) : Node := { kind := true, sym := sym, nfreq := 0, left := 0, right := 0 }

/-- The entry an internal node gets once its children's indices are known (R222, R228). -/
def loadedNode (l r : Nat) : Node :=
  { kind := false, sym := 0, nfreq := 0, left := BitVec.ofNat 9 l, right := BitVec.ofNat 9 r }

/-- `parse()` (R222, R223): the index of the node read, and what is left, or the error. `len` is L =
8 × IN_LEN. Each level of the recursion makes a node, so 512 levels always suffice (R226). -/
def parse (len : Nat) : Nat → Loader → Except Cause (Nat × Loader)
  | 0, st => .error (.treeTooLarge st.pos)
  | fuel + 1, st =>
    match st.bits with
    | [] => .error (.corruptTree len)
    | t :: rest =>
      if st.cnt = 511 then .error (.treeTooLarge st.pos)
      else if t then
        match splitBits 8 rest with
        | none => .error (.corruptTree len)
        | some (digits, rest') =>
          .ok (st.cnt, { bits := rest', pos := st.pos + 9, cnt := st.cnt + 1, leaves := st.leaves + 1,
                         node := nodePut st.node st.cnt (loadedLeaf (byteOf digits)) })
      else
        match parse len fuel { st with bits := rest, pos := st.pos + 1, cnt := st.cnt + 1,
                                       node := nodePut st.node st.cnt (loadedNode 0 0) } with
        | .error c => .error c
        | .ok (l, st₁) =>
          match parse len fuel { st₁ with node := nodePut st₁.node st.cnt (loadedNode l 0) } with
          | .error c => .error c
          | .ok (r, st₂) => .ok (st.cnt, { st₂ with node := nodePut st₂.node st.cnt (loadedNode l r) })

/-- The parse of a whole stream from bit 0 into an empty arena (R222). -/
def parseStream (bits : Bits) : Except Cause (Nat × Loader) :=
  parse bits.length 512 { bits := bits, pos := 0, cnt := 0, leaves := 0, node := arenaZero }

/-- The pseudocode of TREE_LOAD (R222). -/
def bodyTreeLoad (s : State) : Ran :=
  if inLenOk s then
    match parseStream (inStream s) with
    | .error c => .raised c (clearTree s)
    | .ok (r, st) =>
      .done { clearTree s with
        node := st.node
        root := BitVec.ofNat 9 r
        nodeCount := BitVec.ofNat 10 st.cnt
        leafCount := BitVec.ofNat 9 st.leaves
        treeBits := BitVec.ofNat 32 st.pos
        bitpos := BitVec.ofNat 32 st.pos
        treeValid := true }
  else .raised (.badLength s.inLen) s

/-- TREE_LOAD (R222). -/
def execTreeLoad (s : State) : Host.Outcome State Fault Refusal := finish (bodyTreeLoad s)

end Sys2Proof.Machine
end

