-- ==== Sys2Proof/Machine/BitPacker.lean ====
section
/-! DEFINITION. EMIT (spec/44_bitpacker.md). -/

namespace Sys2Proof.Machine

/-- `payload()` from byte k on: the codes of the bytes in input order, or the index of the first byte
with no code (R250). -/
def payloadFrom (c : CodeTable) : Nat → List Byte → Except Cause Bits
  | _, [] => .ok []
  | k, b :: bs =>
    if (codeAt c b).len = 0 then .error (.uncodedSymbol k)
    else
      match payloadFrom c (k + 1) bs with
      | .error e => .error e
      | .ok rest => .ok ((codeAt c b).bits ++ rest)

/-- `payload()` (R250). -/
def payload (s : State) : Except Cause Bits := payloadFrom s.code 0 (inBytes s)

/-- The compressed stream S of tree bits and payload bits (R129). -/
def streamOf (tree payloadBits : Bits) : Bits :=
  tree ++ bin8 (BitVec.ofNat 8 (pad tree.length payloadBits.length))
    ++ zeros (pad tree.length payloadBits.length) ++ payloadBits

/-- EMIT from its tree and payload on: the capacity check and the writes (R253, R255). -/
def emitStream (tree payloadBits : Bits) (s : State) : Ran :=
  let stream := streamOf tree payloadBits
  if s.cfg.outCap < stream.length / 8 then .raised (.emitOverflow s.cfg.outCap) s
  else
    .done { s with
      outBuf := Memory.putAll s.outBuf 0 (pack stream)
      outLen := BitVec.ofNat 32 (stream.length / 8)
      treeBits := BitVec.ofNat 32 tree.length
      padCount := BitVec.ofNat 3 (pad tree.length payloadBits.length)
      payloadBits := BitVec.ofNat 32 payloadBits.length }

/-- The pseudocode of EMIT, with its check order (R253, R254). -/
def bodyEmit (s : State) : Ran :=
  if inLenOk s then
    if s.treeValid then
      if s.codesValid then
        match currentTree s with
        | none => .stuck .arenaNotATree
        | some t =>
          match payload s with
          | .error c => .raised c s
          | .ok p => emitStream (serialize t) p s
      else .raised .noCodes s
    else .raised .noTree s
  else .raised (.badLength s.inLen) s

/-- EMIT (R253). -/
def execEmit (s : State) : Host.Outcome State Fault Refusal := finish (bodyEmit s)

end Sys2Proof.Machine
end

