-- ==== Sys2Proof/Machine/CodeTable.lean ====
section
/-! DEFINITION. CODE_GEN (spec/42_code_table.md). -/

namespace Sys2Proof.Machine

/-- The code of a leaf reached by `path`: the path, or the one-bit code `0` for a root leaf (R202). -/
def leafCode (path : Bits) : Bits := if path.isEmpty then [false] else path

/-- The CODE entry with the given digits (R200). -/
def codeOf (c : Bits) : Code := { len := BitVec.ofNat 8 c.length, bits := c }

/-- `walk(i, path)`: depth-first, left before right; a later leaf overwrites (R200, R201, R203). -/
def walkCodes : Tree → Bits → CodeTable → CodeTable
  | .leaf _ sym, path, c => codePut c sym (codeOf (leafCode path))
  | .node _ l r, path, c => walkCodes r (path ++ [true]) (walkCodes l (path ++ [false]) c)

/-- The pseudocode of CODE_GEN (R200). -/
def bodyCodeGen (s : State) : Ran :=
  if s.treeValid then
    match currentTree s with
    | some t => .done { clearCodes s with code := walkCodes t [] codeZero, codesValid := true }
    | none => .stuck .arenaNotATree
  else .raised .noTree s

/-- CODE_GEN (R200). -/
def execCodeGen (s : State) : Host.Outcome State Fault Refusal := finish (bodyCodeGen s)

end Sys2Proof.Machine
end

