-- ==== Sys2Proof/Machine/Decoder.lean ====
section
/-! DEFINITION. DECODE_PAYLOAD (spec/45_decoder.md). -/

namespace Sys2Proof.Machine

/-- What the walk carries: the cursor node, the bytes written so far, and OUT (R280). -/
structure Walker where
  cur : Nat
  n   : Nat
  out : Memory
  deriving DecidableEq, Repr

/-- `emit(v)` (R285): write the next output byte, or none where OUT is full. -/
def emitByte (cap : Nat) (w : Walker) (v : Byte) : Option Walker :=
  if w.n = cap then none else some { w with n := w.n + 1, out := Memory.put w.out w.n v }

/-- The child of node `i` that a payload bit leads to: LEFT on 0, RIGHT on 1 (R283). -/
def childOf (a : Arena) (i : Nat) (b : Bool) : Nat :=
  if b then (nodeAt a i).right.toNat else (nodeAt a i).left.toNat

/-- The walk over the remaining payload bits, the first at position p (R280, R283 to R286): the
walker where it stopped, and the error it stopped with, if any. -/
def walkPayload (a : Arena) (root cap : Nat) : Bits → Nat → Walker → Walker × Option Cause
  | [], p, w => (w, if w.cur = root then none else some (.truncatedPayload p))
  | b :: bs, p, w =>
    if (nodeAt a root).kind then
      if b then (w, some (.invalidBranch p))
      else
        match emitByte cap w (nodeAt a root).sym with
        | none => (w, some (.decodeOverflow p))
        | some w' => walkPayload a root cap bs (p + 1) w'
    else if (nodeAt a (childOf a w.cur b)).kind then
      match emitByte cap w (nodeAt a (childOf a w.cur b)).sym with
      | none => (w, some (.decodeOverflow p))
      | some w' => walkPayload a root cap bs (p + 1) { w' with cur := root }
    else walkPayload a root cap bs (p + 1) { w with cur := childOf a w.cur b }

/-- The pad bits from position p: `k` digits that must be 0 (R282). The error names the first that is
1; `bs` holds at least `k` digits. -/
def skipPad : Nat → Nat → Bits → Except Cause Bits
  | 0, _, bs => .ok bs
  | k + 1, p, b :: bs => if b then .error (.badPadding p) else skipPad k (p + 1) bs
  | _ + 1, p, [] => .error (.badPadding p)

/-- The pad field and pad bits of a stream whose cursor is at position p (R281, R282): the pad count
and the payload bits. -/
def readPadding (p : Nat) (bits : Bits) : Except Cause (Nat × Bits) :=
  match splitBits 8 bits with
  | none => .error (.badPadding p)
  | some (field, rest) =>
    if 7 < val field then .error (.badPadding p)
    else if rest.length < val field then .error (.badPadding (p + 8))
    else
      match skipPad (val field) (p + 8) rest with
      | .error c => .error c
      | .ok payload => .ok (val field, payload)

/-- DECODE_PAYLOAD from its payload bits on (R280, R287): `c` is the pad count, `start` the position of
the first payload bit. -/
def decodeFrom (c start : Nat) (payload : Bits) (s : State) : Ran :=
  match walkPayload s.node s.root.toNat s.cfg.outCap payload start { cur := s.root.toNat, n := 0, out := s.outBuf } with
  | (w, some e) => .raised e { s with outBuf := w.out }
  | (w, none) =>
    .done { s with
      outBuf := w.out
      outLen := BitVec.ofNat 32 w.n
      padCount := BitVec.ofNat 3 c
      payloadBits := BitVec.ofNat 32 payload.length
      bitpos := BitVec.ofNat 32 (8 * s.inLen.toNat) }

/-- The pseudocode of DECODE_PAYLOAD (R280). -/
def bodyDecodePayload (s : State) : Ran :=
  if inLenOk s then
    if s.treeValid then
      if 8 * s.inLen.toNat < s.bitpos.toNat then .raised (.badLength s.bitpos) s
      else
        match readPadding s.bitpos.toNat ((inStream s).drop s.bitpos.toNat) with
        | .error e => .raised e s
        | .ok (c, payload) => decodeFrom c (s.bitpos.toNat + 8 + c) payload s
    else .raised .noTree s
  else .raised (.badLength s.inLen) s

/-- DECODE_PAYLOAD (R280). -/
def execDecodePayload (s : State) : Host.Outcome State Fault Refusal := finish (bodyDecodePayload s)

end Sys2Proof.Machine
end

