-- ==== Sys2Proof/Machine/Frequency.lean ====
section
/-! DEFINITION. FREQ_COUNT (spec/40_frequency.md). -/

namespace Sys2Proof.Machine

/-- `FREQ[b] <- FREQ[b] + 1` (R160). -/
def countByte (f : FreqTable) (b : Byte) : FreqTable := freqPut f b (freqAt f b + 1)

/-- The counts of a byte sequence, from the all-zero table (R160). -/
def countBytes (bytes : List Byte) : FreqTable := bytes.foldl countByte freqZero

/-- The pseudocode of FREQ_COUNT (R160). -/
def bodyFreqCount (s : State) : Ran :=
  if inLenOk s then .done { s with freq := countBytes (inBytes s) }
  else .raised (.badLength s.inLen) s

/-- FREQ_COUNT (R160). -/
def execFreqCount (s : State) : Host.Outcome State Fault Refusal := finish (bodyFreqCount s)

end Sys2Proof.Machine
end

