-- ==== Sys2Proof/Machine/TreeBuilder.lean ====
section
/-! DEFINITION. TREE_BUILD (spec/41_tree_builder.md). -/

namespace Sys2Proof.Machine

/-- The symbols with FREQ ≠ 0, ascending (R180, R183). -/
def presentSymbols (f : FreqTable) : List Byte :=
  ((List.range 256).map (BitVec.ofNat 8)).filter fun b => freqAt f b != 0

/-- A leaf of TREE_BUILD (R180). -/
def leafNode (b : Byte) (freq : Word) : Node :=
  { kind := true, sym := b, nfreq := freq.setWidth 40, left := 0, right := 0 }

/-- The leaves, at rising indices from `i` (R183). -/
def putLeaves (f : FreqTable) : Nat → List Byte → Arena → Arena
  | _, [], a => a
  | i, b :: bs, a => putLeaves f (i + 1) bs (nodePut a i (leafNode b (freqAt f b)))

/-- `key(i) < key(j)`, with key(i) = (NODE[i].NFREQ, i) compared lexicographically (R181). -/
def keyLt (a : Arena) (i j : Nat) : Bool :=
  decide ((nodeAt a i).nfreq.toNat < (nodeAt a j).nfreq.toNat)
    || (decide ((nodeAt a i).nfreq.toNat = (nodeAt a j).nfreq.toNat) && decide (i < j))

/-- The element with the least key among `best` and the list (R17 `argmin`). -/
def argminFrom (a : Arena) : Nat → List Nat → Nat
  | best, [] => best
  | best, i :: q => argminFrom a (if keyLt a i best then i else best) q

/-- `argmin over i in Q of key(i)`, or none where Q is empty. -/
def argmin (a : Arena) : List Nat → Option Nat
  | [] => none
  | i :: q => some (argminFrom a i q)

/-- A merged node: the sum of the two frequencies, LEFT removed first, RIGHT second (R182, R186). -/
def mergedNode (a : Arena) (x y : Nat) : Node :=
  { kind := false, sym := 0, nfreq := (nodeAt a x).nfreq + (nodeAt a y).nfreq,
    left := BitVec.ofNat 9 x, right := BitVec.ofNat 9 y }

/-- The merge loop (R180 `while |Q| > 1`): `next` is the index n + k of the next merged node. At most
`fuel` merges; |Q| of them always suffice, since each makes Q one shorter. -/
def mergeLoop : Nat → Nat → List Nat → Arena → Arena × List Nat
  | 0, _, q, a => (a, q)
  | fuel + 1, next, q, a =>
    match argmin a q with
    | none => (a, q)
    | some x =>
      match argmin a (q.erase x) with
      | none => (a, q)
      | some y => mergeLoop fuel (next + 1) (next :: (q.erase x).erase y) (nodePut a next (mergedNode a x y))

/-- The arena and the final Q of TREE_BUILD, for the symbols present. -/
def buildArena (f : FreqTable) (syms : List Byte) : Arena × List Nat :=
  mergeLoop syms.length syms.length (List.range syms.length) (putLeaves f 0 syms arenaZero)

/-- The pseudocode of TREE_BUILD (R180). -/
def bodyTreeBuild (s : State) : Ran :=
  let syms := presentSymbols s.freq
  if syms.isEmpty then .raised .emptyInput s
  else
    let built := buildArena s.freq syms
    .done { clearTree s with
      node := built.1
      root := BitVec.ofNat 9 (built.2.headD 0)
      nodeCount := BitVec.ofNat 10 (2 * syms.length - 1)
      leafCount := BitVec.ofNat 9 syms.length
      treeBits := BitVec.ofNat 32 (10 * syms.length - 1)
      treeValid := true }

/-- TREE_BUILD (R180). -/
def execTreeBuild (s : State) : Host.Outcome State Fault Refusal := finish (bodyTreeBuild s)

end Sys2Proof.Machine
end

