-- ==== Sys2Proof/Machine/Control.lean ====
section
/-! DEFINITION. NOP, CLEAR, COMPRESS and DECOMPRESS (spec/46_control.md). -/

namespace Sys2Proof.Machine

/-- The pseudocode of NOP: skip (R310). -/
def bodyNop (s : State) : Ran := .done s

/-- NOP (R310). -/
def execNop (s : State) : Host.Outcome State Fault Refusal := finish (bodyNop s)

/-- The pseudocode of CLEAR (R311). -/
def bodyClear (s : State) : Ran :=
  .done { clearTree s with freq := freqZero, outLen := 0, bitpos := 0, padCount := 0, payloadBits := 0 }

/-- CLEAR (R311). -/
def execClear (s : State) : Host.Outcome State Fault Refusal := finish (bodyClear s)

/-- The pseudocode of COMPRESS: the four encoder stages (R312). -/
def bodyCompress (s : State) : Ran :=
  (((bodyFreqCount s).andThen bodyTreeBuild).andThen bodyCodeGen).andThen bodyEmit

/-- COMPRESS (R312). -/
def execCompress (s : State) : Host.Outcome State Fault Refusal := finish (bodyCompress s)

/-- The pseudocode of DECOMPRESS: the two decoder stages (R313). -/
def bodyDecompress (s : State) : Ran := (bodyTreeLoad s).andThen bodyDecodePayload

/-- DECOMPRESS (R313). -/
def execDecompress (s : State) : Host.Outcome State Fault Refusal := finish (bodyDecompress s)

end Sys2Proof.Machine
end

