-- ==== Sys2Proof/Machine/Flags.lean ====
section
/-! DEFINITION. The STATUS flags and the interrupt output (spec/10_state.md R36, R54, R55). -/

namespace Sys2Proof.Machine

/-- The IRQ output: IRQ_EN and (DONE or ERROR) (R54). -/
def irq (s : State) : Bool := s.irqEn && (s.done || s.error)

/-- A word with the STATUS fields, [0] BUSY to [5] IRQ, the rest 0 (R36). -/
def packStatus (busy done error treeValid codesValid irq : Bool) : Word :=
  0#26 ++ BitVec.ofBool irq ++ BitVec.ofBool codesValid ++ BitVec.ofBool treeValid
    ++ BitVec.ofBool error ++ BitVec.ofBool done ++ BitVec.ofBool busy

/-- What a host read of STATUS returns (R36): during BUSY the two validity flags are unspecified
(U3, assumption 5) and DONE, ERROR and IRQ read 0. -/
def statusWord (s : State) : Word :=
  if s.busy then
    packStatus true false false ((Config.busyFlags s.draws).getLsbD 0) ((Config.busyFlags s.draws).getLsbD 1) false
  else packStatus false s.done s.error s.treeValid s.codesValid (irq s)

end Sys2Proof.Machine
end

