-- ==== Sys2Proof/Machine/HostPort.lean ====
section
/-! DEFINITION. The host's side of the bus (spec/20_memory.md): the address map, what a word read
returns, what a word write does, and which accesses the interface admits. -/

namespace Sys2Proof.Machine

/-! ## The address map -/

/-- The offset of a register (R32). -/
def Reg.offset : Reg → Nat
  | .id          => 0x000
  | .inCapR      => 0x004
  | .outCapR     => 0x008
  | .cmd         => 0x010
  | .status      => 0x014
  | .ctrl        => 0x018
  | .errCode     => 0x01C
  | .errPos      => 0x020
  | .inLen       => 0x024
  | .outLen      => 0x028
  | .bitpos      => 0x02C
  | .root        => 0x030
  | .nodeCount   => 0x034
  | .leafCount   => 0x038
  | .treeBits    => 0x03C
  | .padCount    => 0x040
  | .payloadBits => 0x044

/-- The registers of R32, in offset order. -/
def allRegs : List Reg :=
  [.id, .inCapR, .outCapR, .cmd, .status, .ctrl, .errCode, .errPos, .inLen, .outLen, .bitpos, .root,
   .nodeCount, .leafCount, .treeBits, .padCount, .payloadBits]

/-- The register at an offset of the register block; 0x00C is reserved (R32). -/
def regAt (o : Nat) : Option Reg := allRegs.find? fun r => r.offset == o

/-- The map of R81, for an offset that is a multiple of 4. -/
def regionOf (o : Nat) : Region :=
  if o < 0x48 then
    match regAt o with
    | some r => .reg r
    | none   => .reserved
  else if o < 0x400 then .reserved
  else if o < 0x800 then .freq (BitVec.ofNat 8 ((o - 0x400) / 4))
  else if o < 0x2000 then .reserved
  else if o < 0x4000 then .node ((o - 0x2000) / 16) ((o - 0x2000) % 16 / 4)
  else if o < 0x8000 then .code (BitVec.ofNat 8 ((o - 0x4000) / 64)) ((o - 0x4000) % 64 / 4)
  else if o < 0x10000000 then .reserved
  else if o < 0x20000000 then .input (o - 0x10000000)
  else if o < 0x30000000 then .output (o - 0x20000000)
  else .reserved

/-! ## Reads -/

/-- The hardwired value of ID (R33). -/
def idValue : Word := 0x48434331

/-- What a read of CMD returns (R35): the last accepted word. Whether bits [31:8] show is a free
choice where they are not 0 (assumption 8). -/
def cmdReadValue (w : Word) : Word :=
  if w >>> 8 = 0 then w
  else if Config.cmdReadsReserved then w
  else w &&& 0xFF

/-- What a read of a register returns (R32 to R45). -/
def regWord (s : State) : Reg → Word
  | .id          => idValue
  | .inCapR      => BitVec.ofNat 32 s.cfg.inCap
  | .outCapR     => BitVec.ofNat 32 s.cfg.outCap
  | .cmd         => cmdReadValue s.cmdw
  | .status      => statusWord s
  | .ctrl        => 0#31 ++ BitVec.ofBool s.irqEn
  | .errCode     => s.errCode.setWidth 32
  | .errPos      => s.errPos
  | .inLen       => s.inLen
  | .outLen      => s.outLen
  | .bitpos      => s.bitpos
  | .root        => s.root.setWidth 32
  | .nodeCount   => s.nodeCount.setWidth 32
  | .leafCount   => s.leafCount.setWidth 32
  | .treeBits    => s.treeBits
  | .padCount    => s.padCount.setWidth 32
  | .payloadBits => s.payloadBits

/-- Word `w` of a NODE slot (R88). -/
def nodeWord (n : Node) (w : Nat) : Word :=
  if w = 0 then 0#16 ++ n.sym ++ 0#7 ++ BitVec.ofBool n.kind
  else if w = 1 then n.nfreq.extractLsb' 0 32
  else if w = 2 then 0#24 ++ n.nfreq.extractLsb' 32 8
  else 0#7 ++ n.right ++ 0#7 ++ n.left

/-- Digit cell `i` of a CODE entry: 0 from LEN upward (R50). -/
def codeDigit (c : Code) (i : Nat) : Bool := decide (i < c.len.toNat) && c.bits.getD i false

/-- Word `w` of a CODE slot: LEN, then eight words of 32 digits, digit 32v + j at bit 31 - j, then
reserved words (R88). -/
def codeWord (c : Code) (w : Nat) : Word :=
  if w = 0 then c.len.setWidth 32
  else if w ≤ 8 then BitVec.ofNat 32 (val ((List.range 32).map fun j => codeDigit c (32 * (w - 1) + j)))
  else 0

/-- Byte `k` as the IN window shows it (R86). -/
def inWindowByte (s : State) (k : Nat) : Byte := if k < s.cfg.inCap then inByte s k else 0

/-- Byte `k` as the OUT window shows it (R87). -/
def outWindowByte (s : State) (k : Nat) : Byte := if k < s.cfg.outCap then outByte s k else 0

/-- What a host read returns, by region (R81 to R89). -/
def readRegion (s : State) : Region → Word
  | .reg r     => regWord s r
  | .freq b    => freqAt s.freq b
  | .node i w  => nodeWord (nodeAt s.node i) w
  | .code b w  => codeWord (codeAt s.code b) w
  | .input k   => ofLanes (inWindowByte s k) (inWindowByte s (k + 1)) (inWindowByte s (k + 2)) (inWindowByte s (k + 3))
  | .output k  => ofLanes (outWindowByte s k) (outWindowByte s (k + 1)) (outWindowByte s (k + 2)) (outWindowByte s (k + 3))
  | .reserved  => 0

/-- What a host read of the word at an offset returns. -/
def readWord (s : State) (o : Offset) : Word := readRegion s (regionOf o.toNat)

/-! ## Writes -/

/-- Write one lane of the IN window; an index at or above IN_CAP is ignored (R86). -/
def putInLane (s : State) (k : Nat) (v : Byte) : State :=
  if k < s.cfg.inCap then { s with inBuf := Memory.put s.inBuf k v } else s

/-- Write a word of the IN window (R83, R86). -/
def putInWord (s : State) (k : Nat) (v : Word) : State :=
  putInLane (putInLane (putInLane (putInLane s k (lane v 0)) (k + 1) (lane v 1)) (k + 2) (lane v 2)) (k + 3) (lane v 3)

/-- What a host write to a register does (R32 to R45, R58); the RO registers ignore it. -/
def writeReg (v : Word) (s : State) : Reg → State
  | .id          => s
  | .inCapR      => s
  | .outCapR     => s
  | .cmd         => issue v s
  | .status      => acknowledge v s
  | .ctrl        => { s with irqEn := v.getLsbD 0 }
  | .errCode     => s
  | .errPos      => s
  | .inLen       => { s with inLen := v }
  | .outLen      => s
  | .bitpos      => { s with bitpos := v }
  | .root        => s
  | .nodeCount   => s
  | .leafCount   => s
  | .treeBits    => s
  | .padCount    => s
  | .payloadBits => s

/-- What a host write does, by region (R86 to R91). -/
def writeRegion (v : Word) (s : State) : Region → State
  | .reg r     => writeReg v s r
  | .freq b    => { s with freq := freqPut s.freq b v }
  | .node _ _  => s
  | .code _ _  => s
  | .input k   => putInWord s k v
  | .output _  => s
  | .reserved  => s

/-- What a host write of `v` to the word at an offset does. -/
def writeWord (s : State) (o : Offset) (v : Word) : State := writeRegion v s (regionOf o.toNat)

/-! ## Accesses -/

/-- A read's result goes to the host (R125); reading changes nothing of the block (R91b). A read of
STATUS during BUSY draws the next free value (U3). -/
def hostRead (s : State) (o : Offset) : State :=
  { s with readLog := (o, readWord s o) :: s.readLog, draws := if s.busy then s.draws + 1 else s.draws }

/-- Whether an access is one word at a multiple of 4 (R82). -/
def BusAccess.isWord (a : BusAccess) : Bool := a.bytes == 4 && a.offset.toNat % 4 == 0

/-- Whether an access is a read of STATUS, the only one allowed during BUSY (R390). -/
def BusAccess.readsStatus (a : BusAccess) : Bool := a.op == .read && a.offset.toNat == Reg.offset .status

/-- One host access (R82, R390, R91). -/
def hostAccess (a : BusAccess) (s : State) : Host.Outcome State Fault Refusal :=
  if !a.isWord then .refused .notAWordAccess
  else if s.busy && !a.readsStatus then .refused .accessWhileBusy
  else
    match a.op with
    | .read    => .next (hostRead s a.offset)
    | .write v => .next (writeWord s a.offset v)

end Sys2Proof.Machine
end

