-- ==== Sys2Proof/Machine/Engine.lean ====
section
/-! DEFINITION. The engine's completion step (spec/60_exceptions.md R342) and whose turn it is
(spec/20_memory.md R94; spec/70_reset_and_hazards.md R380, R385, R386). -/

namespace Sys2Proof.Machine

/-- The engine step for a pending word: decode it, then run the command or raise ILLEGAL_CMD
(R121, R342). -/
def engineStep (w : Word) (s : State) : Host.Outcome State Fault Refusal :=
  match decode w with
  | .ok i    => exec i s
  | .error _ => execIllegal w s

/-- The engine's turn: it completes the pending command, or has nothing to do (R342, R381). -/
def engineTurn (s : State) : Host.Outcome State Fault Refusal :=
  match s.pending with
  | some w => engineStep w s
  | none   => .next s

/-- The next move (assumption 2). With nothing left to happen outside, the engine moves (fairness,
R385). A waiting host lets the engine move until what it waits for holds (R125, R386). -/
def turn : List Event → State → Host.Outcome State Fault Refusal
  | [], s               => engineTurn s
  | .engine :: rest, s  => engineTurn { s with agenda := rest }
  | .wait :: rest, s    => if s.busy then engineTurn s else .next { s with agenda := rest }
  | .waitIrq :: rest, s => if irq s then .next { s with agenda := rest } else engineTurn s
  | .host a :: rest, s  => hostAccess a { s with agenda := rest }
  | .reset :: rest, s   => .next (resetBlock { s with agenda := rest })

end Sys2Proof.Machine
end

