-- ==== Sys2Proof/Machine/HostScript.lean ====
section
/-! DEFINITION. The host script statements and their expansions (spec/30_encoding.md R125, R126). -/

namespace Sys2Proof.Machine

/-- The targets of a statement (R125). -/
inductive Target
  | reg (r : Reg)
  | freq (s : Byte)
  | input (m : Nat)            -- IN+4m
  | output (m : Nat)           -- OUT+4m
  | node (i k : Nat)           -- NODE[i]+k
  | code (s : Byte) (k : Nat)  -- CODE[s]+k
  | offset (o : Offset)
  deriving DecidableEq, Repr

/-- The host statements (R125) and pseudo-statements (R126). -/
inductive HostStmt
  | wr (t : Target) (v : Word)
  | rd (t : Target)
  | cmd (i : Instr)
  | wait
  | run (i : Instr)
  | ack
  | loadIn (bytes : List Byte)
  | setFreq (s : Byte) (v : Word)
  deriving DecidableEq, Repr

/-- The offset of a target (R81, R88). -/
def Target.toOffset : Target → Offset
  | .reg r    => BitVec.ofNat 30 r.offset
  | .freq s   => BitVec.ofNat 30 (0x400 + 4 * s.toNat)
  | .input m  => BitVec.ofNat 30 (0x10000000 + 4 * m)
  | .output m => BitVec.ofNat 30 (0x20000000 + 4 * m)
  | .node i k => BitVec.ofNat 30 (0x2000 + 16 * i + k)
  | .code s k => BitVec.ofNat 30 (0x4000 + 64 * s.toNat + k)
  | .offset o => o

/-- One host write of a word. -/
def writeEvent (t : Target) (v : Word) : Event := .host { bytes := 4, offset := t.toOffset, op := .write v }

/-- One host read of a word. -/
def readEvent (t : Target) : Event := .host { bytes := 4, offset := t.toOffset, op := .read }

/-- Word m of LOADIN: bytes 4m to 4m+3, and 0 at an index ≥ n (R126). -/
def loadWord (bytes : List Byte) (m : Nat) : Word :=
  ofLanes (bytes.getD (4 * m) 0) (bytes.getD (4 * m + 1) 0) (bytes.getD (4 * m + 2) 0) (bytes.getD (4 * m + 3) 0)

/-- The events of a statement (R125, R126). -/
def HostStmt.expand : HostStmt → List Event
  | .wr t v       => [writeEvent t v]
  | .rd t         => [readEvent t]
  | .cmd i        => [writeEvent (.reg .cmd) (encode i)]
  | .wait         => [.wait]
  | .run i        => [writeEvent (.reg .cmd) (encode i), .wait]
  | .ack          => [writeEvent (.reg .status) 0x6]
  | .loadIn bytes =>
    ((List.range ((bytes.length + 3) / 4)).map fun m => writeEvent (.input m) (loadWord bytes m))
      ++ [writeEvent (.reg .inLen) (BitVec.ofNat 32 bytes.length)]
  | .setFreq s v  => [writeEvent (.freq s) v]

/-- The events of a host program. -/
def expandScript (p : List HostStmt) : List Event := p.flatMap HostStmt.expand

end Sys2Proof.Machine
end

