-- ==== Sys2Proof/Machine/Step.lean ====
section
/-! DEFINITION. One step of the machine, and how the host's tests place a command word. -/

namespace Sys2Proof.Machine

/-- One step: the next turn of the agenda. -/
def step (s : State) : Host.Outcome State Fault Refusal := turn s.agenda s

/-- The state in which the host has issued the given table word (R384) and the engine moves next, so
that `step` decodes and runs exactly that word (assumption 10). -/
def State.withFetchWord (s : State) (nbits w : Nat) : State :=
  { issue (tableWord nbits w) s with agenda := .engine :: s.agenda }

end Sys2Proof.Machine
end

