-- ==== Sys2Proof/Safety.lean ====
section
/-! DEFINITION. What holds of the block between steps (spec/10_state.md R36, R41, R46, R49, R50), and the
terms the statements use: trees, code words, the error report, and what a command may change. -/

namespace Sys2Proof.Machine

/-! ## Trees (R18, R49) -/

/-- The NODE index of a tree's root. -/
def Tree.index : Tree → Nat
  | .leaf i _   => i
  | .node i _ _ => i

/-- The NODE indices of a tree (R18 `Tree(r)`). -/
def Tree.indices : Tree → List Nat
  | .leaf i _   => [i]
  | .node i l r => i :: (l.indices ++ r.indices)

/-- The leaf symbols, left to right (R201). -/
def Tree.symbols : Tree → List Byte
  | .leaf _ b   => [b]
  | .node _ l r => l.symbols ++ r.symbols

/-- The number of leaves. -/
def Tree.leaves : Tree → Nat
  | .leaf _ _   => 1
  | .node _ l r => l.leaves + r.leaves

/-- The number of nodes. -/
def Tree.size : Tree → Nat
  | .leaf _ _   => 1
  | .node _ l r => 1 + l.size + r.size

/-- The number of levels: the depth plus one. -/
def Tree.levels : Tree → Nat
  | .leaf _ _   => 1
  | .node _ l r => 1 + max l.levels r.levels

/-- Same shape and same leaf symbols in the same order, whatever the NODE indices (R229). -/
def Tree.alike : Tree → Tree → Bool
  | .leaf _ a, .leaf _ b         => a == b
  | .node _ l r, .node _ l' r'   => l.alike l' && r.alike r'
  | .leaf _ _, .node _ _ _       => false
  | .node _ _ _, .leaf _ _       => false

/-- The leaf a digit sequence leads to from a tree's root, 0 to the left and 1 to the right; none
where it ends inside the tree or goes beyond a leaf. -/
def Tree.follow : Tree → Bits → Option Byte
  | .leaf _ b, []          => some b
  | .leaf _ _, _ :: _      => none
  | .node _ _ _, []        => none
  | .node _ l r, d :: rest => if d then r.follow rest else l.follow rest

/-- The leaves of a tree in walk order (R201), each with its symbol and the digits that lead to it. -/
def Tree.paths : Tree → List (Byte × Bits)
  | .leaf _ b   => [(b, [])]
  | .node _ l r => (l.paths.map fun q => (q.1, false :: q.2)) ++ (r.paths.map fun q => (q.1, true :: q.2))

/-- The positions, in a tree's serialization, of the tag bits of its nodes in preorder (R130). -/
def Tree.tags : Tree → List Nat
  | .leaf _ _   => [0]
  | .node _ l r => 0 :: ((l.tags.map fun p => 1 + p) ++ (r.tags.map fun p => 1 + (serialize l).length + p))

/-- The digits of a sequence of code words, each given with the symbol it stands for (R135); the code
word of a single leaf is `0` (R202). -/
def wordsOf (ps : List (Byte × Bits)) : Bits := ps.flatMap fun q => leafCode q.2

/-- The unused fields of an entry are 0 (R48): a leaf has no children, an internal node no symbol. -/
def Node.tidy (n : Node) : Prop :=
  (n.kind = true → n.left = 0 ∧ n.right = 0) ∧ (n.kind = false → n.sym = 0)

/-- R49 of the arena, with `t` the tree that NODE holds from ROOT: (a) the counts, (b) the indices are
exactly 0 to NODE_COUNT - 1 and the rest of the arena is zero, (c) each index occurs once, (d) every
node is a leaf with LEFT = RIGHT = 0 or an internal node with two children, (e) n leaves. Also R48 of the
unused fields, and R45: TREE_BITS is 10n - 1. -/
structure TreeHolds (s : State) (t : Tree) : Prop where
  reads    : currentTree s = some t
  indices  : t.indices.Perm (List.range s.nodeCount.toNat)
  unused   : ∀ i, s.nodeCount.toNat ≤ i → nodeAt s.node i = Node.zero
  count    : t.leaves = s.leafCount.toNat
  atMost   : s.leafCount.toNat ≤ 256
  nodes    : s.nodeCount.toNat + 1 = 2 * s.leafCount.toNat
  treeBits : s.treeBits.toNat + 1 = 10 * s.leafCount.toNat
  tidy     : ∀ i, (nodeAt s.node i).tidy

/-! ## Invariants -/

/-- The control flags (R35, R36, R38, R46, R341): BUSY says whether a command is pending, CMD reads that
command, the issue has cleared the error report, DONE and ERROR exclude each other, and ERR_CODE is at
most 12. -/
structure ControlInv (s : State) : Prop where
  busy_pending : s.busy = s.pending.isSome
  cmd_pending  : ∀ w, s.pending = some w → s.cmdw = w
  cleared      : s.busy = true → s.done = false ∧ s.error = false ∧ s.errCode = 0 ∧ s.errPos = 0
  exclusive    : ¬(s.done = true ∧ s.error = true)
  code_legal   : s.errCode.toNat ≤ 12

/-- The validity flags (R41 a, b, c). -/
structure ValidityInv (s : State) : Prop where
  codes_need_tree : s.codesValid = true → s.treeValid = true
  no_tree         : s.treeValid = false →
    s.node = arenaZero ∧ s.root = 0 ∧ s.nodeCount = 0 ∧ s.leafCount = 0 ∧ s.treeBits = 0
  no_codes        : s.codesValid = false → s.code = codeZero

/-- The buffers are in canonical form (the model's own: DESIGN CHOICE, assumption 3), and within their
capacities (R52, R53). -/
structure BufferInv (s : State) : Prop where
  in_wf      : Memory.wf s.inBuf = true
  out_wf     : Memory.wf s.outBuf = true
  in_within  : Memory.within s.cfg.inCap s.inBuf = true
  out_within : Memory.within s.cfg.outCap s.outBuf = true

/-- The tree and the code table (R41, R49): a valid tree is a tree, and valid codes are the ones
CODE_GEN derives from it. -/
structure TreeInv (s : State) : Prop where
  tree  : s.treeValid = true → ∃ t, TreeHolds s t
  codes : s.codesValid = true → ∃ t, currentTree s = some t ∧ s.code = walkCodes t [] codeZero

/-- A safe state: all of the above. -/
structure Inv (s : State) : Prop where
  control  : ControlInv s
  validity : ValidityInv s
  buffers  : BufferInv s
  tree     : TreeInv s

/-! ## Terms of the statements -/

/-- What no command touches (R40, R52, R97 and the world outside): the parameters, CMD, CTRL, IN_LEN, IN,
and the model's fields. -/
def SameOutside (s t : State) : Prop :=
  t.cfg = s.cfg ∧ t.cmdw = s.cmdw ∧ t.irqEn = s.irqEn ∧ t.inLen = s.inLen ∧ t.inBuf = s.inBuf ∧
  t.agenda = s.agenda ∧ t.readLog = s.readLog ∧ t.draws = s.draws ∧ t.epoch = s.epoch

/-- Completion by a raise that changes nothing but the error report (R342, R347). -/
def raisedWith (code : BitVec 8) (pos : Word) (s : State) : State :=
  { s with error := true, errCode := code, errPos := pos, busy := false, pending := none }

/-- The reserved opcodes (R124). -/
def reservedOpcode (op : BitVec 8) : Prop :=
  0x02 ≤ op.toNat ∧ op.toNat ≤ 0x0F ∨ 0x11 ≤ op.toNat ∧ op.toNat ≤ 0x1F ∨ 0x21 ≤ op.toNat ∧ op.toNat ≤ 0x2F ∨
  0x31 ≤ op.toNat ∧ op.toNat ≤ 0x3F ∨ 0x41 ≤ op.toNat ∧ op.toNat ≤ 0x4F ∨ 0x51 ≤ op.toNat ∧ op.toNat ≤ 0x5F ∨
  0x61 ≤ op.toNat ∧ op.toNat ≤ 0x7F ∨ 0x82 ≤ op.toNat

/-- A word that is no command (R121, R124). -/
def illegalWord (w : Word) : Prop := w.extractLsb' 8 24 ≠ 0 ∨ reservedOpcode (w.extractLsb' 0 8)

/-- The reserved offsets of the map (R81) and of the register block (R32). -/
def reservedOffset (o : Nat) : Prop :=
  o = 0x00C ∨ 0x48 ≤ o ∧ o ≤ 0x3FF ∨ 0x800 ≤ o ∧ o ≤ 0x1FFF ∨ 0x8000 ≤ o ∧ o ≤ 0xFFFFFFF ∨ 0x30000000 ≤ o

/-- The node indices reachable from ROOT (R18 `Tree(ROOT)`). -/
inductive Reached (s : State) : Nat → Prop
  | root : Reached s s.root.toNat
  | child {i : Nat} (d : Bool) (h : Reached s i) (hk : (nodeAt s.node i).kind = false) : Reached s (childOf s.node i d)

/-- `key(i) < key(j)` of R181: by NFREQ, then by index. -/
def keyBefore (a : Arena) (i j : Nat) : Prop :=
  (nodeAt a i).nfreq.toNat < (nodeAt a j).nfreq.toNat ∨
  (nodeAt a i).nfreq.toNat = (nodeAt a j).nfreq.toNat ∧ i < j

/-- Whether node i is in Q before merge k of a build with n leaves: it exists, and no earlier merge has
removed it (R180, R182). -/
def inQueue (a : Arena) (n k i : Nat) : Prop :=
  i < n + k ∧ ∀ j, j < k → (nodeAt a (n + j)).left.toNat ≠ i ∧ (nodeAt a (n + j)).right.toNat ≠ i

/-- The digits of the last leaf with the given symbol, in walk order (R201, R203). -/
def Tree.lastPath (t : Tree) (b : Byte) : Option Bits := ((t.paths.filter fun q => q.1 == b).getLast?).map fun q => q.2

/-- The payload of IN under the current codes (R250). -/
def payloadOf (s : State) : Bits := (inBytes s).flatMap fun b => (codeAt s.code b).bits

/-- The number of bytes of the stream with a tree and a payload of the given lengths (R129, R134). -/
def streamBytes (t p : Nat) : Nat := (t + 8 + (8 - (t + p) % 8) % 8 + p) / 8

/-- OUT afterwards holds `bytes` from index 0 and is otherwise as before (R53). -/
def OutHolds (s t : State) (bytes : List Byte) : Prop :=
  ∀ k, outByte t k = if h : k < bytes.length then bytes[k] else outByte s k

/-- A host read of the word at an offset. -/
def readAt (o : Offset) : BusAccess := { bytes := 4, offset := o, op := .read }

/-- A host write of the word at an offset. -/
def writeAt (o : Offset) (v : Word) : BusAccess := { bytes := 4, offset := o, op := .write v }

end Sys2Proof.Machine
end

