-- ==== Sys2Proof/Certificates/Slice0/Obligations.lean ====
section
/-! DEFINITION. The statements for the provers, in the order of the spec's files. -/

open Sys2Proof Sys2Proof.Machine

/-! ## Encoding and decoding (spec/30_encoding.md) -/

/-- The ten words of the opcode map, written out (R122), are the ten commands. -/
def Obligations.CommandWordsDecode : Prop :=
  decode 0x00000000#32 = .ok .nop ∧ decode 0x00000001#32 = .ok .clear ∧ decode 0x00000010#32 = .ok .freqCount ∧
  decode 0x00000020#32 = .ok .treeBuild ∧ decode 0x00000030#32 = .ok .codeGen ∧ decode 0x00000040#32 = .ok .emit ∧
  decode 0x00000050#32 = .ok .treeLoad ∧ decode 0x00000060#32 = .ok .decodePayload ∧
  decode 0x00000080#32 = .ok .compress ∧ decode 0x00000081#32 = .ok .decompress

/-- Decoding and encoding are inverse (R120, R122): a word decodes to a command exactly where it is that
command's word, and the words that decode to nothing are the illegal ones (R124). -/
def Obligations.DecodeInvertsEncode : Prop :=
  (∀ (w : Word) (i : Instr), decode w = .ok i ↔ w = encode i) ∧
  (∀ w : Word, (∃ e, decode w = .error e) ↔ illegalWord w)

/-- R121, R124. On the engine's turn an illegal word raises ILLEGAL_CMD with the word as position and
changes nothing but the error report; any other word is a command's, and the engine runs it. -/
def Obligations.IllegalWordRaises : Prop :=
  ∀ (s : State) (w : Word) (rest : List Event), s.agenda = .engine :: rest → s.pending = some w →
    (illegalWord w → step s = .next (raisedWith 1 w { s with agenda := rest })) ∧
    (¬illegalWord w → ∃ i, w = encode i ∧ step s = exec i { s with agenda := rest })

/-- A step on which the engine moves (assumption 2: an engine event, a waiting host, or nothing left to
happen) is `exec` of the pending command, and so is the step after `withFetchWord` places a word
(assumption 10). -/
def Obligations.StepRunsDecoded : Prop :=
  (∀ (s : State) (i : Instr) (rest : List Event), s.pending = some (encode i) →
    (s.agenda = [] → step s = exec i s) ∧
    (s.agenda = .engine :: rest → step s = exec i { s with agenda := rest }) ∧
    (s.agenda = .wait :: rest → s.busy = true → step s = exec i s) ∧
    (s.agenda = .waitIrq :: rest → irq s = false → step s = exec i s)) ∧
  ∀ (s : State) (w : Word) (i : Instr), decode w = .ok i → step (s.withFetchWord 32 w.toNat) = exec i (issue w s)

/-- R126 `LOADIN`. On an idle block its events put the bytes into IN from index 0, 0 into the rest of the last
word, and their number into IN_LEN. The other bytes of IN, and everything else, stay. -/
def Obligations.LoadInFillsInput : Prop :=
  ∀ (s : State) (bytes : List Byte), s.busy = false → bytes.length ≤ s.cfg.inCap →
    s.agenda = (HostStmt.loadIn bytes).expand →
    ∃ t, Sys2Proof.core.run s.agenda.length s = .next t ∧
      t = { s with agenda := [], inBuf := t.inBuf, inLen := BitVec.ofNat 32 bytes.length } ∧
      inBytes t = bytes ∧
      (∀ k, bytes.length ≤ k → k < 4 * ((bytes.length + 3) / 4) → k < s.cfg.inCap → inByte t k = 0) ∧
      ∀ k, 4 * ((bytes.length + 3) / 4) ≤ k → inByte t k = inByte s k

/-- R130. The serialization of a tree is self-delimiting: two trees whose serializations begin the same
digits are alike, and end at the same place. -/
def Obligations.SerializationSelfDelimits : Prop :=
  ∀ (t u : Machine.Tree) (x y : Bits), serialize t ++ x = serialize u ++ y → t.alike u = true ∧ x = y

/-- R251, R252, R260, R262: the order of bits. The pad count is below 8 and aligns the stream; packing 8m
digits gives m bytes, the first digit most significant; the unpacked stream of IN has 8 × IN_LEN digits, and
digit k is bit 7 - k mod 8 of byte k div 8. -/
def Obligations.StreamBitOrder : Prop :=
  (∀ t p : Nat, pad t p = (8 - (t + p) % 8) % 8 ∧ pad t p ≤ 7 ∧ (t + 8 + pad t p + p) % 8 = 0) ∧
  (∀ (S : Bits) (m : Nat), S.length = 8 * m → (pack S).length = m ∧
    ∀ j b, j < m → b < 8 → ((pack S).getD j 0).getLsbD (7 - b) = S.getD (8 * j + b) false) ∧
  ∀ s : State, (inStream s).length = 8 * s.inLen.toNat ∧
    ∀ k, k < 8 * s.inLen.toNat →
      (inStream s)[k]? = some (bitof s k) ∧ bitof s k = (inByte s (k / 8)).getLsbD (7 - k % 8)

/-! ## Registers and windows (spec/10_state.md, spec/20_memory.md) -/

/-- R56, with R33 and R34: the state after reset, of every instance. IN and OUT read as the unspecified
bytes of U1 (assumption 3: free values). -/
def Obligations.ResetValues : Prop :=
  ∀ (p : Params) (s : State), s = State.resetWith p →
    readWord s 0x000#30 = 0x48434331 ∧ (readWord s 0x004#30).toNat = p.inCap ∧
    (readWord s 0x008#30).toNat = p.outCap ∧ readWord s 0x010#30 = 0 ∧ readWord s 0x014#30 = 0 ∧
    s.busy = false ∧ s.done = false ∧ s.error = false ∧ s.treeValid = false ∧ s.codesValid = false ∧
    readWord s 0x018#30 = 0 ∧ s.errCode = 0 ∧ s.errPos = 0 ∧ s.inLen = 0 ∧ s.outLen = 0 ∧ s.bitpos = 0 ∧
    s.root = 0 ∧ s.nodeCount = 0 ∧ s.leafCount = 0 ∧ s.treeBits = 0 ∧ s.padCount = 0 ∧ s.payloadBits = 0 ∧
    (∀ b, freqAt s.freq b = 0) ∧
    (∀ i, nodeAt s.node i = { kind := false, sym := 0, nfreq := 0, left := 0, right := 0 }) ∧
    (∀ b, codeAt s.code b = { len := 0, bits := [] }) ∧
    (∀ k, inByte s k = Config.resetByte .input 0 k) ∧ (∀ k, outByte s k = Config.resetByte .output 0 k) ∧
    s.pending = none ∧ irq s = false

/-- R32 to R45, R58. What a read of each register returns, as a number: so the reserved bits read 0. Of
CMD the opcode field (the rest of CMD: assumption 8); STATUS is a statement of its own. -/
def Obligations.RegisterReads : Prop :=
  ∀ s : State,
    (readWord s 0x000#30).toNat = 0x48434331 ∧ (readWord s 0x004#30).toNat = s.cfg.inCap ∧
    (readWord s 0x008#30).toNat = s.cfg.outCap ∧ (readWord s 0x010#30).extractLsb' 0 8 = s.cmdw.extractLsb' 0 8 ∧
    (readWord s 0x018#30).toNat = s.irqEn.toNat ∧ (readWord s 0x01C#30).toNat = s.errCode.toNat ∧
    readWord s 0x020#30 = s.errPos ∧ readWord s 0x024#30 = s.inLen ∧ readWord s 0x028#30 = s.outLen ∧
    readWord s 0x02C#30 = s.bitpos ∧ (readWord s 0x030#30).toNat = s.root.toNat ∧
    (readWord s 0x034#30).toNat = s.nodeCount.toNat ∧ (readWord s 0x038#30).toNat = s.leafCount.toNat ∧
    readWord s 0x03C#30 = s.treeBits ∧ (readWord s 0x040#30).toNat = s.padCount.toNat ∧
    readWord s 0x044#30 = s.payloadBits

/-- R36, R352. STATUS by bit, idle and busy, and what a write does: it clears DONE where bit 1 is 1, ERROR
where bit 2 is 1, and changes nothing else. While busy a read's bits 3 and 4 are unspecified (U3), and the
statement says nothing of them. That DONE and ERROR are never both 1 is StepKeepsControlFlags. -/
def Obligations.StatusRegister : Prop :=
  ∀ s : State,
    (∀ k, 6 ≤ k → (readWord s 0x014#30).getLsbD k = false) ∧ (readWord s 0x014#30).getLsbD 0 = s.busy ∧
    (s.busy = false →
      (readWord s 0x014#30).getLsbD 1 = s.done ∧ (readWord s 0x014#30).getLsbD 2 = s.error ∧
      (readWord s 0x014#30).getLsbD 3 = s.treeValid ∧ (readWord s 0x014#30).getLsbD 4 = s.codesValid ∧
      (readWord s 0x014#30).getLsbD 5 = (s.irqEn && (s.done || s.error))) ∧
    (s.busy = true →
      (readWord s 0x014#30).getLsbD 1 = false ∧ (readWord s 0x014#30).getLsbD 2 = false ∧
      (readWord s 0x014#30).getLsbD 5 = false) ∧
    ∀ v : Word, writeWord s 0x014#30 v =
      { s with done := if v.getLsbD 1 then false else s.done, error := if v.getLsbD 2 then false else s.error }

/-- R54. The IRQ level, what clears it, and that STATUS.IRQ reads it. The last clause also covers the time
a command is pending, where it needs that the issue has cleared DONE and ERROR (an invariant, below). -/
def Obligations.IrqLevel : Prop :=
  ∀ s : State, ControlInv s →
    irq s = (s.irqEn && (s.done || s.error)) ∧
    (∀ v : Word, v.getLsbD 1 = true → v.getLsbD 2 = true → irq (writeWord s 0x014#30 v) = false) ∧
    (∀ v : Word, v.getLsbD 0 = false → irq (writeWord s 0x018#30 v) = false) ∧
    (∀ v : Word, irq (writeWord s 0x010#30 v) = false) ∧
    (readWord s 0x014#30).getLsbD 5 = irq s

/-- R57. IN_LEN, BITPOS and every FREQ entry hold every value written, CTRL bit 0 only; nothing else
changes. -/
def Obligations.WritableRegistersReadBack : Prop :=
  ∀ (s : State) (v : Word),
    (readWord (writeWord s 0x024#30 v) 0x024#30 = v ∧ writeWord s 0x024#30 v = { s with inLen := v }) ∧
    (readWord (writeWord s 0x02C#30 v) 0x02C#30 = v ∧ writeWord s 0x02C#30 v = { s with bitpos := v }) ∧
    (readWord (writeWord s 0x018#30 v) 0x018#30 = v &&& 1 ∧
      writeWord s 0x018#30 v = { s with irqEn := v.getLsbD 0 }) ∧
    ∀ b : Byte, ∃ f : FreqTable, writeWord s (BitVec.ofNat 30 (0x400 + 4 * b.toNat)) v = { s with freq := f } ∧
      (∀ a, freqAt f a = if a = b then v else freqAt s.freq a) ∧
      readWord { s with freq := f } (BitVec.ofNat 30 (0x400 + 4 * b.toNat)) = v

/-- R58. Writes to the read-only registers and windows are ignored. -/
def Obligations.ReadOnlyWritesIgnored : Prop :=
  ∀ (s : State) (o : Offset) (v : Word), o.toNat % 4 = 0 →
    (o.toNat ≤ 0x008 ∨ 0x01C ≤ o.toNat ∧ o.toNat ≤ 0x020 ∨ o.toNat = 0x028 ∨
      0x030 ≤ o.toNat ∧ o.toNat ≤ 0x044 ∨ 0x2000 ≤ o.toNat ∧ o.toNat < 0x8000 ∨
      0x20000000 ≤ o.toNat ∧ o.toNat < 0x30000000) →
    writeWord s o v = s

/-- R89. A reserved offset reads 0, a write there changes nothing, and neither access is an error. -/
def Obligations.ReservedOffsetsInert : Prop :=
  ∀ (s : State) (o : Offset) (v : Word), o.toNat % 4 = 0 → reservedOffset o.toNat →
    readWord s o = 0 ∧ writeWord s o v = s ∧
    ∀ rest : List Event, s.busy = false →
      (s.agenda = .host (readAt o) :: rest → step s = .next { s with agenda := rest, readLog := (o, 0) :: s.readLog }) ∧
      (s.agenda = .host (writeAt o v) :: rest → step s = .next { s with agenda := rest })

/-- R83, R86, R87. The IN window at 0x1000_0000 + 4m and the OUT window at 0x2000_0000 + 4m: lane j, bits
[8j + 7 : 8j], is byte 4m + j; a byte at or above the capacity reads 0; a write sets the bytes of IN below
IN_CAP and changes nothing else, and a write to OUT is ignored. -/
def Obligations.BufferWindowLanes : Prop :=
  ∀ (s : State) (m : Nat) (v : Word), m < 2 ^ 26 →
    (∀ j, j < 4 → (readWord s (BitVec.ofNat 30 (0x10000000 + 4 * m))).extractLsb' (8 * j) 8 =
      if 4 * m + j < s.cfg.inCap then inByte s (4 * m + j) else 0) ∧
    (∃ mem : Memory, writeWord s (BitVec.ofNat 30 (0x10000000 + 4 * m)) v = { s with inBuf := mem } ∧
      ∀ k, inByte { s with inBuf := mem } k =
        if 4 * m ≤ k ∧ k < 4 * m + 4 ∧ k < s.cfg.inCap then v.extractLsb' (8 * (k - 4 * m)) 8 else inByte s k) ∧
    (∀ j, j < 4 → (readWord s (BitVec.ofNat 30 (0x20000000 + 4 * m))).extractLsb' (8 * j) 8 =
      if 4 * m + j < s.cfg.outCap then outByte s (4 * m + j) else 0) ∧
    writeWord s (BitVec.ofNat 30 (0x20000000 + 4 * m)) v = s

/-- R88. The FREQ, NODE and CODE windows by bit. -/
def Obligations.TableWindows : Prop :=
  ∀ s : State,
    (∀ b : Byte, readWord s (BitVec.ofNat 30 (0x400 + 4 * b.toNat)) = freqAt s.freq b) ∧
    (∀ (b : Byte) (v : Word),
      freqAt (writeWord s (BitVec.ofNat 30 (0x400 + 4 * b.toNat)) v).freq b = v) ∧
    (∀ i, i < 511 → ∀ k, k < 32 →
      ((readWord s (BitVec.ofNat 30 (0x2000 + 16 * i))).getLsbD k =
        if k = 0 then (nodeAt s.node i).kind else decide (8 ≤ k ∧ k < 16) && (nodeAt s.node i).sym.getLsbD (k - 8)) ∧
      ((readWord s (BitVec.ofNat 30 (0x2000 + 16 * i + 4))).getLsbD k = (nodeAt s.node i).nfreq.getLsbD k) ∧
      ((readWord s (BitVec.ofNat 30 (0x2000 + 16 * i + 8))).getLsbD k =
        (decide (k < 8) && (nodeAt s.node i).nfreq.getLsbD (32 + k))) ∧
      ((readWord s (BitVec.ofNat 30 (0x2000 + 16 * i + 12))).getLsbD k =
        if k < 16 then (nodeAt s.node i).left.getLsbD k else (nodeAt s.node i).right.getLsbD (k - 16))) ∧
    (∀ w, w < 4 → readWord s (BitVec.ofNat 30 (0x2000 + 16 * 511 + 4 * w)) = 0) ∧
    (∀ b : Byte,
      (readWord s (BitVec.ofNat 30 (0x4000 + 64 * b.toNat))).toNat = (codeAt s.code b).len.toNat ∧
      (∀ w j, w < 8 → j < 32 →
        (readWord s (BitVec.ofNat 30 (0x4000 + 64 * b.toNat + 4 + 4 * w))).getLsbD (31 - j) =
          (decide (32 * w + j < (codeAt s.code b).len.toNat) && (codeAt s.code b).bits.getD (32 * w + j) false)) ∧
      ∀ w, 9 ≤ w → w < 16 → readWord s (BitVec.ofNat 30 (0x4000 + 64 * b.toNat + 4 * w)) = 0) ∧
    ∀ (o : Offset) (v : Word), o.toNat % 4 = 0 → 0x2000 ≤ o.toNat → o.toNat < 0x8000 → writeWord s o v = s

/-- R82, R91, R390 with U4, U5: every host access. One that is not one word at a multiple of 4 is refused.
While BUSY = 1 a read of STATUS goes through and every other access is refused. On an idle block a read
changes nothing of the block and a write does its effect and nothing else. (A read's result goes to the host's
log, assumption 4; a STATUS read while busy draws the next free value of U3, assumption 5.) -/
def Obligations.HostAccessOutcomes : Prop :=
  ∀ (s : State) (a : BusAccess) (rest : List Event), s.agenda = .host a :: rest →
    (a.bytes ≠ 4 ∨ a.offset.toNat % 4 ≠ 0 → step s = .refused .notAWordAccess) ∧
    (a.bytes = 4 → a.offset.toNat % 4 = 0 →
      (s.busy = true → a = readAt 0x014#30 → step s = .next
        { s with agenda := rest, readLog := (0x014#30, readWord s 0x014#30) :: s.readLog, draws := s.draws + 1 }) ∧
      (s.busy = true → a ≠ readAt 0x014#30 → step s = .refused .accessWhileBusy) ∧
      (s.busy = false → a.op = .read →
        step s = .next { s with agenda := rest, readLog := (a.offset, readWord s a.offset) :: s.readLog }) ∧
      ∀ v, s.busy = false → a.op = .write v → step s = .next (writeWord { s with agenda := rest } a.offset v))

/-- R384. A host write of w to CMD while BUSY = 0: the seven effects, IRQ goes to 0, and nothing is decoded
or executed yet. -/
def Obligations.IssueEffects : Prop :=
  ∀ (s : State) (w : Word) (rest : List Event), s.busy = false → s.agenda = .host (writeAt 0x010#30 w) :: rest →
    ∃ t, step s = .next t ∧ irq t = false ∧
      t = { s with agenda := rest, cmdw := w, pending := some w, busy := true, done := false, error := false,
                   errCode := 0, errPos := 0 }

/-- R380. The reset input: a pending command is abandoned and every register and table takes its reset
value; IN and OUT are unspecified anew (assumption 3); the instance and what is outside stay. -/
def Obligations.ResetInput : Prop :=
  ∀ (s : State) (rest : List Event), s.agenda = .reset :: rest →
    ∃ t, step s = .next t ∧
      t = { State.resetWith s.cfg with agenda := rest, readLog := s.readLog, draws := s.draws, epoch := s.epoch + 1 } ∧
      t.pending = none ∧ t.busy = false ∧ t.done = false ∧ t.error = false ∧ irq t = false ∧
      (∀ k, inByte t k = Config.resetByte .input (s.epoch + 1) k) ∧
      ∀ k, outByte t k = Config.resetByte .output (s.epoch + 1) k

/-! ## Invariants (spec/10_state.md) -/

/-- The state after reset satisfies the invariants, for every instance. (The canonical form of the buffers, in
`BufferInv`, is the model's own: DESIGN CHOICE, assumption 3.) -/
def Obligations.ResetSatisfiesInvariants : Prop :=
  (∀ p : Params, Inv (State.resetWith p)) ∧ Inv State.reset

/-- R35, R36, R46, R341: every step keeps that BUSY says whether a command is pending, that CMD reads that
command, that its issue has cleared the report, that DONE and ERROR exclude each other, and that ERR_CODE is
at most 12. -/
def Obligations.StepKeepsControlFlags : Prop :=
  ∀ s t : State, ControlInv s → step s = .next t → ControlInv t

/-- R41 (a), (b), (c): every step keeps the validity flags' meaning. -/
def Obligations.StepKeepsValidityFlags : Prop :=
  ∀ s t : State, ValidityInv s → step s = .next t → ValidityInv t

/-- Every step keeps the bytes written to IN and OUT within IN_CAP and OUT_CAP (R52, R53), and their lists in
canonical form. That form, strictly rising indices of the written bytes, is the model's own and no rule of the
spec: DESIGN CHOICE, assumption 3. -/
def Obligations.StepKeepsBuffers : Prop :=
  ∀ s t : State, BufferInv s → step s = .next t → BufferInv t

/-- R41, R49: every step keeps that a valid tree is a tree that fills NODE[0..NODE_COUNT), and that valid
codes are that tree's. -/
def Obligations.StepKeepsTree : Prop :=
  ∀ s t : State, TreeInv s → step s = .next t → TreeInv t

/-- R49 (a) to (e), in its own terms, and R221, of every state that satisfies the tree invariant (every state
a run reaches does: StepKeepsTree). -/
def Obligations.ValidTreeIsFullBinary : Prop :=
  ∀ s : State, TreeInv s → s.treeValid = true →
    (1 ≤ s.leafCount.toNat ∧ s.leafCount.toNat ≤ 256 ∧ s.nodeCount.toNat = 2 * s.leafCount.toNat - 1) ∧
    (∀ i, Reached s i ↔ i < s.nodeCount.toNat) ∧
    (∀ i, s.nodeCount.toNat ≤ i → nodeAt s.node i = Node.zero) ∧
    (∀ j, Reached s j → j ≠ s.root.toNat →
      ∃ i d, (Reached s i ∧ (nodeAt s.node i).kind = false ∧ childOf s.node i d = j) ∧
        ∀ i' d', Reached s i' → (nodeAt s.node i').kind = false → childOf s.node i' d' = j → i' = i ∧ d' = d) ∧
    (∀ i d, Reached s i → (nodeAt s.node i).kind = false → childOf s.node i d ≠ s.root.toNat) ∧
    (∀ i, Reached s i → (nodeAt s.node i).kind = true → (nodeAt s.node i).left = 0 ∧ (nodeAt s.node i).right = 0) ∧
    (List.range s.nodeCount.toNat).countP (fun i => (nodeAt s.node i).kind) = s.leafCount.toNat ∧
    ∃ t, currentTree s = some t ∧ (serialize t).length = 10 * s.leafCount.toNat - 1 ∧
      s.treeBits.toNat = (serialize t).length

/-- R51, R205. What valid codes are, in every state that satisfies the tree invariant. -/
def Obligations.ValidCodesMeanLeaves : Prop :=
  ∀ s : State, TreeInv s → s.codesValid = true →
    ∃ t, currentTree s = some t ∧
      (∀ b, 0 < (codeAt s.code b).len.toNat → b ∈ t.symbols) ∧
      (∀ b, b ∈ t.symbols → 1 ≤ (codeAt s.code b).len.toNat) ∧
      (∀ a b, a ≠ b → 0 < (codeAt s.code a).len.toNat → 0 < (codeAt s.code b).len.toNat →
        ¬(codeAt s.code a).bits <+: (codeAt s.code b).bits) ∧
      (∀ b, 0 < (codeAt s.code b).len.toNat →
        (codeAt s.code b).bits.length = (codeAt s.code b).len.toNat ∧
        if (nodeAt s.node s.root.toNat).kind then t.follow [] = some b ∧ (codeAt s.code b).bits = [false]
        else t.follow (codeAt s.code b).bits = some b) ∧
      ((nodeAt s.node s.root.toNat).kind = true → ∀ b, 0 < (codeAt s.code b).len.toNat → t.symbols = [b])

/-! ## Every command -/

/-- R387. Every command completes: no command but CODE_GEN and EMIT can do otherwise in any state, and
those two complete in every state that satisfies the tree invariant. So no step of the engine faults. -/
def Obligations.EveryCommandCompletes : Prop :=
  (∀ (i : Instr) (s : State), i ≠ .codeGen → i ≠ .emit → ∃ t, exec i s = .next t) ∧
  (∀ (i : Instr) (s : State), TreeInv s → ∃ t, exec i s = .next t) ∧
  ∀ (s : State) (f : Fault), TreeInv s → step s ≠ .fault f

/-- R385. A pending command completes: however many STATUS reads come first (each sees BUSY = 1), the step
after them completes it (assumption 2: fairness). -/
def Obligations.PendingCommandCompletes : Prop :=
  ∀ (n : Nat) (s : State), ControlInv s → TreeInv s → s.pending.isSome = true →
    s.agenda = List.replicate n (.host (readAt 0x014#30)) →
    ∃ u t log, Sys2Proof.core.run n s = .next u ∧
      u = { s with agenda := [], readLog := log ++ s.readLog, draws := s.draws + n } ∧ log.length = n ∧
      (∀ e ∈ log, e.1 = 0x014#30 ∧ e.2.getLsbD 0 = true) ∧
      step u = .next t ∧ t.busy = false ∧ t.pending = none ∧ (t.done = true ∨ t.error = true)

/-- R342, R343, R346. The completion of an issued command is a success or one error, never both, and a data
error zeroes OUT_LEN while a precondition error keeps it. -/
def Obligations.NoPartialSuccess : Prop :=
  ∀ (i : Instr) (s t : State), ControlInv s → s.busy = true → exec i s = .next t →
    t.busy = false ∧ t.pending = none ∧
    (t.done = true ∧ t.error = false ∧ t.errCode = 0 ∧ t.errPos = 0 ∨
     t.done = false ∧ t.error = true ∧ 1 ≤ t.errCode.toNat ∧ t.errCode.toNat ≤ 12 ∧
      (t.errCode.toNat ≤ 5 → t.outLen = s.outLen) ∧ (6 ≤ t.errCode.toNat → t.outLen = 0))

/-- R347, R348, R349. What an error of a command of one stage leaves, by class: of a decode data error (R350)
only that the tree, the codes, FREQ and BITPOS are unchanged and the stream registers are 0 (OUT is the subject
of the decoder's statements). And which of these commands raise codes 6 to 12 (R341; of every code and command:
ErrorRaisers). -/
def Obligations.ErrorEffectsByClass : Prop :=
  ∀ (i : Instr) (s t : State), i ≠ .compress → i ≠ .decompress → s.error = false → exec i s = .next t →
    t.error = true →
    (t.errCode.toNat ∈ [1, 2, 3, 4, 5] → t = raisedWith t.errCode t.errPos s) ∧
    (i = .emit → t.errCode.toNat ∈ [11, 12] →
      t = raisedWith t.errCode t.errPos { s with outLen := 0, padCount := 0, payloadBits := 0 }) ∧
    (t.errCode.toNat ∈ [6, 7] →
      t = raisedWith t.errCode t.errPos
        { s with node := arenaZero, root := 0, nodeCount := 0, leafCount := 0, treeBits := 0, treeValid := false,
                 code := codeZero, codesValid := false, outLen := 0 }) ∧
    (i = .decodePayload → t.errCode.toNat ∈ [8, 9, 10, 12] →
      t = raisedWith t.errCode t.errPos
        { s with outBuf := t.outBuf, outLen := 0, padCount := 0, payloadBits := 0 }) ∧
    t.errCode.toNat ∈ [2, 3, 4, 5, 6, 7, 8, 9, 10, 11, 12] ∧
    (t.errCode.toNat ∈ [6, 7] → i = .treeLoad) ∧ (t.errCode.toNat ∈ [8, 9, 10] → i = .decodePayload) ∧
    (t.errCode.toNat = 11 → i = .emit) ∧ (t.errCode.toNat = 12 → i = .emit ∨ i = .decodePayload)

/-- R40, R52, R90, R97. The frame of every command, success or error: what no command writes, and what only
some write. IN is read alone; OUT is written by the four commands that write it, and nothing at or above
OUT_CAP by any. -/
def Obligations.CommandFrames : Prop :=
  ∀ (i : Instr) (s t : State), exec i s = .next t →
    SameOutside s t ∧ (∀ k, inByte t k = inByte s k) ∧ (∀ k, s.cfg.outCap ≤ k → outByte t k = outByte s k) ∧
    (i ∉ [.emit, .decodePayload, .compress, .decompress] → ∀ k, outByte t k = outByte s k) ∧
    (i ∉ [.freqCount, .clear, .compress] → ∀ b, freqAt t.freq b = freqAt s.freq b) ∧
    (i ∉ [.treeBuild, .treeLoad, .clear, .compress, .decompress] →
      t.node = s.node ∧ t.root = s.root ∧ t.nodeCount = s.nodeCount ∧ t.leafCount = s.leafCount ∧
      t.treeValid = s.treeValid ∧ (i ≠ .emit → t.treeBits = s.treeBits)) ∧
    (i ∉ [.treeBuild, .codeGen, .treeLoad, .clear, .compress, .decompress] →
      t.code = s.code ∧ t.codesValid = s.codesValid) ∧
    (i ∉ [.treeLoad, .decodePayload, .clear, .decompress] → t.bitpos = s.bitpos) ∧
    (i ∉ [.emit, .treeLoad, .decodePayload, .clear, .compress, .decompress] → t.outLen = s.outLen) ∧
    (i ∉ [.emit, .decodePayload, .clear, .compress, .decompress] →
      t.padCount = s.padCount ∧ t.payloadBits = s.payloadBits)

/-- R40, R341, R344. Each of the six commands that read IN raises BAD_LENGTH with IN_LEN where IN_LEN > IN_CAP,
and changes nothing else. -/
def Obligations.InputTooLongRaises : Prop :=
  ∀ (i : Instr) (s : State), i ∈ [.freqCount, .emit, .treeLoad, .decodePayload, .compress, .decompress] →
    s.cfg.inCap < s.inLen.toNat → exec i s = .next (raisedWith 2 s.inLen s)

/-! ## NOP and CLEAR (spec/46_control.md) -/

/-- R310. NOP sets DONE and ends the command; nothing else changes. Issued from any state it also leaves the
error report cleared, by the issue. -/
def Obligations.NopCompletes : Prop :=
  ∀ s : State,
    exec .nop s = .next { s with done := true, busy := false, pending := none } ∧
    exec .nop (issue 0 s) = .next
      { s with cmdw := 0, done := true, error := false, errCode := 0, errPos := 0, busy := false, pending := none }

/-- R311. CLEAR: every effect, and that IN, IN_LEN, OUT and CTRL stay. -/
def Obligations.ClearCompletes : Prop :=
  ∀ s : State, ∃ t, exec .clear s = .next t ∧
    t = { s with node := t.node, root := 0, nodeCount := 0, leafCount := 0, treeBits := 0, treeValid := false,
                 code := t.code, codesValid := false, freq := t.freq, outLen := 0, bitpos := 0, padCount := 0,
                 payloadBits := 0, done := true, busy := false, pending := none } ∧
    (∀ i, nodeAt t.node i = { kind := false, sym := 0, nfreq := 0, left := 0, right := 0 }) ∧
    (∀ b, codeAt t.code b = { len := 0, bits := [] }) ∧ (∀ b, freqAt t.freq b = 0) ∧
    (∀ k, inByte t k = inByte s k) ∧ ∀ k, outByte t k = outByte s k

/-! ## FREQ_COUNT (spec/40_frequency.md) -/

/-- R160, R161, R162. FREQ_COUNT: the exact counts, their sum, the distinct symbols, and the frame. -/
def Obligations.FreqCountCompletes : Prop :=
  ∀ s : State, s.inLen.toNat ≤ s.cfg.inCap →
    ∃ f : FreqTable, exec .freqCount s = .next { s with freq := f, done := true, busy := false, pending := none } ∧
      (∀ b, (freqAt f b).toNat = (List.range s.inLen.toNat).countP fun k => inByte s k == b) ∧
      ((List.range 256).map fun x => (freqAt f (BitVec.ofNat 8 x)).toNat).sum = s.inLen.toNat ∧
      ∀ b, freqAt f b ≠ 0 ↔ ∃ k, k < s.inLen.toNat ∧ inByte s k = b

/-! ## TREE_BUILD (spec/41_tree_builder.md) -/

/-- R185. With every FREQ entry 0, TREE_BUILD raises EMPTY_INPUT with position 0 and changes nothing else. -/
def Obligations.TreeBuildEmptyRaises : Prop :=
  ∀ s : State, (∀ b, freqAt s.freq b = 0) → exec .treeBuild s = .next (raisedWith 3 0 s)

/-- R187, R188. Otherwise TREE_BUILD completes: the registers, a tree of R49 with the present symbols as its
distinct leaves, every merged node at least as frequent as its children, and the frame. -/
def Obligations.TreeBuildCompletes : Prop :=
  ∀ s : State, (∃ b, freqAt s.freq b ≠ 0) →
    ∃ t tr, exec .treeBuild s = .next t ∧
      t = { s with node := t.node, root := t.root, nodeCount := t.nodeCount, leafCount := t.leafCount,
                   treeBits := t.treeBits, treeValid := true, code := codeZero, codesValid := false, done := true,
                   busy := false, pending := none } ∧
      t.root.toNat = 2 * (presentSymbols s.freq).length - 2 ∧
      t.nodeCount.toNat = 2 * (presentSymbols s.freq).length - 1 ∧
      t.leafCount.toNat = (presentSymbols s.freq).length ∧
      t.treeBits.toNat = 10 * (presentSymbols s.freq).length - 1 ∧
      TreeHolds t tr ∧ tr.symbols.Nodup ∧ (∀ b, b ∈ tr.symbols ↔ freqAt s.freq b ≠ 0) ∧
      ∀ i d, i < t.nodeCount.toNat → (nodeAt t.node i).kind = false →
        (nodeAt t.node (childOf t.node i d)).nfreq.toNat ≤ (nodeAt t.node i).nfreq.toNat

/-- R183. The arena of TREE_BUILD: leaf i is the i-th smallest symbol present, merge k is NODE[n + k], the rest
is zero. -/
def Obligations.TreeBuildArena : Prop :=
  ∀ s t : State, (∃ b, freqAt s.freq b ≠ 0) → exec .treeBuild s = .next t →
    (presentSymbols s.freq).Pairwise (fun a b => a.toNat < b.toNat) ∧
    (∀ b, b ∈ presentSymbols s.freq ↔ freqAt s.freq b ≠ 0) ∧
    (∀ i (h : i < (presentSymbols s.freq).length),
      nodeAt t.node i =
        { kind := true, sym := (presentSymbols s.freq)[i], nfreq := (freqAt s.freq (presentSymbols s.freq)[i]).setWidth 40,
          left := 0, right := 0 }) ∧
    (∀ k, k + 1 < (presentSymbols s.freq).length →
      (nodeAt t.node ((presentSymbols s.freq).length + k)).kind = false ∧
      (nodeAt t.node ((presentSymbols s.freq).length + k)).sym = 0) ∧
    ∀ i, 2 * (presentSymbols s.freq).length - 1 ≤ i → nodeAt t.node i = Node.zero

/-- R181, R182. Merge k takes the two nodes with the smallest keys (NFREQ, index) of those not merged before,
LEFT the first and RIGHT the second, with the sum of their frequencies; after n - 1 merges the root alone is
left. -/
def Obligations.TreeBuildMergesSmallestKeys : Prop :=
  ∀ (s t : State) (n : Nat), n = (presentSymbols s.freq).length → 1 ≤ n → exec .treeBuild s = .next t →
    (∀ k x y, k + 1 < n → x = (nodeAt t.node (n + k)).left.toNat → y = (nodeAt t.node (n + k)).right.toNat →
      inQueue t.node n k x ∧ inQueue t.node n k y ∧ keyBefore t.node x y ∧
      (∀ z, inQueue t.node n k z → z ≠ x → z ≠ y → keyBefore t.node y z) ∧
      (nodeAt t.node (n + k)).nfreq.toNat = (nodeAt t.node x).nfreq.toNat + (nodeAt t.node y).nfreq.toNat) ∧
    ∀ i, inQueue t.node n (n - 1) i ↔ i = t.root.toNat

/-- R186. Frequencies are exact: a leaf's is its FREQ, a node's is the sum over the leaves below it, the root's
is the sum of FREQ, which after FREQ_COUNT is IN_LEN. -/
def Obligations.TreeBuildFrequenciesExact : Prop :=
  ∀ s t : State, (∃ b, freqAt s.freq b ≠ 0) → exec .treeBuild s = .next t →
    (∀ i, i < t.nodeCount.toNat → ∃ u, readTree t.node maxLevels i = some u ∧
      (nodeAt t.node i).nfreq.toNat = (u.symbols.map fun b => (freqAt s.freq b).toNat).sum) ∧
    (nodeAt t.node t.root.toNat).nfreq.toNat =
      ((List.range 256).map fun x => (freqAt s.freq (BitVec.ofNat 8 x)).toNat).sum ∧
    ∀ u : State, u.inLen.toNat ≤ u.cfg.inCap → exec .freqCount u = .next s →
      (nodeAt t.node t.root.toNat).nfreq.toNat = u.inLen.toNat

/-- R184, R202. One distinct symbol: the single leaf at index 0, and then the one-bit code `0`. -/
def Obligations.SingleSymbolGetsOneBit : Prop :=
  ∀ (s : State) (b : Byte), (∀ a, freqAt s.freq a ≠ 0 ↔ a = b) →
    ∃ t u, exec .treeBuild s = .next t ∧ exec .codeGen t = .next u ∧
      nodeAt t.node 0 = { kind := true, sym := b, nfreq := (freqAt s.freq b).setWidth 40, left := 0, right := 0 } ∧
      t.root = 0 ∧ t.nodeCount = 1 ∧ t.leafCount = 1 ∧ t.treeBits = 9 ∧
      codeAt u.code b = { len := 1, bits := [false] } ∧ ∀ a, a ≠ b → codeAt u.code a = { len := 0, bits := [] }

/-! ## CODE_GEN (spec/42_code_table.md) -/

/-- R200 to R204. CODE_GEN completes on a tree: the code of a symbol is the path of its last leaf in walk order,
`0` for a root leaf, none where it has no leaf; it fits LEN; and the frame. Without a tree it raises NO_TREE. -/
def Obligations.CodeGenCompletes : Prop :=
  ∀ s : State,
    (s.treeValid = false → exec .codeGen s = .next (raisedWith 4 0 s)) ∧
    ∀ tr : Machine.Tree, s.treeValid = true → currentTree s = some tr →
      ∃ c : CodeTable,
        exec .codeGen s = .next { s with code := c, codesValid := true, done := true, busy := false, pending := none } ∧
        ∀ b, match tr.lastPath b with
          | none => codeAt c b = { len := 0, bits := [] }
          | some [] => codeAt c b = { len := 1, bits := [false] }
          | some (d :: ds) => (codeAt c b).bits = d :: ds ∧ (codeAt c b).len.toNat = (d :: ds).length

/-- R206. After CODE_GEN on a tree from TREE_BUILD the coded symbols are exactly those with FREQ ≠ 0 then. -/
def Obligations.BuiltCodesComplete : Prop :=
  ∀ s : State, (∃ b, freqAt s.freq b ≠ 0) →
    ∃ t u, exec .treeBuild s = .next t ∧ exec .codeGen t = .next u ∧
      ∀ b, 0 < (codeAt u.code b).len.toNat ↔ freqAt s.freq b ≠ 0

/-! ## EMIT (spec/44_bitpacker.md) -/

/-- R253, R255. EMIT completes where the checks of R254 pass: OUT[0..m) is the packed stream T ++ bin8(c) ++
zeros(c) ++ P, the registers, the byte-alignment identity, and the frame. -/
def Obligations.EmitCompletes : Prop :=
  ∀ (s : State) (tr : Machine.Tree) (T P S : Bits) (c : Nat), s.inLen.toNat ≤ s.cfg.inCap → s.treeValid = true →
    s.codesValid = true → currentTree s = some tr → (∀ b ∈ inBytes s, (codeAt s.code b).len ≠ 0) →
    T = serialize tr → P = payloadOf s → c = (8 - (T.length + P.length) % 8) % 8 →
    S = T ++ bin8 (BitVec.ofNat 8 c) ++ zeros c ++ P → S.length / 8 ≤ s.cfg.outCap →
    ∃ t, exec .emit s = .next t ∧
      t = { s with outBuf := t.outBuf, outLen := t.outLen, treeBits := t.treeBits, padCount := t.padCount,
                   payloadBits := t.payloadBits, done := true, busy := false, pending := none } ∧
      (∀ k b, k < S.length / 8 → b < 8 → (outByte t k).getLsbD (7 - b) = S.getD (8 * k + b) false) ∧
      (∀ k, S.length / 8 ≤ k → outByte t k = outByte s k) ∧
      t.outLen.toNat = S.length / 8 ∧ t.treeBits.toNat = T.length ∧ t.padCount.toNat = c ∧
      t.payloadBits.toNat = P.length ∧
      8 * t.outLen.toNat = t.treeBits.toNat + 8 + t.padCount.toNat + t.payloadBits.toNat

/-- R254, with R347 and R348. EMIT reports the first of its five errors that applies, with its position and its
effects. -/
def Obligations.EmitCheckOrder : Prop :=
  ∀ s : State,
    (s.cfg.inCap < s.inLen.toNat → exec .emit s = .next (raisedWith 2 s.inLen s)) ∧
    (s.inLen.toNat ≤ s.cfg.inCap → s.treeValid = false → exec .emit s = .next (raisedWith 4 0 s)) ∧
    (s.inLen.toNat ≤ s.cfg.inCap → s.treeValid = true → s.codesValid = false →
      exec .emit s = .next (raisedWith 5 0 s)) ∧
    ∀ tr, s.inLen.toNat ≤ s.cfg.inCap → s.treeValid = true → s.codesValid = true → currentTree s = some tr →
      (∀ k, k < s.inLen.toNat → (codeAt s.code (inByte s k)).len = 0 →
        (∀ j, j < k → (codeAt s.code (inByte s j)).len ≠ 0) →
        exec .emit s = .next
          (raisedWith 11 (BitVec.ofNat 32 k) { s with outLen := 0, padCount := 0, payloadBits := 0 })) ∧
      ((∀ k, k < s.inLen.toNat → (codeAt s.code (inByte s k)).len ≠ 0) →
        s.cfg.outCap < streamBytes (serialize tr).length (payloadOf s).length →
        exec .emit s = .next
          (raisedWith 12 (BitVec.ofNat 32 s.cfg.outCap) { s with outLen := 0, padCount := 0, payloadBits := 0 }))

/-! ## TREE_LOAD (spec/43_tree_codec.md) -/

/-- R224, R227, R228, R229. TREE_LOAD of a stream that begins with the serialization of a tree of at most 511
nodes completes: it rebuilds the tree in preorder with NFREQ 0, leaves BITPOS after it, and serializing the
result gives the digits consumed; and the frame. -/
def Obligations.TreeLoadCompletes : Prop :=
  ∀ (s : State) (tr : Machine.Tree) (rest : Bits), s.inLen.toNat ≤ s.cfg.inCap → inStream s = serialize tr ++ rest →
    tr.size ≤ 511 →
    ∃ t u, exec .treeLoad s = .next t ∧
      t = { s with node := t.node, root := 0, nodeCount := t.nodeCount, leafCount := t.leafCount,
                   treeBits := t.treeBits, bitpos := t.bitpos, treeValid := true, code := codeZero,
                   codesValid := false, done := true, busy := false, pending := none } ∧
      TreeHolds t u ∧ tr.alike u = true ∧ u.symbols = tr.symbols ∧ u.indices = List.range tr.size ∧
      serialize u = serialize tr ∧ t.bitpos.toNat = (serialize tr).length ∧
      t.treeBits.toNat = (serialize tr).length ∧ t.nodeCount.toNat = tr.size ∧ t.leafCount.toNat = tr.leaves ∧
      ∀ i, (nodeAt t.node i).nfreq = 0

/-- R222, R229. TREE_LOAD sets TREE_VALID only for a tree that the front of IN spells. -/
def Obligations.LoadedTreeWasSpelled : Prop :=
  ∀ s t : State, s.inLen.toNat ≤ s.cfg.inCap → exec .treeLoad s = .next t → t.treeValid = true →
    ∃ u rest, TreeHolds t u ∧ inStream s = serialize u ++ rest ∧ t.bitpos.toNat = (serialize u).length

/-- R225, R349. A stream that ends inside a tree whose tags read so far are at most 511 raises CORRUPT_TREE at
8 × IN_LEN, clears the tree and the codes, and zeroes OUT_LEN. -/
def Obligations.TreeLoadTruncatedRaises : Prop :=
  ∀ (s : State) (tr : Machine.Tree) (missing : Bits), s.inLen.toNat ≤ s.cfg.inCap → missing ≠ [] →
    inStream s ++ missing = serialize tr →
    (tr.tags.filter fun p => decide (p < 8 * s.inLen.toNat)).length ≤ 511 →
    exec .treeLoad s = .next (raisedWith 6 (BitVec.ofNat 32 (8 * s.inLen.toNat))
      { s with node := arenaZero, root := 0, nodeCount := 0, leafCount := 0, treeBits := 0, treeValid := false,
               code := codeZero, codesValid := false, outLen := 0 })

/-- R226, R349. A stream in which the tag of a 512th node is read raises TREE_TOO_LARGE at that tag, with the
same effects. -/
def Obligations.TreeLoadTooLargeRaises : Prop :=
  ∀ (s : State) (tr : Machine.Tree) (x y : Bits) (p : Nat), s.inLen.toNat ≤ s.cfg.inCap →
    inStream s ++ x = serialize tr ++ y → tr.tags[511]? = some p → p < 8 * s.inLen.toNat →
    exec .treeLoad s = .next (raisedWith 7 (BitVec.ofNat 32 p)
      { s with node := arenaZero, root := 0, nodeCount := 0, leafCount := 0, treeBits := 0, treeValid := false,
               code := codeZero, codesValid := false, outLen := 0 })

/-! ## DECODE_PAYLOAD (spec/45_decoder.md) -/

/-- R280 to R284, R287. DECODE_PAYLOAD of a pad field, its zero pad bits and a sequence of code words of the
current tree completes: OUT[0..n) are their symbols; the registers; and the frame. -/
def Obligations.DecodePayloadCompletes : Prop :=
  ∀ (s : State) (tr : Machine.Tree) (c : Nat) (ps : List (Byte × Bits)), s.inLen.toNat ≤ s.cfg.inCap →
    s.treeValid = true → currentTree s = some tr → s.bitpos.toNat ≤ 8 * s.inLen.toNat → c ≤ 7 →
    (inStream s).drop s.bitpos.toNat = bin8 (BitVec.ofNat 8 c) ++ zeros c ++ wordsOf ps →
    (∀ q ∈ ps, tr.follow q.2 = some q.1) → ps.length ≤ s.cfg.outCap →
    ∃ t, exec .decodePayload s = .next t ∧
      t = { s with outBuf := t.outBuf, outLen := BitVec.ofNat 32 ps.length, padCount := BitVec.ofNat 3 c,
                   payloadBits := BitVec.ofNat 32 (wordsOf ps).length,
                   bitpos := BitVec.ofNat 32 (8 * s.inLen.toNat), done := true, busy := false, pending := none } ∧
      OutHolds s t (ps.map fun q => q.1)

/-- R43, R281, R282, with R347 and R350. The errors before the walk, in order: no tree, BITPOS beyond the stream, no
whole pad field, a pad field above 7, too few pad bits, a pad bit of 1. OUT is unchanged. -/
def Obligations.DecodeChecksRaise : Prop :=
  ∀ (s : State) (L p c : Nat) (bad : Nat → State), s.inLen.toNat ≤ s.cfg.inCap →
    L = 8 * s.inLen.toNat → p = s.bitpos.toNat → c = val (((inStream s).drop p).take 8) →
    (bad = fun pos =>
      raisedWith 8 (BitVec.ofNat 32 pos) { s with outLen := 0, padCount := 0, payloadBits := 0 }) →
    (s.treeValid = false → exec .decodePayload s = .next (raisedWith 4 0 s)) ∧
    (s.treeValid = true →
      (L < p → exec .decodePayload s = .next (raisedWith 2 s.bitpos s)) ∧
      (p ≤ L → L < p + 8 → exec .decodePayload s = .next (bad p)) ∧
      (p + 8 ≤ L → 7 < c → exec .decodePayload s = .next (bad p)) ∧
      (p + 8 ≤ L → c ≤ 7 → L < p + 8 + c → exec .decodePayload s = .next (bad (p + 8))) ∧
      ∀ j, c ≤ 7 → p + 8 + c ≤ L → j < c → bitof s (p + 8 + j) = true →
        (∀ i, i < j → bitof s (p + 8 + i) = false) → exec .decodePayload s = .next (bad (p + 8 + j)))

/-- R284, R350. With a single-leaf tree, a payload bit 1 after n bits 0 raises INVALID_BRANCH there, with the n
symbols in OUT. -/
def Obligations.DecodeInvalidBranchRaises : Prop :=
  ∀ (s : State) (c n : Nat) (rest : Bits), s.inLen.toNat ≤ s.cfg.inCap → s.treeValid = true →
    s.bitpos.toNat ≤ 8 * s.inLen.toNat → c ≤ 7 → (nodeAt s.node s.root.toNat).kind = true → n ≤ s.cfg.outCap →
    (inStream s).drop s.bitpos.toNat = bin8 (BitVec.ofNat 8 c) ++ zeros c ++ (zeros n ++ true :: rest) →
    ∃ t, exec .decodePayload s = .next t ∧
      t = raisedWith 9 (BitVec.ofNat 32 (s.bitpos.toNat + 8 + c + n))
        { s with outBuf := t.outBuf, outLen := 0, padCount := 0, payloadBits := 0 } ∧
      OutHolds s t (List.replicate n (nodeAt s.node s.root.toNat).sym)

/-- R285, R350. A code word after OUT_CAP symbols raises OUT_OVERFLOW at its last bit, with the OUT_CAP symbols in
OUT. -/
def Obligations.DecodeOverflowRaises : Prop :=
  ∀ (s : State) (tr : Machine.Tree) (c : Nat) (ps : List (Byte × Bits)) (q : Byte × Bits) (rest : Bits),
    s.inLen.toNat ≤ s.cfg.inCap → s.treeValid = true → currentTree s = some tr →
    s.bitpos.toNat ≤ 8 * s.inLen.toNat → c ≤ 7 →
    (inStream s).drop s.bitpos.toNat = bin8 (BitVec.ofNat 8 c) ++ zeros c ++ (wordsOf ps ++ (wordsOf [q] ++ rest)) →
    (∀ x ∈ ps ++ [q], tr.follow x.2 = some x.1) → ps.length = s.cfg.outCap →
    ∃ t, exec .decodePayload s = .next t ∧
      t = raisedWith 12 (BitVec.ofNat 32 (s.bitpos.toNat + 8 + c + (wordsOf ps).length + (wordsOf [q]).length - 1))
        { s with outBuf := t.outBuf, outLen := 0, padCount := 0, payloadBits := 0 } ∧
      OutHolds s t (ps.map fun x => x.1)

/-- R286, R350. A payload that ends inside a code word raises TRUNCATED_PAYLOAD at 8 × IN_LEN, with the symbols
before it in OUT. -/
def Obligations.DecodeTruncatedRaises : Prop :=
  ∀ (s : State) (tr : Machine.Tree) (c : Nat) (ps : List (Byte × Bits)) (d e : Bits) (b : Byte),
    s.inLen.toNat ≤ s.cfg.inCap → s.treeValid = true → TreeHolds s tr →
    s.bitpos.toNat ≤ 8 * s.inLen.toNat → c ≤ 7 →
    (inStream s).drop s.bitpos.toNat = bin8 (BitVec.ofNat 8 c) ++ zeros c ++ (wordsOf ps ++ d) →
    (∀ x ∈ ps, tr.follow x.2 = some x.1) → ps.length ≤ s.cfg.outCap →
    d ≠ [] → e ≠ [] → tr.follow (d ++ e) = some b →
    ∃ t, exec .decodePayload s = .next t ∧
      t = raisedWith 10 (BitVec.ofNat 32 (8 * s.inLen.toNat))
        { s with outBuf := t.outBuf, outLen := 0, padCount := 0, payloadBits := 0 } ∧
      OutHolds s t (ps.map fun x => x.1)

/-! ## COMPRESS and DECOMPRESS (spec/46_control.md) -/

/-- R312, R313, R351. COMPRESS is FREQ_COUNT, TREE_BUILD, CODE_GEN, EMIT, and DECOMPRESS is TREE_LOAD,
DECODE_PAYLOAD, each on the state the last one left (but for DONE, which only the end sets); the first raise ends
it, with that stage's effects. -/
def Obligations.CompositesAreTheirStages : Prop :=
  ∀ s : State,
    (s.cfg.inCap < s.inLen.toNat → exec .compress s = exec .freqCount s ∧ exec .decompress s = exec .treeLoad s) ∧
    (s.inLen.toNat ≤ s.cfg.inCap →
      (∃ t, exec .freqCount s = .next t ∧
        (s.inLen = 0 → exec .compress s = exec .treeBuild { t with done := s.done } ∧
          ∃ f : FreqTable, (∀ b, freqAt f b = 0) ∧ exec .compress s = .next (raisedWith 3 0 { s with freq := f })) ∧
        (s.inLen ≠ 0 → ∃ u v, exec .treeBuild t = .next u ∧ exec .codeGen u = .next v ∧
          exec .compress s = exec .emit { v with done := s.done })) ∧
      ∃ t, exec .treeLoad s = .next t ∧
        (t.treeValid = true → exec .decompress s = exec .decodePayload { t with done := s.done }) ∧
        (t.treeValid = false → exec .decompress s = .next t))

/-- R312 with R256(b). COMPRESS of a non-empty input succeeds exactly where its m bytes of output fit OUT, and
raises OUT_OVERFLOW otherwise; m never exceeds 322 + 32 × IN_LEN (codes have at most 255 digits, R204, trees at
most 2559, R137), so an OUT of that size always suffices. -/
def Obligations.CompressCompletes : Prop :=
  ∀ s : State, s.inLen ≠ 0 → s.inLen.toNat ≤ s.cfg.inCap →
    ∃ t tr m, exec .compress s = .next t ∧
      t = { s with freq := t.freq, node := t.node, root := t.root, nodeCount := t.nodeCount, leafCount := t.leafCount,
                   treeBits := t.treeBits, treeValid := true, code := t.code, codesValid := true, outBuf := t.outBuf,
                   outLen := t.outLen, padCount := t.padCount, payloadBits := t.payloadBits, done := t.done,
                   error := t.error, errCode := t.errCode, errPos := t.errPos, busy := false, pending := none } ∧
      TreeHolds t tr ∧ t.code = walkCodes tr [] codeZero ∧ tr.symbols.Nodup ∧ (∀ b, b ∈ tr.symbols ↔ b ∈ inBytes s) ∧
      (∀ b, (freqAt t.freq b).toNat = (inBytes s).count b) ∧ t.treeBits.toNat = (serialize tr).length ∧
      m = streamBytes (serialize tr).length (payloadOf t).length ∧ m ≤ 322 + 32 * s.inLen.toNat ∧
      (m ≤ s.cfg.outCap →
        t.done = true ∧ t.error = s.error ∧ t.errCode = s.errCode ∧ t.errPos = s.errPos ∧ t.outLen.toNat = m ∧
        t.padCount.toNat = pad (serialize tr).length (payloadOf t).length ∧
        t.payloadBits.toNat = (payloadOf t).length ∧
        OutHolds s t (pack (streamOf (serialize tr) (payloadOf t)))) ∧
      (s.cfg.outCap < m →
        t.done = s.done ∧ t.error = true ∧ t.errCode = 12 ∧ t.errPos.toNat = s.cfg.outCap ∧ t.outLen = 0 ∧
        t.padCount = 0 ∧ t.payloadBits = 0 ∧ ∀ k, outByte t k = outByte s k)

/-- R313, with R229 and R287. DECOMPRESS of a tree, its padding and a sequence of code words completes: the tree is
loaded and the symbols are in OUT. -/
def Obligations.DecompressCompletes : Prop :=
  ∀ (s : State) (tr : Machine.Tree) (c : Nat) (ps : List (Byte × Bits)), s.inLen.toNat ≤ s.cfg.inCap → tr.size ≤ 511 → c ≤ 7 →
    inStream s = serialize tr ++ (bin8 (BitVec.ofNat 8 c) ++ zeros c ++ wordsOf ps) →
    (∀ q ∈ ps, tr.follow q.2 = some q.1) → ps.length ≤ s.cfg.outCap →
    ∃ t u, exec .decompress s = .next t ∧
      t = { s with node := t.node, root := 0, nodeCount := t.nodeCount, leafCount := t.leafCount,
                   treeBits := BitVec.ofNat 32 (serialize tr).length, treeValid := true, code := codeZero,
                   codesValid := false, outBuf := t.outBuf, outLen := BitVec.ofNat 32 ps.length,
                   padCount := BitVec.ofNat 3 c, payloadBits := BitVec.ofNat 32 (wordsOf ps).length,
                   bitpos := BitVec.ofNat 32 (8 * s.inLen.toNat), done := true, busy := false, pending := none } ∧
      TreeHolds t u ∧ tr.alike u = true ∧ OutHolds s t (ps.map fun q => q.1)

/-- R315. The round-trip law: where COMPRESS succeeds on IN = X with output Y, DECOMPRESS of IN = Y on any block
with room for X succeeds with output X, whatever else that block held. -/
def Obligations.RoundTrip : Prop :=
  ∀ s t s' : State, s.inLen ≠ 0 → s.inLen.toNat ≤ s.cfg.inCap → exec .compress s = .next t → t.error = false →
    inBytes s' = outBytes t → s'.inLen.toNat ≤ s'.cfg.inCap → s.inLen.toNat ≤ s'.cfg.outCap →
    ∃ u, exec .decompress s' = .next u ∧ u.done = true ∧ u.error = s'.error ∧ u.errCode = s'.errCode ∧
      outBytes u = inBytes s

/-- R316. What COMPRESS leaves depends on IN[0..IN_LEN) and the instance alone: two blocks with the same input, and
anything else in their state, end alike. -/
def Obligations.CompressDependsOnInputOnly : Prop :=
  ∀ s s' t t' : State, s'.cfg = s.cfg → inBytes s' = inBytes s → s.inLen ≠ 0 → s.inLen.toNat ≤ s.cfg.inCap →
    exec .compress s = .next t → exec .compress s' = .next t' →
    t'.freq = t.freq ∧ t'.node = t.node ∧ t'.root = t.root ∧ t'.nodeCount = t.nodeCount ∧
    t'.leafCount = t.leafCount ∧ t'.treeBits = t.treeBits ∧ t'.treeValid = t.treeValid ∧ t'.code = t.code ∧
    t'.codesValid = t.codesValid ∧ t'.outLen = t.outLen ∧ t'.padCount = t.padCount ∧
    t'.payloadBits = t.payloadBits ∧ outBytes t' = outBytes t ∧
    (s.error = false → s'.error = false → t'.error = t.error) ∧
    (t.error = true → s.error = false → s'.error = false → t'.errCode = t.errCode ∧ t'.errPos = t.errPos)

/-! ## The error codes by command (spec/60_exceptions.md) -/

/-- R341, columns "cause" and "raised by", of every command, the composites among them: no error has a code
outside 2 to 12 (1 is ILLEGAL_CMD, of a word that is no command), each code has only the raisers its row names,
and a precondition error has its cause. -/
def Obligations.ErrorRaisers : Prop :=
  ∀ (i : Instr) (s t : State), s.error = false → exec i s = .next t → t.error = true →
    (2 ≤ t.errCode.toNat ∧ t.errCode.toNat ≤ 12) ∧
    (t.errCode = 2 → i ∈ [.freqCount, .emit, .treeLoad, .decodePayload, .compress, .decompress] ∧
      (s.cfg.inCap < s.inLen.toNat ∨ i = .decodePayload ∧ 8 * s.inLen.toNat < s.bitpos.toNat)) ∧
    (t.errCode = 3 → i = .treeBuild ∧ (∀ b, freqAt s.freq b = 0) ∨ i = .compress ∧ s.inLen = 0) ∧
    (t.errCode = 4 → i ∈ [.codeGen, .emit, .decodePayload] ∧ s.treeValid = false) ∧
    (t.errCode = 5 → i = .emit ∧ s.codesValid = false) ∧
    (t.errCode = 6 ∨ t.errCode = 7 → i ∈ [.treeLoad, .decompress]) ∧
    (t.errCode = 8 ∨ t.errCode = 9 ∨ t.errCode = 10 → i ∈ [.decodePayload, .decompress]) ∧
    (t.errCode = 11 → i = .emit) ∧
    (t.errCode = 12 → i ∈ [.emit, .decodePayload, .compress, .decompress])
end

