-- ==== Sys2Proof/Laws/Bits.lean ====
section
/-! SUPPORT. Bit sequences: bytes and digits, packing and unpacking, the pad count. -/

namespace Sys2Proof.Machine

@[simp] theorem length_bin8 (v : Byte) : (bin8 v).length = 8 := rfl

@[simp] theorem length_zeros (k : Nat) : (zeros k).length = k := by simp [zeros]

/-- A byte is the byte its digits spell (R131). -/
theorem byteOf_bin8 (v : Byte) : byteOf (bin8 v) = v := by
  revert v; decide +kernel

/-- A byte's digits spell its number (R13). -/
theorem val_bin8 (v : Byte) : val (bin8 v) = v.toNat := by
  revert v; decide +kernel

/-- Eight digits are the digits of the byte they spell (R13). -/
theorem bin8_byteOf (b7 b6 b5 b4 b3 b2 b1 b0 : Bool) :
    bin8 (byteOf [b7, b6, b5, b4, b3, b2, b1, b0]) = [b7, b6, b5, b4, b3, b2, b1, b0] := by
  revert b7 b6 b5 b4 b3 b2 b1 b0; decide +kernel

theorem unpack_nil : unpack [] = [] := rfl

theorem unpack_cons (b : Byte) (bs : List Byte) : unpack (b :: bs) = bin8 b ++ unpack bs := rfl

@[simp] theorem length_unpack (bs : List Byte) : (unpack bs).length = 8 * bs.length := by
  induction bs with
  | nil => rfl
  | cons b bs ih => simp only [unpack_cons, List.length_append, length_bin8, ih, List.length_cons]; omega

theorem pack_bin8_append (b : Byte) (rest : Bits) : pack (bin8 b ++ rest) = b :: pack rest := by
  have h := byteOf_bin8 b
  simp only [bin8] at h ⊢
  simp only [List.cons_append, List.nil_append, pack, h]

/-- Packing what a byte sequence unpacks to gives it back (R252, R260). -/
theorem pack_unpack (bs : List Byte) : pack (unpack bs) = bs := by
  induction bs with
  | nil => rfl
  | cons b bs ih => rw [unpack_cons, pack_bin8_append, ih]

theorem exists_eight {s : Bits} (h : 8 ≤ s.length) :
    ∃ b7 b6 b5 b4 b3 b2 b1 b0 rest, s = b7 :: b6 :: b5 :: b4 :: b3 :: b2 :: b1 :: b0 :: rest := by
  match s, h with
  | b7 :: b6 :: b5 :: b4 :: b3 :: b2 :: b1 :: b0 :: rest, _ => exact ⟨b7, b6, b5, b4, b3, b2, b1, b0, rest, rfl⟩

theorem length_pack (s : Bits) : (pack s).length = s.length / 8 := by
  induction s using pack.induct with
  | case1 b7 b6 b5 b4 b3 b2 b1 b0 rest ih => simp only [pack, List.length_cons, ih]; omega
  | case2 s h =>
    have hlt : s.length < 8 := by
      by_contra hc
      obtain ⟨b7, b6, b5, b4, b3, b2, b1, b0, rest, rfl⟩ := exists_eight (Nat.le_of_not_lt hc)
      exact h _ _ _ _ _ _ _ _ _ rfl
    rw [pack]
    · simp; omega
    · exact h

/-- Unpacking what a whole number of bytes packs to gives it back (R134, R260). -/
theorem unpack_pack (s : Bits) (h : s.length % 8 = 0) : unpack (pack s) = s := by
  induction s using pack.induct with
  | case1 b7 b6 b5 b4 b3 b2 b1 b0 rest ih =>
    simp only [List.length_cons] at h
    rw [pack, unpack_cons, bin8_byteOf, ih (by omega)]
    rfl
  | case2 s hs =>
    cases s with
    | nil => rfl
    | cons a t =>
      exfalso
      obtain ⟨b7, b6, b5, b4, b3, b2, b1, b0, rest, e⟩ := exists_eight (s := a :: t) (by
        simp only [List.length_cons] at h ⊢; omega)
      exact hs _ _ _ _ _ _ _ _ _ e

/-- The pad count is in 0..7 (R132). -/
theorem pad_le (t p : Nat) : pad t p ≤ 7 := by unfold pad; omega

/-- The padded stream is a whole number of bytes (R251). -/
theorem pad_aligns (t p : Nat) : (t + 8 + pad t p + p) % 8 = 0 := by unfold pad; omega

/-- Splitting off the front of an append of the right length. -/
theorem splitBits_append (front rest : Bits) : splitBits front.length (front ++ rest) = some (front, rest) := by
  induction front with
  | nil => rfl
  | cons b front ih => simp [splitBits, ih]

/-- Where enough digits remain, the split is take and drop. -/
theorem splitBits_of_le {k : Nat} {bs : Bits} (h : k ≤ bs.length) : splitBits k bs = some (bs.take k, bs.drop k) := by
  have := splitBits_append (bs.take k) (bs.drop k)
  rwa [List.length_take, Nat.min_eq_left h, List.take_append_drop] at this

/-- Where too few remain, there is no split. -/
theorem splitBits_of_gt {k : Nat} {bs : Bits} (h : bs.length < k) : splitBits k bs = none := by
  induction k generalizing bs with
  | zero => simp at h
  | succ k ih =>
    cases bs with
    | nil => rfl
    | cons b bs => simp only [List.length_cons] at h; simp [splitBits, ih (show bs.length < k by omega)]

theorem splitBits_cases (k : Nat) (bs : Bits) :
    (bs.length < k ∧ splitBits k bs = none) ∨ (k ≤ bs.length ∧ splitBits k bs = some (bs.take k, bs.drop k)) := by
  rcases Nat.lt_or_ge bs.length k with h | h
  · exact .inl ⟨h, splitBits_of_gt h⟩
  · exact .inr ⟨h, splitBits_of_le h⟩

/-- Digit 8j + b of a sequence is bit 7 - b of byte j of its packing (R252). -/
theorem getD_pack (S : Bits) (m : Nat) (h : S.length = 8 * m) : ∀ j b, j < m → b < 8 →
    ((pack S).getD j 0).getLsbD (7 - b) = S.getD (8 * j + b) false := by
  induction m generalizing S with
  | zero => intro j b hj; omega
  | succ m ih =>
    obtain ⟨b7, b6, b5, b4, b3, b2, b1, b0, rest, rfl⟩ := exists_eight (s := S) (by omega)
    intro j b hj hb
    simp only [pack]
    cases j with
    | zero =>
      have h8 := bin8_byteOf b7 b6 b5 b4 b3 b2 b1 b0
      simp only [bin8, List.cons.injEq] at h8
      simp only [List.getD_cons_zero, Nat.mul_zero, Nat.zero_add]
      interval_cases b <;> simp_all
    | succ j =>
      have := ih rest (by simp at h; omega) j b (by omega) hb
      rw [List.getD_cons_succ, this, show 8 * (j + 1) + b = (8 * j + b) + 1 + 1 + 1 + 1 + 1 + 1 + 1 + 1 by omega]
      simp only [List.getD_cons_succ]

/-- Digit k of an unpacked sequence is bit 7 - k mod 8 of byte k div 8 (R260, R262). -/
theorem getElem_unpack (bs : List Byte) (k : Nat) (h : k < 8 * bs.length) :
    (unpack bs)[k]? = some ((bs.getD (k / 8) 0).getLsbD (7 - k % 8)) := by
  induction bs generalizing k with
  | nil => simp at h
  | cons b bs ih =>
    rw [unpack_cons]
    by_cases hk : k < 8
    · rw [List.getElem?_append_left (by simpa using hk)]
      interval_cases k <;> simp [bin8]
    · rw [List.getElem?_append_right (by simpa using hk), length_bin8, ih (k - 8) (by simp at h; omega)]
      have h1 : k / 8 = (k - 8) / 8 + 1 := by omega
      have h2 : k % 8 = (k - 8) % 8 := by omega
      rw [h1, h2, List.getD_cons_succ]

end Sys2Proof.Machine
end

