-- ==== Sys2Proof/Laws/Tables.lean ====
section
/-! SUPPORT. FREQ, NODE and CODE: read after write, and the cleared tables. -/

namespace Sys2Proof.Machine

theorem freqAt_freqPut (f : FreqTable) (a b : Byte) (v : Word) :
    freqAt (freqPut f a v) b = if b = a then v else freqAt f b := by
  simp only [freqAt, freqPut, Vector.getElem_set]
  by_cases h : a = b
  · simp [h]
  · rw [if_neg (fun e => h (BitVec.eq_of_toNat_eq e)), if_neg (fun e => h e.symm)]

theorem freqAt_freqZero (b : Byte) : freqAt freqZero b = 0 := by simp [freqAt, freqZero]

theorem codeAt_codePut (t : CodeTable) (a b : Byte) (v : Code) :
    codeAt (codePut t a v) b = if b = a then v else codeAt t b := by
  simp only [codeAt, codePut, Vector.getElem_set]
  by_cases h : a = b
  · simp [h]
  · rw [if_neg (fun e => h (BitVec.eq_of_toNat_eq e)), if_neg (fun e => h e.symm)]

theorem codeAt_codeZero (b : Byte) : codeAt codeZero b = Code.zero := by simp [codeAt, codeZero]

theorem nodeAt_nodePut (a : Arena) (i j : Nat) (n : Node) :
    nodeAt (nodePut a i n) j = if j = i ∧ i < 511 then n else nodeAt a j := by
  unfold nodePut nodeAt
  by_cases hi : i < 511
  · by_cases hj : j < 511
    · simp only [hi, hj, dif_pos, Vector.getElem_set, and_true]
      by_cases h : i = j
      · simp [h]
      · rw [if_neg h, if_neg (fun e => h e.symm)]
    · rw [dif_pos hi, dif_neg hj, if_neg (by omega), dif_neg hj]
  · simp [hi]

theorem nodeAt_nodePut_same (a : Arena) {i : Nat} (n : Node) (h : i < 511) : nodeAt (nodePut a i n) i = n := by
  rw [nodeAt_nodePut, if_pos ⟨rfl, h⟩]

theorem nodeAt_nodePut_other (a : Arena) {i j : Nat} (n : Node) (h : j ≠ i) : nodeAt (nodePut a i n) j = nodeAt a j := by
  rw [nodeAt_nodePut, if_neg (fun e => h e.1)]

theorem nodeAt_arenaZero (i : Nat) : nodeAt arenaZero i = Node.zero := by
  unfold nodeAt arenaZero; split <;> simp

theorem nodeAt_beyond (a : Arena) {i : Nat} (h : 511 ≤ i) : nodeAt a i = Node.zero := by
  unfold nodeAt; rw [dif_neg (by omega)]

/-- Two FREQ tables with equal entries are equal. -/
theorem FreqTable.ext_at {f g : FreqTable} (h : ∀ b, freqAt f b = freqAt g b) : f = g := by
  apply Vector.ext
  intro i hi
  have := h (BitVec.ofNat 8 i)
  simpa [freqAt, Nat.mod_eq_of_lt hi] using this

/-- Two CODE tables with equal entries are equal. -/
theorem CodeTable.ext_at {f g : CodeTable} (h : ∀ b, codeAt f b = codeAt g b) : f = g := by
  apply Vector.ext
  intro i hi
  have := h (BitVec.ofNat 8 i)
  simpa [codeAt, Nat.mod_eq_of_lt hi] using this

/-- Two arenas with equal entries are equal. -/
theorem Arena.ext_at {f g : Arena} (h : ∀ i, nodeAt f i = nodeAt g i) : f = g := by
  apply Vector.ext
  intro i hi
  have := h i
  simpa [nodeAt, hi] using this

end Sys2Proof.Machine
end

