-- ==== Sys2Proof/Laws/Trees.lean ====
section
/-! SUPPORT. Trees: counts, reading one from the arena, its serialization, and digit sequences that
lead to its leaves. -/

namespace Sys2Proof.Machine

/-! ## Counts -/

theorem Tree.leaves_pos (t : Tree) : 1 ≤ t.leaves := by
  induction t with
  | leaf => simp [Tree.leaves]
  | node i l r hl hr => simp only [Tree.leaves]; omega

/-- A full binary tree with n leaves has 2n - 1 nodes (R49 a). -/
theorem Tree.size_leaves (t : Tree) : t.size + 1 = 2 * t.leaves := by
  induction t with
  | leaf => rfl
  | node i l r hl hr => simp only [Tree.size, Tree.leaves]; omega

theorem Tree.levels_le_leaves (t : Tree) : t.levels ≤ t.leaves := by
  induction t with
  | leaf => simp [Tree.levels, Tree.leaves]
  | node i l r hl hr =>
    have := l.leaves_pos
    have := r.leaves_pos
    simp only [Tree.levels, Tree.leaves]; omega

theorem Tree.length_indices (t : Tree) : t.indices.length = t.size := by
  induction t with
  | leaf => rfl
  | node i l r hl hr => simp only [Tree.indices, Tree.size, List.length_cons, List.length_append, hl, hr]; omega

theorem Tree.length_symbols (t : Tree) : t.symbols.length = t.leaves := by
  induction t with
  | leaf => rfl
  | node i l r hl hr => simp only [Tree.symbols, Tree.leaves, List.length_append, hl, hr]

theorem Tree.index_mem (t : Tree) : t.index ∈ t.indices := by cases t <;> simp [Tree.index, Tree.indices]

/-- A tree with n leaves serializes to 10n - 1 digits (R137). -/
theorem length_serialize (t : Tree) : (serialize t).length + 1 = 10 * t.leaves := by
  induction t with
  | leaf i b => simp [serialize, Tree.leaves]
  | node i l r hl hr => simp only [serialize, Tree.leaves, List.length_cons, List.length_append]; omega

/-! ## Shape -/

theorem Tree.alike_refl (t : Tree) : t.alike t = true := by
  induction t with
  | leaf => simp [Tree.alike]
  | node i l r hl hr => simp [Tree.alike, hl, hr]

/-- Alike trees have the same serialization. -/
theorem serialize_alike {t u : Tree} (h : t.alike u = true) : serialize t = serialize u := by
  induction t generalizing u with
  | leaf i b => cases u with
    | leaf j b' => simp only [Tree.alike, beq_iff_eq] at h; simp [serialize, h]
    | node => simp [Tree.alike] at h
  | node i l r hl hr => cases u with
    | leaf => simp [Tree.alike] at h
    | node j l' r' =>
      simp only [Tree.alike, Bool.and_eq_true] at h
      simp [serialize, hl h.1, hr h.2]

theorem Tree.follow_alike {t u : Tree} (h : t.alike u = true) (d : Bits) : t.follow d = u.follow d := by
  induction t generalizing u d with
  | leaf i b => cases u with
    | leaf j b' => simp only [Tree.alike, beq_iff_eq] at h; cases d <;> simp [Tree.follow, h]
    | node => simp [Tree.alike] at h
  | node i l r hl hr => cases u with
    | leaf => simp [Tree.alike] at h
    | node j l' r' =>
      simp only [Tree.alike, Bool.and_eq_true] at h
      cases d with
      | nil => rfl
      | cons d ds => simp only [Tree.follow]; split
                     · exact hr h.2 ds
                     · exact hl h.1 ds

theorem Tree.size_alike {t u : Tree} (h : t.alike u = true) : t.size = u.size := by
  induction t generalizing u with
  | leaf i b => cases u with
    | leaf => rfl
    | node => simp [Tree.alike] at h
  | node i l r hl hr => cases u with
    | leaf => simp [Tree.alike] at h
    | node j l' r' =>
      simp only [Tree.alike, Bool.and_eq_true] at h
      simp [Tree.size, hl h.1, hr h.2]

/-! ## The arena -/

/-- The arena holds the tree: each node's entry has its kind, its symbol and its children's indices. -/
def HoldsTree (a : Arena) : Tree → Prop
  | .leaf i b   => (nodeAt a i).kind = true ∧ (nodeAt a i).sym = b
  | .node i l r => (nodeAt a i).kind = false ∧ (nodeAt a i).left.toNat = l.index ∧ (nodeAt a i).right.toNat = r.index ∧
      HoldsTree a l ∧ HoldsTree a r

/-- Reading a tree from the arena: exactly the trees it holds, up to the levels allowed. -/
theorem readTree_eq_some {a : Arena} {fuel i : Nat} {t : Tree} :
    readTree a fuel i = some t ↔ HoldsTree a t ∧ t.index = i ∧ t.levels ≤ fuel := by
  induction fuel generalizing i t with
  | zero =>
    constructor
    · intro h; simp [readTree] at h
    · rintro ⟨-, -, h⟩; cases t <;> simp [Tree.levels] at h
  | succ fuel ih =>
    simp only [readTree]
    by_cases hk : (nodeAt a i).kind = true
    · rw [if_pos hk]
      constructor
      · intro h
        cases h
        exact ⟨⟨hk, rfl⟩, rfl, by simp [Tree.levels]⟩
      · rintro ⟨h, hi, -⟩
        cases t with
        | leaf j b => cases hi; obtain ⟨-, hb⟩ := h; simp only [Tree.index] at hb ⊢; rw [hb]
        | node j l r => cases hi; simp only [Tree.index, h.1] at hk; cases hk
    · rw [if_neg hk]
      constructor
      · intro h
        cases hl : readTree a fuel (nodeAt a i).left.toNat with
        | none => simp [hl] at h
        | some l =>
          cases hr : readTree a fuel (nodeAt a i).right.toNat with
          | none => simp [hl, hr] at h
          | some r =>
            simp only [hl, hr, Option.some.injEq] at h
            obtain ⟨l1, l2, l3⟩ := ih.mp hl
            obtain ⟨r1, r2, r3⟩ := ih.mp hr
            subst h
            exact ⟨⟨by simpa using hk, l2.symm, r2.symm, l1, r1⟩, rfl, by simp only [Tree.levels]; omega⟩
      · rintro ⟨h, hi, hlev⟩
        cases t with
        | leaf j b => cases hi; exact absurd h.1 hk
        | node j l r =>
          cases hi
          simp only [Tree.levels] at hlev
          obtain ⟨-, h2, h3, h4, h5⟩ := h
          have hl := (ih (i := l.index) (t := l)).mpr ⟨h4, rfl, by omega⟩
          have hr := (ih (i := r.index) (t := r)).mpr ⟨h5, rfl, by omega⟩
          rw [show (Tree.node j l r).index = j from rfl, h2, h3, hl, hr]

/-- A tree is held by every arena that agrees on its nodes. -/
theorem HoldsTree.congr {a b : Arena} {t : Tree} (h : HoldsTree a t) (hab : ∀ i ∈ t.indices, nodeAt b i = nodeAt a i) :
    HoldsTree b t := by
  induction t with
  | leaf i s => simp only [HoldsTree, hab i (by simp [Tree.indices])]; exact h
  | node i l r hl hr =>
    obtain ⟨h1, h2, h3, h4, h5⟩ := h
    have hi := hab i (by simp [Tree.indices])
    refine ⟨by rw [hi]; exact h1, by rw [hi]; exact h2, by rw [hi]; exact h3, hl h4 ?_, hr h5 ?_⟩
    · intro j hj; exact hab j (by simp [Tree.indices, hj])
    · intro j hj; exact hab j (by simp [Tree.indices, hj])

/-- A valid tree is read within 256 levels, being held by the arena (R204). -/
theorem currentTree_eq_some {s : State} {t : Tree} :
    currentTree s = some t ↔ HoldsTree s.node t ∧ t.index = s.root.toNat ∧ t.levels ≤ 256 := readTree_eq_some

/-! ## Digit sequences -/

/-- No sequence that leads to a leaf goes on to another (R205). -/
theorem Tree.follow_unique {t : Tree} {d e : Bits} {a b : Byte} (hd : t.follow d = some a)
    (he : t.follow (d ++ e) = some b) : e = [] ∧ a = b := by
  induction t generalizing d with
  | leaf i s =>
    cases d with
    | nil => cases e with
      | nil => simp only [List.append_nil] at he; exact ⟨rfl, by rw [hd] at he; exact Option.some.inj he⟩
      | cons x e => simp [Tree.follow] at he
    | cons x d => simp [Tree.follow] at hd
  | node i l r hl hr =>
    cases d with
    | nil => simp [Tree.follow] at hd
    | cons x d =>
      simp only [Tree.follow, List.cons_append] at hd he
      cases x with
      | true => exact hr (by simpa using hd) (by simpa using he)
      | false => exact hl (by simpa using hd) (by simpa using he)

theorem Tree.follow_mem {t : Tree} {d : Bits} {b : Byte} (h : t.follow d = some b) : b ∈ t.symbols := by
  induction t generalizing d with
  | leaf i s => cases d with
    | nil => simp only [Tree.follow, Option.some.injEq] at h; simp [Tree.symbols, h]
    | cons => simp [Tree.follow] at h
  | node i l r hl hr => cases d with
    | nil => simp [Tree.follow] at h
    | cons x d =>
      simp only [Tree.follow] at h
      simp only [Tree.symbols, List.mem_append]
      split at h
      · exact .inr (hr h)
      · exact .inl (hl h)

theorem Tree.follow_length {t : Tree} {d : Bits} {b : Byte} (h : t.follow d = some b) : d.length < t.levels := by
  induction t generalizing d with
  | leaf i s => cases d with
    | nil => simp [Tree.levels]
    | cons => simp [Tree.follow] at h
  | node i l r hl hr => cases d with
    | nil => simp [Tree.levels]
    | cons x d =>
      simp only [Tree.follow] at h
      simp only [Tree.levels, List.length_cons]
      split at h
      · have := hr h; omega
      · have := hl h; omega

/-! ## The walk of CODE_GEN -/

/-- Whatever the walk writes is the code of a leaf (R200, R201); a symbol without a leaf keeps its entry. -/
theorem codeAt_walkCodes (t : Tree) (path : Bits) (c : CodeTable) (b : Byte) :
    (b ∈ t.symbols ∧ ∃ d, t.follow d = some b ∧ codeAt (walkCodes t path c) b = codeOf (leafCode (path ++ d))) ∨
    (b ∉ t.symbols ∧ codeAt (walkCodes t path c) b = codeAt c b) := by
  induction t generalizing path c with
  | leaf i s =>
    by_cases h : b = s
    · subst h
      exact .inl ⟨by simp [Tree.symbols], [], rfl, by simp [walkCodes, codeAt_codePut]⟩
    · exact .inr ⟨by simp [Tree.symbols, h], by simp [walkCodes, codeAt_codePut, h]⟩
  | node i l r hl hr =>
    simp only [walkCodes, Tree.symbols, List.mem_append]
    rcases hr (path ++ [true]) (walkCodes l (path ++ [false]) c) with ⟨hm, d, hd, he⟩ | ⟨hm, he⟩
    · exact .inl ⟨.inr hm, true :: d, by simpa [Tree.follow] using hd, by simpa using he⟩
    · rcases hl (path ++ [false]) c with ⟨hm', d, hd, he'⟩ | ⟨hm', he'⟩
      · exact .inl ⟨.inl hm', false :: d, by simpa [Tree.follow] using hd, by rw [he, he']; simp⟩
      · exact .inr ⟨by simp [hm, hm'], by rw [he, he']⟩

/-- The paths are the digit sequences that lead to leaves. -/
theorem Tree.mem_paths {t : Tree} {b : Byte} {d : Bits} : (b, d) ∈ t.paths ↔ t.follow d = some b := by
  induction t generalizing d with
  | leaf i s => cases d <;> simp [Tree.paths, Tree.follow, eq_comm]
  | node i l r hl hr =>
    cases d with
    | nil => simp [Tree.paths, Tree.follow]
    | cons x d => cases x <;> simp [Tree.paths, Tree.follow, ← hl, ← hr]

theorem Tree.lastPath_node (i : Nat) (l r : Tree) (b : Byte) :
    (Tree.node i l r).lastPath b = ((r.lastPath b).map (true :: ·)).or ((l.lastPath b).map (false :: ·)) := by
  simp only [Tree.lastPath, Tree.paths, List.filter_append, List.getLast?_append, List.filter_map, List.getLast?_map,
    Function.comp_def, Option.map_or, Option.map_map]

theorem Tree.follow_lastPath {t : Tree} {b : Byte} {d : Bits} (h : t.lastPath b = some d) : t.follow d = some b := by
  simp only [Tree.lastPath, Option.map_eq_some_iff] at h
  obtain ⟨q, hq, rfl⟩ := h
  have hm := List.mem_of_getLast? hq
  simp only [List.mem_filter, beq_iff_eq] at hm
  obtain ⟨h1, rfl⟩ := hm
  exact Tree.mem_paths.mp h1

theorem Tree.lastPath_eq_none {t : Tree} {b : Byte} : t.lastPath b = none ↔ b ∉ t.symbols := by
  induction t with
  | leaf i s =>
    by_cases h : s = b
    · simp [Tree.lastPath, Tree.paths, Tree.symbols, h]
    · simp [Tree.lastPath, Tree.paths, Tree.symbols, h, Ne.symm h]
  | node i l r hl hr => rw [Tree.lastPath_node]; simp [Tree.symbols, hl, hr, and_comm]

/-- The walk leaves each symbol the code of its last leaf (R201 to R203). -/
theorem codeAt_walkCodes_lastPath (t : Tree) (path : Bits) (c : CodeTable) (b : Byte) :
    codeAt (walkCodes t path c) b =
      match t.lastPath b with
      | none   => codeAt c b
      | some d => codeOf (leafCode (path ++ d)) := by
  induction t generalizing path c with
  | leaf i s =>
    by_cases h : s = b
    · simp [walkCodes, codeAt_codePut, Tree.lastPath, Tree.paths, h]
    · simp [walkCodes, codeAt_codePut, Tree.lastPath, Tree.paths, h, Ne.symm h]
  | node i l r hl hr =>
    rw [walkCodes, hr, hl, Tree.lastPath_node]
    cases r.lastPath b <;> cases l.lastPath b <;> simp

theorem leafCode_nil : leafCode [] = [false] := rfl

theorem leafCode_of_ne {p : Bits} (h : p ≠ []) : leafCode p = p := by cases p <;> simp_all [leafCode]

theorem leafCode_ne_nil (p : Bits) : leafCode p ≠ [] := by cases p <;> simp [leafCode]

/-- The code words of a tree of at most 256 levels fit LEN (R204). -/
theorem leafCode_length {t : Tree} (hl : t.levels ≤ 256) {b : Byte} {d : Bits} (h : t.follow d = some b) :
    1 ≤ (leafCode d).length ∧ (leafCode d).length ≤ 255 := by
  have := Tree.follow_length h
  refine ⟨List.length_pos_iff.mpr (leafCode_ne_nil d), ?_⟩
  unfold leafCode; split
  · simp
  · omega

/-- The entry CODE_GEN leaves for a symbol (R200 to R204). -/
theorem walkCodes_entry {t : Tree} (hl : t.levels ≤ 256) (b : Byte) :
    (t.lastPath b = none ∧ codeAt (walkCodes t [] codeZero) b = Code.zero) ∨
    ∃ d, t.lastPath b = some d ∧ t.follow d = some b ∧ (codeAt (walkCodes t [] codeZero) b).bits = leafCode d ∧
      (codeAt (walkCodes t [] codeZero) b).len.toNat = (leafCode d).length := by
  have e := codeAt_walkCodes_lastPath t [] codeZero b
  cases h : t.lastPath b with
  | none => rw [h] at e; exact .inl ⟨rfl, by rw [e, codeAt_codeZero]⟩
  | some d =>
    rw [h] at e
    have hf := Tree.follow_lastPath h
    have := leafCode_length hl hf
    refine .inr ⟨d, rfl, hf, by rw [e]; rfl, ?_⟩
    rw [e]; simp only [codeOf, List.nil_append, BitVec.toNat_ofNat]; omega

end Sys2Proof.Machine
end

