-- ==== Sys2Proof/Laws/Build.lean ====
section
/-! SUPPORT. TREE_BUILD: the symbols present, the least key, and what the merge loop builds. -/

namespace Sys2Proof.Machine

/-! ## The symbols present (R183) -/

theorem mem_presentSymbols (f : FreqTable) (b : Byte) : b ∈ presentSymbols f ↔ freqAt f b ≠ 0 := by
  simp only [presentSymbols, List.mem_filter, List.mem_map, List.mem_range, bne_iff_ne, ne_eq, and_iff_right_iff_imp]
  intro _
  exact ⟨b.toNat, b.isLt, by simp⟩

theorem nodup_presentSymbols (f : FreqTable) : (presentSymbols f).Nodup := by
  unfold presentSymbols
  refine List.Nodup.filter _ (List.Nodup.map_on ?_ List.nodup_range)
  intro x hx y hy h
  rw [List.mem_range] at hx hy
  have := congrArg BitVec.toNat h
  simpa [Nat.mod_eq_of_lt hx, Nat.mod_eq_of_lt hy] using this

theorem length_presentSymbols (f : FreqTable) : (presentSymbols f).length ≤ 256 := by
  unfold presentSymbols
  refine Nat.le_trans (List.length_filter_le _ _) (by simp)

/-! ## The least key (R181) -/

/-- The key of a node as one number, ordered as R181 orders keys, for indices below 512. -/
def keyOf (a : Arena) (i : Nat) : Nat := 512 * (nodeAt a i).nfreq.toNat + i

theorem keyLt_iff {a : Arena} {i j : Nat} (hi : i < 512) (hj : j < 512) : keyLt a i j = true ↔ keyOf a i < keyOf a j := by
  simp only [keyLt, Bool.or_eq_true, Bool.and_eq_true, decide_eq_true_eq, keyOf]
  omega

theorem argminFrom_mem (a : Arena) (best : Nat) (q : List Nat) :
    argminFrom a best q = best ∨ argminFrom a best q ∈ q := by
  induction q generalizing best with
  | nil => exact .inl rfl
  | cons i q ih =>
    simp only [argminFrom, List.mem_cons]
    split
    · rcases ih i with h | h
      · exact .inr (.inl h)
      · exact .inr (.inr h)
    · rcases ih best with h | h
      · exact .inl h
      · exact .inr (.inr h)

theorem argminFrom_least {a : Arena} {best : Nat} {q : List Nat} (hb : best < 512) (hq : ∀ i ∈ q, i < 512) :
    keyOf a (argminFrom a best q) ≤ keyOf a best ∧ ∀ i ∈ q, keyOf a (argminFrom a best q) ≤ keyOf a i := by
  induction q generalizing best with
  | nil => exact ⟨Nat.le_refl _, by simp⟩
  | cons i q ih =>
    have hi : i < 512 := hq i (by simp)
    have hq' : ∀ j ∈ q, j < 512 := fun j hj => hq j (by simp [hj])
    simp only [argminFrom, List.mem_cons, forall_eq_or_imp]
    split
    · next h =>
      have := (keyLt_iff hi hb).mp h
      obtain ⟨h1, h2⟩ := ih hi hq'
      exact ⟨by omega, h1, h2⟩
    · next h =>
      have : ¬keyOf a i < keyOf a best := fun e => h ((keyLt_iff hi hb).mpr e)
      obtain ⟨h1, h2⟩ := ih hb hq'
      exact ⟨h1, by omega, h2⟩

theorem argmin_mem {a : Arena} {q : List Nat} {x : Nat} (h : argmin a q = some x) : x ∈ q := by
  cases q with
  | nil => simp [argmin] at h
  | cons i q =>
    simp only [argmin, Option.some.injEq] at h
    subst h
    rcases argminFrom_mem a i q with e | e
    · simp [e]
    · simp [e]

/-- Removal takes the element with the least key (R181, R182). -/
theorem argmin_least {a : Arena} {q : List Nat} {x : Nat} (h : argmin a q = some x) (hq : ∀ i ∈ q, i < 512) :
    ∀ i ∈ q, keyOf a x ≤ keyOf a i := by
  cases q with
  | nil => simp [argmin] at h
  | cons i q =>
    simp only [argmin, Option.some.injEq] at h
    subst h
    obtain ⟨h1, h2⟩ := argminFrom_least (a := a) (q := q) (hq i (by simp)) (fun j hj => hq j (by simp [hj]))
    intro j hj
    rcases List.mem_cons.mp hj with rfl | hj
    · exact h1
    · exact h2 j hj

theorem argmin_eq_none {a : Arena} {q : List Nat} : argmin a q = none ↔ q = [] := by
  cases q <;> simp [argmin]

/-! ## Weights (R186) -/

/-- The summed count of a list of symbols. -/
def weigh (f : FreqTable) (bs : List Byte) : Nat := (bs.map fun b => (freqAt f b).toNat).sum

theorem weigh_append (f : FreqTable) (x y : List Byte) : weigh f (x ++ y) = weigh f x + weigh f y := by
  simp [weigh]

theorem weigh_le (f : FreqTable) (bs : List Byte) : weigh f bs ≤ bs.length * (2 ^ 32 - 1) := by
  induction bs with
  | nil => simp [weigh]
  | cons b bs ih =>
    have := (freqAt f b).isLt
    simp only [weigh, List.map_cons, List.sum_cons, List.length_cons] at ih ⊢
    omega

theorem weigh_perm (f : FreqTable) {x y : List Byte} (h : x.Perm y) : weigh f x = weigh f y :=
  (h.map _).sum_nat

/-- Every node's NFREQ is the summed count of the leaves below it (R186). -/
def Weighed (f : FreqTable) (a : Arena) : Tree → Prop
  | .leaf i b   => (nodeAt a i).nfreq.toNat = weigh f [b]
  | .node i l r => (nodeAt a i).nfreq.toNat = weigh f (l.symbols ++ r.symbols) ∧ Weighed f a l ∧ Weighed f a r

theorem Weighed.root {f : FreqTable} {a : Arena} {t : Tree} (h : Weighed f a t) :
    (nodeAt a t.index).nfreq.toNat = weigh f t.symbols := by
  cases t with
  | leaf => exact h
  | node => exact h.1

theorem Weighed.congr {f : FreqTable} {a b : Arena} {t : Tree} (h : Weighed f a t)
    (hab : ∀ i ∈ t.indices, nodeAt b i = nodeAt a i) : Weighed f b t := by
  induction t with
  | leaf i s => simp only [Weighed, hab i (by simp [Tree.indices])]; exact h
  | node i l r hl hr =>
    obtain ⟨h1, h2, h3⟩ := h
    refine ⟨by rw [hab i (by simp [Tree.indices])]; exact h1, hl h2 ?_, hr h3 ?_⟩
    · intro j hj; exact hab j (by simp [Tree.indices, hj])
    · intro j hj; exact hab j (by simp [Tree.indices, hj])

/-! ## The merge loop -/

/-- What holds between merges: the arena holds one tree for each element of Q, the trees' indices are
exactly 0 to `next` - 1, their leaves are the symbols present, and the rest of the arena is zero. -/
structure Building (f : FreqTable) (syms : List Byte) (a : Arena) (next : Nat) (q : List Nat) (ts : List Tree) : Prop where
  roots   : (ts.map Tree.index).Perm q
  holds   : ∀ t ∈ ts, HoldsTree a t
  weighed : ∀ t ∈ ts, Weighed f a t
  cover   : (ts.flatMap Tree.indices).Perm (List.range next)
  symbols : (ts.flatMap Tree.symbols).Perm syms
  unused  : ∀ i, next ≤ i → nodeAt a i = Node.zero
  tidy    : ∀ i, (nodeAt a i).tidy
  count   : next + q.length = 2 * syms.length

theorem perm_map_cons {α β : Type} [DecidableEq α] {g : α → β} {ts : List α} {x : β} {q : List β}
    (h : (ts.map g).Perm (x :: q)) : ∃ t us, ts.Perm (t :: us) ∧ g t = x ∧ (us.map g).Perm q := by
  obtain ⟨t, ht, hx⟩ := List.mem_map.mp (h.mem_iff.mpr (List.mem_cons_self))
  refine ⟨t, ts.erase t, List.perm_cons_erase ht, hx, ?_⟩
  have h1 : (ts.map g).Perm (g t :: (ts.erase t).map g) := (List.perm_cons_erase ht).map g
  rw [hx] at h1
  exact (h1.symm.trans h).cons_inv

theorem mergedNode_tidy (a : Arena) (x y : Nat) : (mergedNode a x y).tidy := by simp [mergedNode, Node.tidy]

/-- One merge (R182). -/
theorem Building.merge {f : FreqTable} {syms : List Byte} {a : Arena} {next x y : Nat} {q : List Nat} {ts : List Tree}
    (h : Building f syms a next q ts) (hn : syms.length ≤ 256) (hx : x ∈ q) (hy : y ∈ q.erase x) :
    ∃ us, Building f syms (nodePut a next (mergedNode a x y)) (next + 1) (next :: (q.erase x).erase y) us := by
  have hq1 := List.perm_cons_erase hx
  have hq2 := List.perm_cons_erase hy
  obtain ⟨tx, ts₁, p1, rfl, r1⟩ := perm_map_cons (h.roots.trans hq1)
  obtain ⟨ty, ts₂, p2, rfl, r2⟩ := perm_map_cons (r1.trans hq2)
  have pp : ts.Perm (tx :: ty :: ts₂) := p1.trans (p2.cons tx)
  have l1 := List.length_erase_of_mem hx
  have l2 := List.length_erase_of_mem hy
  have l3 : 1 ≤ q.length := List.length_pos_of_mem hx
  have l4 : 1 ≤ (q.erase tx.index).length := List.length_pos_of_mem hy
  have hcount := h.count
  have hnext : next < 511 := by omega
  have hcov : (tx.indices ++ (ty.indices ++ ts₂.flatMap Tree.indices)).Perm (List.range next) := by
    have := (pp.flatMap_right Tree.indices).symm.trans h.cover
    simpa using this
  have below : ∀ j, j ∈ tx.indices ∨ j ∈ ty.indices ∨ j ∈ ts₂.flatMap Tree.indices → j < next := by
    intro j hj
    exact List.mem_range.mp (hcov.mem_iff.mp (by simpa using hj))
  have hsym : (tx.symbols ++ (ty.symbols ++ ts₂.flatMap Tree.symbols)).Perm syms := by
    have := (pp.flatMap_right Tree.symbols).symm.trans h.symbols
    simpa using this
  have mx : tx ∈ ts := pp.mem_iff.mpr (by simp)
  have my : ty ∈ ts := pp.mem_iff.mpr (by simp)
  have bx := below tx.index (.inl tx.index_mem)
  have bY := below ty.index (.inr (.inl ty.index_mem))
  have keep : ∀ j, j < next → nodeAt (nodePut a next (mergedNode a tx.index ty.index)) j = nodeAt a j :=
    fun j hj => nodeAt_nodePut_other _ _ (by omega)
  have here : nodeAt (nodePut a next (mergedNode a tx.index ty.index)) next = mergedNode a tx.index ty.index :=
    nodeAt_nodePut_same _ _ hnext
  refine ⟨.node next tx ty :: ts₂, ?_, ?_, ?_, ?_, ?_, ?_, ?_, ?_⟩
  · exact r2.cons next
  · intro t ht
    rcases List.mem_cons.mp ht with rfl | ht
    · refine ⟨by rw [here]; rfl, ?_, ?_, ?_, ?_⟩
      · rw [here]; simp only [mergedNode, BitVec.toNat_ofNat]; omega
      · rw [here]; simp only [mergedNode, BitVec.toNat_ofNat]; omega
      · exact (h.holds tx mx).congr fun j hj => keep j (below j (.inl hj))
      · exact (h.holds ty my).congr fun j hj => keep j (below j (.inr (.inl hj)))
    · refine (h.holds t (pp.mem_iff.mpr (by simp [ht]))).congr fun j hj => keep j (below j (.inr (.inr ?_)))
      exact List.mem_flatMap.mpr ⟨t, ht, hj⟩
  · intro t ht
    rcases List.mem_cons.mp ht with rfl | ht
    · refine ⟨?_, ?_, ?_⟩
      · have w1 := (h.weighed tx mx).root
        have w2 := (h.weighed ty my).root
        have len : tx.symbols.length + ty.symbols.length ≤ 256 := by
          have := hsym.length_eq
          simp only [List.length_append] at this
          omega
        have w3 := weigh_le f (tx.symbols ++ ty.symbols)
        rw [List.length_append, weigh_append] at w3
        rw [here, weigh_append, mergedNode]
        simp only [BitVec.toNat_add, w1, w2]
        omega
      · exact (h.weighed tx mx).congr fun j hj => keep j (below j (.inl hj))
      · exact (h.weighed ty my).congr fun j hj => keep j (below j (.inr (.inl hj)))
    · refine (h.weighed t (pp.mem_iff.mpr (by simp [ht]))).congr fun j hj => keep j (below j (.inr (.inr ?_)))
      exact List.mem_flatMap.mpr ⟨t, ht, hj⟩
  · rw [List.range_succ]
    refine List.Perm.trans ?_ (List.perm_append_singleton next _).symm
    simp only [List.flatMap_cons, Tree.indices, List.cons_append, List.append_assoc]
    exact hcov.cons next
  · simpa [Tree.symbols] using hsym
  · intro i hi
    rw [nodeAt_nodePut_other _ _ (by omega)]
    exact h.unused i (by omega)
  · intro i
    by_cases e : i = next
    · rw [e, here]; exact mergedNode_tidy _ _ _
    · rw [nodeAt_nodePut_other _ _ e]; exact h.tidy i
  · simp only [List.length_cons]; omega

/-- The loop ends with one tree (R182). -/
theorem Building.loop {f : FreqTable} {syms : List Byte} {fuel next : Nat} {q : List Nat} {a : Arena} {ts : List Tree}
    (h : Building f syms a next q ts) (hn : syms.length ≤ 256) (hq : q ≠ []) (hf : q.length ≤ fuel) :
    ∃ t, (mergeLoop fuel next q a).2 = [t.index] ∧
      Building f syms (mergeLoop fuel next q a).1 (2 * syms.length - 1) [t.index] [t] := by
  induction fuel generalizing next q a ts with
  | zero => exact absurd (List.length_eq_zero_iff.mp (Nat.le_zero.mp hf)) hq
  | succ fuel ih =>
    rw [mergeLoop]
    cases hx : argmin a q with
    | none => exact absurd (argmin_eq_none.mp hx) hq
    | some x =>
      simp only
      have mx := argmin_mem hx
      have l1 := List.length_erase_of_mem mx
      cases hy : argmin a (q.erase x) with
      | none =>
        simp only
        have e := argmin_eq_none.mp hy
        have hq1 := List.perm_cons_erase mx
        rw [e] at hq1
        have hqe : q = [x] := List.perm_singleton.mp hq1
        subst hqe
        have hr := h.roots
        have hlen := hr.length_eq
        simp only [List.length_map, List.length_singleton] at hlen
        obtain ⟨t, rfl⟩ := List.length_eq_one_iff.mp hlen
        simp only [List.map_cons, List.map_nil] at hr
        have : t.index = x := by simpa using List.perm_singleton.mp hr
        subst this
        have hc := h.count
        simp only [List.length_singleton] at hc
        have : next = 2 * syms.length - 1 := by omega
        exact ⟨t, rfl, this ▸ h⟩
      | some y =>
        simp only
        have my := argmin_mem hy
        have l2 := List.length_erase_of_mem my
        have l4 : 1 ≤ (q.erase x).length := List.length_pos_of_mem my
        obtain ⟨us, hus⟩ := h.merge hn mx my
        exact ih hus (by simp) (by simp only [List.length_cons]; omega)

/-! ## The leaves (R183) -/

theorem nodeAt_putLeaves (f : FreqTable) (i : Nat) (bs : List Byte) (a : Arena) (j : Nat) (h : i + bs.length ≤ 511) :
    nodeAt (putLeaves f i bs a) j =
      if i ≤ j ∧ j < i + bs.length then leafNode (bs.getD (j - i) 0) (freqAt f (bs.getD (j - i) 0)) else nodeAt a j := by
  induction bs generalizing i a with
  | nil => simp [putLeaves, show ¬(i ≤ j ∧ j < i) by omega]
  | cons b bs ih =>
    simp only [List.length_cons] at h ⊢
    rw [putLeaves, ih _ _ (by omega), nodeAt_nodePut]
    by_cases h1 : j = i
    · subst h1
      rw [if_neg (by omega), if_pos (by omega), if_pos (by omega), Nat.sub_self]
      rfl
    · by_cases h2 : i + 1 ≤ j ∧ j < i + 1 + bs.length
      · obtain ⟨d, rfl⟩ : ∃ d, j = i + 1 + d := ⟨j - (i + 1), by omega⟩
        rw [if_pos h2, if_pos (by omega), show i + 1 + d - (i + 1) = d by omega, show i + 1 + d - i = d + 1 by omega]
        rfl
      · rw [if_neg h2, if_neg (by omega), if_neg (by omega)]

/-- The trees of the leaves alone. -/
def leafTrees : Nat → List Byte → List Tree
  | _, [] => []
  | i, b :: bs => .leaf i b :: leafTrees (i + 1) bs

theorem map_index_leafTrees (i : Nat) (bs : List Byte) : (leafTrees i bs).map Tree.index = List.range' i bs.length := by
  induction bs generalizing i with
  | nil => rfl
  | cons b bs ih => simp [leafTrees, Tree.index, ih, List.range'_succ]

theorem flatMap_indices_leafTrees (i : Nat) (bs : List Byte) :
    (leafTrees i bs).flatMap Tree.indices = List.range' i bs.length := by
  induction bs generalizing i with
  | nil => rfl
  | cons b bs ih => simp [leafTrees, Tree.indices, ih, List.range'_succ]

theorem flatMap_symbols_leafTrees (i : Nat) (bs : List Byte) : (leafTrees i bs).flatMap Tree.symbols = bs := by
  induction bs generalizing i with
  | nil => rfl
  | cons b bs ih => simp [leafTrees, Tree.symbols, ih]

theorem mem_leafTrees {i : Nat} {bs : List Byte} {t : Tree} (h : t ∈ leafTrees i bs) :
    ∃ k, k < bs.length ∧ t = .leaf (i + k) (bs.getD k 0) := by
  induction bs generalizing i with
  | nil => simp [leafTrees] at h
  | cons b bs ih =>
    simp only [leafTrees, List.mem_cons] at h
    rcases h with rfl | h
    · exact ⟨0, by simp, rfl⟩
    · obtain ⟨k, hk, rfl⟩ := ih h
      exact ⟨k + 1, by simpa using hk, by simp only [Tree.leaf.injEq]; exact ⟨by omega, rfl⟩⟩

theorem building_leaves (f : FreqTable) (syms : List Byte) (hn : syms.length ≤ 256) :
    Building f syms (putLeaves f 0 syms arenaZero) syms.length (List.range syms.length) (leafTrees 0 syms) := by
  have at_ := fun j => nodeAt_putLeaves f 0 syms arenaZero j (by omega)
  have leaf : ∀ k, k < syms.length →
      nodeAt (putLeaves f 0 syms arenaZero) k = leafNode (syms.getD k 0) (freqAt f (syms.getD k 0)) := by
    intro k hk
    rw [at_, if_pos (by omega)]
    simp
  refine ⟨?_, ?_, ?_, ?_, ?_, ?_, ?_, ?_⟩
  · rw [map_index_leafTrees, List.range_eq_range']
  · intro t ht
    obtain ⟨k, hk, rfl⟩ := mem_leafTrees ht
    simp only [HoldsTree, Nat.zero_add, leaf k hk, leafNode, and_self]
  · intro t ht
    obtain ⟨k, hk, rfl⟩ := mem_leafTrees ht
    simp only [Weighed, Nat.zero_add, leaf k hk, leafNode, weigh, List.map_cons, List.map_nil, List.sum_cons, List.sum_nil]
    rw [BitVec.toNat_setWidth, Nat.mod_eq_of_lt]
    · rfl
    · have := (freqAt f (syms.getD k 0)).isLt; omega
  · rw [flatMap_indices_leafTrees, List.range_eq_range']
  · rw [flatMap_symbols_leafTrees]
  · intro i hi
    rw [at_, if_neg (by omega), nodeAt_arenaZero]
  · intro i
    rw [at_]
    split
    · simp [leafNode, Node.tidy]
    · rw [nodeAt_arenaZero]; simp [Node.zero, Node.tidy]
  · simp; omega

/-- What TREE_BUILD builds from a non-empty list of symbols (R180 to R186). -/
theorem buildArena_spec (f : FreqTable) {syms : List Byte} (hn : syms.length ≤ 256) (hne : syms ≠ []) :
    ∃ t, (buildArena f syms).2 = [t.index] ∧
      Building f syms (buildArena f syms).1 (2 * syms.length - 1) [t.index] [t] :=
  (building_leaves f syms hn).loop hn (by simpa using hne) (by simp)

/-- ROOT of the built tree: 2n - 2, or 0 for one leaf (R187). -/
theorem buildArena_root (f : FreqTable) {syms : List Byte} (hn : syms.length ≤ 256) (hne : syms ≠ []) :
    (buildArena f syms).2 = [2 * syms.length - 2] := by
  have loop : ∀ fuel next q a, q ≠ [] → q.length ≤ fuel → (q.length = 1 → q = [next - 1]) →
      (mergeLoop fuel next q a).2 = [next + q.length - 2] := by
    intro fuel
    induction fuel with
    | zero => intro next q a hq hf; exact absurd (List.length_eq_zero_iff.mp (Nat.le_zero.mp hf)) hq
    | succ fuel ih =>
      intro next q a hq hf h1
      rw [mergeLoop]
      cases hx : argmin a q with
      | none => exact absurd (argmin_eq_none.mp hx) hq
      | some x =>
        simp only
        have mx := argmin_mem hx
        have l1 := List.length_erase_of_mem mx
        cases hy : argmin a (q.erase x) with
        | none =>
          simp only
          have e := argmin_eq_none.mp hy
          rw [e, List.length_nil] at l1
          have : 1 ≤ q.length := List.length_pos_of_mem mx
          have hl : q.length = 1 := by omega
          rw [h1 hl, List.length_singleton]; congr 1
        | some y =>
          simp only
          have my := argmin_mem hy
          have l2 := List.length_erase_of_mem my
          have l4 : 1 ≤ (q.erase x).length := List.length_pos_of_mem my
          rw [ih (next + 1) _ _ (by simp) (by simp only [List.length_cons]; omega) (fun hl => by
            simp only [List.length_cons] at hl
            rw [List.length_eq_zero_iff.mp (show ((q.erase x).erase y).length = 0 by omega)]
            rfl)]
          simp only [List.length_cons]
          congr 1; omega
  have h0 : 1 ≤ syms.length := List.length_pos_iff.mpr hne
  have := loop syms.length syms.length (List.range syms.length) (putLeaves f 0 syms arenaZero)
    (by simpa using hne) (by simp) (fun hl => by simp only [List.length_range] at hl; rw [hl]; rfl)
  rw [List.length_range] at this
  rw [buildArena, this]; congr 1; omega

end Sys2Proof.Machine
end

