-- ==== Sys2Proof/Laws/Count.lean ====
section
/-! SUPPORT. FREQ_COUNT's table holds exact occurrence counts (spec/40_frequency.md R160, R161). -/

namespace Sys2Proof.Machine

theorem freqAt_foldl_countByte (bytes : List Byte) (f : FreqTable) (b : Byte) :
    freqAt (bytes.foldl countByte f) b = freqAt f b + BitVec.ofNat 32 (bytes.count b) := by
  induction bytes generalizing f with
  | nil => simp
  | cons a bytes ih =>
    rw [List.foldl_cons, ih, countByte, freqAt_freqPut, List.count_cons]
    by_cases h : b = a
    · subst h
      simp only [if_pos, BEq.rfl, BitVec.ofNat_add]
      rw [BitVec.add_assoc, BitVec.add_comm 1]; rfl
    · rw [if_neg h, if_neg (by simpa using fun e => h e.symm), Nat.add_zero]

/-- A table entry of `countBytes` is the number of occurrences. -/
theorem freqAt_countBytes (bytes : List Byte) (b : Byte) :
    freqAt (countBytes bytes) b = BitVec.ofNat 32 (bytes.count b) := by
  rw [countBytes, freqAt_foldl_countByte, freqAt_freqZero]; simp

/-- Below 2^32 bytes no count wraps (R161). -/
theorem toNat_countBytes {bytes : List Byte} (h : bytes.length < 2 ^ 32) (b : Byte) :
    (freqAt (countBytes bytes) b).toNat = bytes.count b := by
  have : bytes.count b ≤ bytes.length := List.count_le_length
  rw [freqAt_countBytes, BitVec.toNat_ofNat, Nat.mod_eq_of_lt (by omega)]

/-- The symbols counted are the bytes that occur (R162). -/
theorem countBytes_ne_zero {bytes : List Byte} (h : bytes.length < 2 ^ 32) (b : Byte) :
    freqAt (countBytes bytes) b ≠ 0 ↔ b ∈ bytes := by
  rw [← List.count_pos_iff, ← toNat_countBytes h b]
  constructor
  · intro hne
    rcases Nat.eq_zero_or_pos (freqAt (countBytes bytes) b).toNat with e | e
    · exact absurd (BitVec.eq_of_toNat_eq (by simpa using e)) hne
    · exact e
  · intro hp he; rw [he] at hp; simp at hp

/-- The occurrences of all byte values sum to the length (R161). -/
theorem sum_count_bytes (bytes : List Byte) :
    ((List.range 256).map fun x => bytes.count (BitVec.ofNat 8 x)).sum = bytes.length := by
  have one : ∀ (b n : Nat), ((List.range n).map fun x => if b = x then 1 else 0).sum = if b < n then 1 else 0 := by
    intro b n
    induction n with
    | zero => rfl
    | succ n ih =>
      rw [List.range_succ, List.map_append, List.sum_append, ih]
      simp only [List.map_cons, List.map_nil, List.sum_cons, List.sum_nil]
      split_ifs <;> omega
  generalize hn : (256 : Nat) = n
  induction bytes with
  | nil => exact List.sum_eq_zero (by simp)
  | cons b bytes ih =>
    have h : ((List.range n).map fun x => (b :: bytes).count (BitVec.ofNat 8 x)) =
        (List.range n).map fun x => bytes.count (BitVec.ofNat 8 x) + if b.toNat = x then 1 else 0 := by
      refine List.map_congr_left fun x hx => ?_
      rw [List.mem_range] at hx
      rw [List.count_cons]
      congr 1
      have : (b == BitVec.ofNat 8 x) = decide (b.toNat = x) := by
        rw [Bool.eq_iff_iff, beq_iff_eq, decide_eq_true_iff]
        constructor
        · rintro rfl; rw [BitVec.toNat_ofNat]; omega
        · intro e; apply BitVec.eq_of_toNat_eq; rw [BitVec.toNat_ofNat]; omega
      rw [this]; simp
    rw [h, List.sum_map_add, ih, one, if_pos (by have := b.isLt; omega), List.length_cons]

end Sys2Proof.Machine
end

