-- ==== Sys2Proof/Laws/Parse.lean ====
section
/-! SUPPORT. The parse of TREE_LOAD: what a successful parse has read and built, and that it succeeds
on every serialized tree that fits. -/

namespace Sys2Proof.Machine

/-! ## Serializations are self-delimiting -/

/-- A stream begins with at most one tree (R130). -/
theorem serialize_append_inj {t u : Tree} {x y : Bits} (h : serialize t ++ x = serialize u ++ y) :
    t.alike u = true ∧ x = y := by
  induction t generalizing u x y with
  | leaf i b =>
    cases u with
    | leaf j b' =>
      simp only [serialize, List.cons_append, List.cons.injEq, true_and] at h
      obtain ⟨h1, h2⟩ := List.append_inj h (by simp)
      have : b = b' := by rw [← byteOf_bin8 b, h1, byteOf_bin8]
      exact ⟨by simp [Tree.alike, this], h2⟩
    | node => simp [serialize] at h
  | node i l r hl hr =>
    cases u with
    | leaf => simp [serialize] at h
    | node j l' r' =>
      simp only [serialize, List.cons_append, List.append_assoc, List.cons.injEq, true_and] at h
      obtain ⟨h1, h2⟩ := hl h
      obtain ⟨h3, h4⟩ := hr h2
      exact ⟨by simp [Tree.alike, h1, h3], h4⟩

/-! ## Soundness -/

theorem loadedLeaf_tidy (b : Byte) : (loadedLeaf b).tidy := by simp [loadedLeaf, Node.tidy]

theorem loadedNode_tidy (l r : Nat) : (loadedNode l r).tidy := by simp [loadedNode, Node.tidy]

/-- What a successful parse has done: it consumed the serialization of a tree, gave its nodes the next
indices in preorder (R224), wrote their entries (R222, R228) and no others. -/
structure Parsed (st st' : Loader) (t : Tree) : Prop where
  index   : t.index = st.cnt
  bits    : st.bits = serialize t ++ st'.bits
  pos     : st'.pos = st.pos + (serialize t).length
  cnt     : st'.cnt = st.cnt + t.size
  leaves  : st'.leaves = st.leaves + t.leaves
  indices : t.indices = List.range' st.cnt t.size
  holds   : HoldsTree st'.node t
  others  : ∀ j, j < st.cnt ∨ st'.cnt ≤ j → nodeAt st'.node j = nodeAt st.node j
  entries : ∀ j, st.cnt ≤ j → j < st'.cnt → (nodeAt st'.node j).tidy ∧ (nodeAt st'.node j).nfreq = 0
  fits    : st'.cnt ≤ 511

theorem toNat_ofNat9 {n : Nat} (h : n ≤ 511) : (BitVec.ofNat 9 n).toNat = n := by
  simp [BitVec.toNat_ofNat]; omega

/-- What the parse answers at a leaf. -/
theorem parsed_leaf {st : Loader} {rest : Bits} (hb : st.bits = true :: rest) (h8 : 8 ≤ rest.length)
    (hc : st.cnt < 511) :
    Parsed st { bits := rest.drop 8, pos := st.pos + 9, cnt := st.cnt + 1, leaves := st.leaves + 1,
                node := nodePut st.node st.cnt (loadedLeaf (byteOf (rest.take 8))) }
      (.leaf st.cnt (byteOf (rest.take 8))) := by
  have hd : bin8 (byteOf (rest.take 8)) = rest.take 8 := by
    obtain ⟨b7, b6, b5, b4, b3, b2, b1, b0, r, rfl⟩ := exists_eight h8
    exact bin8_byteOf _ _ _ _ _ _ _ _
  refine ⟨rfl, ?_, ?_, rfl, rfl, rfl, ?_, ?_, ?_, by simpa using hc⟩
  · simp [hb, serialize, hd]
  · simp [serialize]
  · simp [HoldsTree, nodeAt_nodePut_same _ _ hc, loadedLeaf]
  · intro j hj; exact nodeAt_nodePut_other _ _ (by simp only at hj; omega)
  · intro j h1 h2
    have : j = st.cnt := by simp only at h2; omega
    subst this
    simp only [nodeAt_nodePut_same _ _ hc]
    exact ⟨loadedLeaf_tidy _, rfl⟩

/-- What the parse answers at an internal node, from its two subtrees' parses. -/
theorem parsed_node {st st₁ st₂ : Loader} {rest : Bits} {l r : Tree} (hb : st.bits = false :: rest)
    (hl : Parsed { st with bits := rest, pos := st.pos + 1, cnt := st.cnt + 1,
                           node := nodePut st.node st.cnt (loadedNode 0 0) } st₁ l)
    (hr : Parsed { st₁ with node := nodePut st₁.node st.cnt (loadedNode l.index 0) } st₂ r) :
    Parsed st { st₂ with node := nodePut st₂.node st.cnt (loadedNode l.index r.index) } (.node st.cnt l r) := by
  have h1 := hl.cnt; have h2 := hr.cnt; have h3 := hr.fits
  have h4 := hl.index; have h5 := hr.index
  simp only at h1 h2 h3 h4 h5
  have hls : 1 ≤ l.size := by have := l.size_leaves; have := l.leaves_pos; omega
  have hrs : 1 ≤ r.size := by have := r.size_leaves; have := r.leaves_pos; omega
  have hc : st.cnt < 511 := by omega
  have hli : ∀ j ∈ l.indices, st.cnt + 1 ≤ j ∧ j < st₁.cnt := by
    intro j hj
    rw [hl.indices, List.mem_range'_1] at hj
    simp only at hj; omega
  have hri : ∀ j ∈ r.indices, st₁.cnt ≤ j ∧ j < st₂.cnt := by
    intro j hj
    rw [hr.indices, List.mem_range'_1] at hj
    simp only at hj; omega
  refine ⟨rfl, ?_, ?_, ?_, ?_, ?_, ?_, ?_, ?_, ?_⟩
  · have e1 := hl.bits; have e2 := hr.bits
    simp only at e1 e2
    simp [hb, serialize, e1, e2]
  · have e1 := hl.pos; have e2 := hr.pos
    simp only at e1 e2
    simp only [serialize, List.length_cons, List.length_append]; omega
  · simp only [Tree.size]; omega
  · have e1 := hl.leaves; have e2 := hr.leaves
    simp only at e1 e2
    simp only [Tree.leaves]; omega
  · rw [Tree.indices, hl.indices, hr.indices, Tree.size]
    simp only
    rw [h1, List.range'_append_1, show 1 + l.size + r.size = (l.size + r.size) + 1 by omega, List.range'_succ]
  · refine ⟨?_, ?_, ?_, ?_, ?_⟩
    · simp [nodeAt_nodePut_same _ _ hc, loadedNode]
    · simp only [nodeAt_nodePut_same _ _ hc, loadedNode]; exact toNat_ofNat9 (by omega)
    · simp only [nodeAt_nodePut_same _ _ hc, loadedNode]; exact toNat_ofNat9 (by omega)
    · refine hl.holds.congr fun j hj => ?_
      have := hli j hj
      rw [nodeAt_nodePut_other _ _ (by omega), hr.others j (.inl (by simp only; omega)),
        nodeAt_nodePut_other _ _ (by omega)]
    · refine hr.holds.congr fun j hj => ?_
      have := hri j hj
      rw [nodeAt_nodePut_other _ _ (by omega)]
  · intro j hj
    simp only at hj
    rw [nodeAt_nodePut_other _ _ (by omega), hr.others j (by simp only; omega),
      nodeAt_nodePut_other _ _ (by omega), hl.others j (by simp only; omega), nodeAt_nodePut_other _ _ (by omega)]
  · intro j hj1 hj2
    simp only at hj2
    by_cases e : j = st.cnt
    · subst e
      simp only [nodeAt_nodePut_same _ _ hc]
      exact ⟨loadedNode_tidy _ _, rfl⟩
    · rw [nodeAt_nodePut_other _ _ e]
      by_cases h : j < st₁.cnt
      · rw [hr.others j (.inl (by simp only; omega)), nodeAt_nodePut_other _ _ e]
        exact hl.entries j (by simp only; omega) h
      · exact hr.entries j (by simp only; omega) hj2
  · exact h3

/-- Every successful parse read a tree (R222 to R224, R228). -/
theorem parse_ok {len fuel i : Nat} {st st' : Loader} (h : parse len fuel st = .ok (i, st')) (hc : st.cnt ≤ 511) :
    i = st.cnt ∧ ∃ t : Tree, Parsed st st' t := by
  induction fuel generalizing st i st' with
  | zero => simp [parse] at h
  | succ fuel ih =>
    rw [parse] at h
    split at h
    · simp at h
    · next t rest hb =>
      split at h
      · simp at h
      · next hne =>
        cases t with
        | true =>
          rw [if_pos rfl] at h
          rcases splitBits_cases 8 rest with ⟨-, e⟩ | ⟨h8, e⟩
          · simp [e] at h
          · rw [e] at h
            simp only [Except.ok.injEq, Prod.mk.injEq] at h
            obtain ⟨rfl, rfl⟩ := h
            exact ⟨rfl, _, parsed_leaf hb h8 (by omega)⟩
        | false =>
          rw [if_neg (by simp)] at h
          split at h
          · simp at h
          · next l st₁ hl =>
            obtain ⟨el, tl, pl⟩ := ih hl (by simp only; omega)
            split at h
            · simp at h
            · next r st₂ hr =>
              obtain ⟨er, tr, pr⟩ := ih hr (by simpa using pl.fits)
              simp only [Except.ok.injEq, Prod.mk.injEq] at h
              obtain ⟨rfl, rfl⟩ := h
              have e1 : l = tl.index := by rw [el, pl.index]
              have e2 : r = tr.index := by rw [er, pr.index]
              rw [e1] at pr ⊢
              rw [e2]
              exact ⟨rfl, _, parsed_node hb pl pr⟩

/-! ## Completeness -/

/-- The parse reads back every serialized tree that fits (R229). -/
theorem parse_serialize (len : Nat) {t : Tree} {fuel : Nat} {st : Loader} {rest : Bits}
    (hb : st.bits = serialize t ++ rest) (hc : st.cnt + t.size ≤ 511) (hf : t.levels ≤ fuel) :
    ∃ i st', parse len fuel st = .ok (i, st') ∧ st'.bits = rest ∧ st'.cnt = st.cnt + t.size := by
  induction t generalizing fuel st rest with
  | leaf j b =>
    obtain ⟨fuel, rfl⟩ : ∃ f, fuel = f + 1 := ⟨fuel - 1, by simp only [Tree.levels] at hf; omega⟩
    simp only [Tree.size] at hc
    simp only [serialize, List.cons_append] at hb
    have hp : parse len (fuel + 1) st = .ok (st.cnt,
        { bits := rest, pos := st.pos + 9, cnt := st.cnt + 1, leaves := st.leaves + 1,
          node := nodePut st.node st.cnt (loadedLeaf (byteOf (bin8 b))) }) := by
      rw [parse, hb]
      simp only
      rw [if_neg (by omega), if_pos trivial, show (8 : Nat) = (bin8 b).length from rfl, splitBits_append]
    exact ⟨_, _, hp, rfl, rfl⟩
  | node j l r hl hr =>
    obtain ⟨fuel, rfl⟩ : ∃ f, fuel = f + 1 := ⟨fuel - 1, by simp only [Tree.levels] at hf; omega⟩
    simp only [Tree.size] at hc
    simp only [Tree.levels] at hf
    simp only [serialize, List.cons_append, List.append_assoc] at hb
    obtain ⟨i₁, st₁, h1, b1, c1⟩ := hl (fuel := fuel) (rest := serialize r ++ rest)
      (st := { st with bits := serialize l ++ (serialize r ++ rest), pos := st.pos + 1, cnt := st.cnt + 1,
                       node := nodePut st.node st.cnt (loadedNode 0 0) }) rfl (by simp only; omega) (by omega)
    obtain ⟨i₂, st₂, h2, b2, c2⟩ := hr (fuel := fuel) (rest := rest)
      (st := { st₁ with node := nodePut st₁.node st.cnt (loadedNode i₁ 0) }) b1 (by simp only at c1 ⊢; omega) (by omega)
    refine ⟨st.cnt, { st₂ with node := nodePut st₂.node st.cnt (loadedNode i₁ i₂) }, ?_, b2, ?_⟩
    · rw [parse, hb]
      simp only
      rw [if_neg (by omega), if_neg (by simp), h1]
      simp only [h2]
    · simp only at c1 c2 ⊢
      simp only [Tree.size]; omega

/-- The errors of a parse (R225, R226). -/
theorem parse_error {len fuel : Nat} {st : Loader} {c : Cause} (h : parse len fuel st = .error c) :
    c = .corruptTree len ∨ ∃ p, c = .treeTooLarge p := by
  induction fuel generalizing st with
  | zero => rw [parse] at h; cases h; exact .inr ⟨_, rfl⟩
  | succ fuel ih =>
    rw [parse] at h
    split at h
    · cases h; exact .inl rfl
    · next t rest hb =>
      split at h
      · cases h; exact .inr ⟨_, rfl⟩
      · cases t with
        | true =>
          rw [if_pos rfl] at h
          split at h
          · cases h; exact .inl rfl
          · simp at h
        | false =>
          rw [if_neg (by simp)] at h
          split at h
          · next hl => cases h; exact ih hl
          · split at h
            · next hr => cases h; exact ih hr
            · simp at h

/-! ## The whole stream -/

/-- A successful parse of a stream (R222): the tree it begins with, in preorder from index 0. -/
theorem parseStream_ok {bits : Bits} {r : Nat} {st : Loader} (h : parseStream bits = .ok (r, st)) :
    r = 0 ∧ ∃ t : Tree, Parsed { bits := bits, pos := 0, cnt := 0, leaves := 0, node := arenaZero } st t :=
  parse_ok h (by simp)

/-- A stream that begins with a tree of at most 511 nodes parses to an alike tree (R229). -/
theorem parseStream_serialize (t : Tree) (rest : Bits) (h : t.size ≤ 511) :
    ∃ st u, parseStream (serialize t ++ rest) = .ok (0, st) ∧ st.bits = rest ∧ t.alike u = true ∧
      Parsed { bits := serialize t ++ rest, pos := 0, cnt := 0, leaves := 0, node := arenaZero } st u := by
  have hlev : t.levels ≤ 512 := by have := t.levels_le_leaves; have := t.size_leaves; omega
  obtain ⟨i, st, hp, hb, hc⟩ := parse_serialize (serialize t ++ rest).length (t := t) (fuel := 512) (rest := rest)
    (st := { bits := serialize t ++ rest, pos := 0, cnt := 0, leaves := 0, node := arenaZero }) rfl (by simpa using h) hlev
  obtain ⟨hi, u, hu⟩ := parse_ok hp (by simp)
  refine ⟨st, u, by rw [parseStream, hp, hi], hb, ?_, hu⟩
  exact (serialize_append_inj hu.bits).1

end Sys2Proof.Machine
end

