-- ==== Sys2Proof/Laws/State.lean ====
section
/-! SUPPORT. What each shared update leaves in each field of the state. -/

namespace Sys2Proof.Machine

/-! ## clearCodes -/

@[simp] theorem clearCodes_cfg (s : State) : (clearCodes s).cfg = s.cfg := rfl
@[simp] theorem clearCodes_cmdw (s : State) : (clearCodes s).cmdw = s.cmdw := rfl
@[simp] theorem clearCodes_busy (s : State) : (clearCodes s).busy = s.busy := rfl
@[simp] theorem clearCodes_done (s : State) : (clearCodes s).done = s.done := rfl
@[simp] theorem clearCodes_error (s : State) : (clearCodes s).error = s.error := rfl
@[simp] theorem clearCodes_treeValid (s : State) : (clearCodes s).treeValid = s.treeValid := rfl
@[simp] theorem clearCodes_codesValid (s : State) : (clearCodes s).codesValid = false := rfl
@[simp] theorem clearCodes_irqEn (s : State) : (clearCodes s).irqEn = s.irqEn := rfl
@[simp] theorem clearCodes_errCode (s : State) : (clearCodes s).errCode = s.errCode := rfl
@[simp] theorem clearCodes_errPos (s : State) : (clearCodes s).errPos = s.errPos := rfl
@[simp] theorem clearCodes_inLen (s : State) : (clearCodes s).inLen = s.inLen := rfl
@[simp] theorem clearCodes_outLen (s : State) : (clearCodes s).outLen = s.outLen := rfl
@[simp] theorem clearCodes_bitpos (s : State) : (clearCodes s).bitpos = s.bitpos := rfl
@[simp] theorem clearCodes_root (s : State) : (clearCodes s).root = s.root := rfl
@[simp] theorem clearCodes_nodeCount (s : State) : (clearCodes s).nodeCount = s.nodeCount := rfl
@[simp] theorem clearCodes_leafCount (s : State) : (clearCodes s).leafCount = s.leafCount := rfl
@[simp] theorem clearCodes_treeBits (s : State) : (clearCodes s).treeBits = s.treeBits := rfl
@[simp] theorem clearCodes_padCount (s : State) : (clearCodes s).padCount = s.padCount := rfl
@[simp] theorem clearCodes_payloadBits (s : State) : (clearCodes s).payloadBits = s.payloadBits := rfl
@[simp] theorem clearCodes_freq (s : State) : (clearCodes s).freq = s.freq := rfl
@[simp] theorem clearCodes_node (s : State) : (clearCodes s).node = s.node := rfl
@[simp] theorem clearCodes_code (s : State) : (clearCodes s).code = codeZero := rfl
@[simp] theorem clearCodes_inBuf (s : State) : (clearCodes s).inBuf = s.inBuf := rfl
@[simp] theorem clearCodes_outBuf (s : State) : (clearCodes s).outBuf = s.outBuf := rfl
@[simp] theorem clearCodes_pending (s : State) : (clearCodes s).pending = s.pending := rfl
@[simp] theorem clearCodes_agenda (s : State) : (clearCodes s).agenda = s.agenda := rfl
@[simp] theorem clearCodes_readLog (s : State) : (clearCodes s).readLog = s.readLog := rfl
@[simp] theorem clearCodes_draws (s : State) : (clearCodes s).draws = s.draws := rfl
@[simp] theorem clearCodes_epoch (s : State) : (clearCodes s).epoch = s.epoch := rfl


/-! ## clearTree -/

@[simp] theorem clearTree_cfg (s : State) : (clearTree s).cfg = s.cfg := rfl
@[simp] theorem clearTree_cmdw (s : State) : (clearTree s).cmdw = s.cmdw := rfl
@[simp] theorem clearTree_busy (s : State) : (clearTree s).busy = s.busy := rfl
@[simp] theorem clearTree_done (s : State) : (clearTree s).done = s.done := rfl
@[simp] theorem clearTree_error (s : State) : (clearTree s).error = s.error := rfl
@[simp] theorem clearTree_treeValid (s : State) : (clearTree s).treeValid = false := rfl
@[simp] theorem clearTree_codesValid (s : State) : (clearTree s).codesValid = false := rfl
@[simp] theorem clearTree_irqEn (s : State) : (clearTree s).irqEn = s.irqEn := rfl
@[simp] theorem clearTree_errCode (s : State) : (clearTree s).errCode = s.errCode := rfl
@[simp] theorem clearTree_errPos (s : State) : (clearTree s).errPos = s.errPos := rfl
@[simp] theorem clearTree_inLen (s : State) : (clearTree s).inLen = s.inLen := rfl
@[simp] theorem clearTree_outLen (s : State) : (clearTree s).outLen = s.outLen := rfl
@[simp] theorem clearTree_bitpos (s : State) : (clearTree s).bitpos = s.bitpos := rfl
@[simp] theorem clearTree_root (s : State) : (clearTree s).root = 0 := rfl
@[simp] theorem clearTree_nodeCount (s : State) : (clearTree s).nodeCount = 0 := rfl
@[simp] theorem clearTree_leafCount (s : State) : (clearTree s).leafCount = 0 := rfl
@[simp] theorem clearTree_treeBits (s : State) : (clearTree s).treeBits = 0 := rfl
@[simp] theorem clearTree_padCount (s : State) : (clearTree s).padCount = s.padCount := rfl
@[simp] theorem clearTree_payloadBits (s : State) : (clearTree s).payloadBits = s.payloadBits := rfl
@[simp] theorem clearTree_freq (s : State) : (clearTree s).freq = s.freq := rfl
@[simp] theorem clearTree_node (s : State) : (clearTree s).node = arenaZero := rfl
@[simp] theorem clearTree_code (s : State) : (clearTree s).code = codeZero := rfl
@[simp] theorem clearTree_inBuf (s : State) : (clearTree s).inBuf = s.inBuf := rfl
@[simp] theorem clearTree_outBuf (s : State) : (clearTree s).outBuf = s.outBuf := rfl
@[simp] theorem clearTree_pending (s : State) : (clearTree s).pending = s.pending := rfl
@[simp] theorem clearTree_agenda (s : State) : (clearTree s).agenda = s.agenda := rfl
@[simp] theorem clearTree_readLog (s : State) : (clearTree s).readLog = s.readLog := rfl
@[simp] theorem clearTree_draws (s : State) : (clearTree s).draws = s.draws := rfl
@[simp] theorem clearTree_epoch (s : State) : (clearTree s).epoch = s.epoch := rfl


/-! ## issue -/

@[simp] theorem issue_cfg (w : Word) (s : State) : (issue w s).cfg = s.cfg := rfl
@[simp] theorem issue_cmdw (w : Word) (s : State) : (issue w s).cmdw = w := rfl
@[simp] theorem issue_busy (w : Word) (s : State) : (issue w s).busy = true := rfl
@[simp] theorem issue_done (w : Word) (s : State) : (issue w s).done = false := rfl
@[simp] theorem issue_error (w : Word) (s : State) : (issue w s).error = false := rfl
@[simp] theorem issue_treeValid (w : Word) (s : State) : (issue w s).treeValid = s.treeValid := rfl
@[simp] theorem issue_codesValid (w : Word) (s : State) : (issue w s).codesValid = s.codesValid := rfl
@[simp] theorem issue_irqEn (w : Word) (s : State) : (issue w s).irqEn = s.irqEn := rfl
@[simp] theorem issue_errCode (w : Word) (s : State) : (issue w s).errCode = 0 := rfl
@[simp] theorem issue_errPos (w : Word) (s : State) : (issue w s).errPos = 0 := rfl
@[simp] theorem issue_inLen (w : Word) (s : State) : (issue w s).inLen = s.inLen := rfl
@[simp] theorem issue_outLen (w : Word) (s : State) : (issue w s).outLen = s.outLen := rfl
@[simp] theorem issue_bitpos (w : Word) (s : State) : (issue w s).bitpos = s.bitpos := rfl
@[simp] theorem issue_root (w : Word) (s : State) : (issue w s).root = s.root := rfl
@[simp] theorem issue_nodeCount (w : Word) (s : State) : (issue w s).nodeCount = s.nodeCount := rfl
@[simp] theorem issue_leafCount (w : Word) (s : State) : (issue w s).leafCount = s.leafCount := rfl
@[simp] theorem issue_treeBits (w : Word) (s : State) : (issue w s).treeBits = s.treeBits := rfl
@[simp] theorem issue_padCount (w : Word) (s : State) : (issue w s).padCount = s.padCount := rfl
@[simp] theorem issue_payloadBits (w : Word) (s : State) : (issue w s).payloadBits = s.payloadBits := rfl
@[simp] theorem issue_freq (w : Word) (s : State) : (issue w s).freq = s.freq := rfl
@[simp] theorem issue_node (w : Word) (s : State) : (issue w s).node = s.node := rfl
@[simp] theorem issue_code (w : Word) (s : State) : (issue w s).code = s.code := rfl
@[simp] theorem issue_inBuf (w : Word) (s : State) : (issue w s).inBuf = s.inBuf := rfl
@[simp] theorem issue_outBuf (w : Word) (s : State) : (issue w s).outBuf = s.outBuf := rfl
@[simp] theorem issue_pending (w : Word) (s : State) : (issue w s).pending = some w := rfl
@[simp] theorem issue_agenda (w : Word) (s : State) : (issue w s).agenda = s.agenda := rfl
@[simp] theorem issue_readLog (w : Word) (s : State) : (issue w s).readLog = s.readLog := rfl
@[simp] theorem issue_draws (w : Word) (s : State) : (issue w s).draws = s.draws := rfl
@[simp] theorem issue_epoch (w : Word) (s : State) : (issue w s).epoch = s.epoch := rfl


/-! ## idle -/

@[simp] theorem idle_cfg (s : State) : (idle s).cfg = s.cfg := rfl
@[simp] theorem idle_cmdw (s : State) : (idle s).cmdw = s.cmdw := rfl
@[simp] theorem idle_busy (s : State) : (idle s).busy = false := rfl
@[simp] theorem idle_done (s : State) : (idle s).done = s.done := rfl
@[simp] theorem idle_error (s : State) : (idle s).error = s.error := rfl
@[simp] theorem idle_treeValid (s : State) : (idle s).treeValid = s.treeValid := rfl
@[simp] theorem idle_codesValid (s : State) : (idle s).codesValid = s.codesValid := rfl
@[simp] theorem idle_irqEn (s : State) : (idle s).irqEn = s.irqEn := rfl
@[simp] theorem idle_errCode (s : State) : (idle s).errCode = s.errCode := rfl
@[simp] theorem idle_errPos (s : State) : (idle s).errPos = s.errPos := rfl
@[simp] theorem idle_inLen (s : State) : (idle s).inLen = s.inLen := rfl
@[simp] theorem idle_outLen (s : State) : (idle s).outLen = s.outLen := rfl
@[simp] theorem idle_bitpos (s : State) : (idle s).bitpos = s.bitpos := rfl
@[simp] theorem idle_root (s : State) : (idle s).root = s.root := rfl
@[simp] theorem idle_nodeCount (s : State) : (idle s).nodeCount = s.nodeCount := rfl
@[simp] theorem idle_leafCount (s : State) : (idle s).leafCount = s.leafCount := rfl
@[simp] theorem idle_treeBits (s : State) : (idle s).treeBits = s.treeBits := rfl
@[simp] theorem idle_padCount (s : State) : (idle s).padCount = s.padCount := rfl
@[simp] theorem idle_payloadBits (s : State) : (idle s).payloadBits = s.payloadBits := rfl
@[simp] theorem idle_freq (s : State) : (idle s).freq = s.freq := rfl
@[simp] theorem idle_node (s : State) : (idle s).node = s.node := rfl
@[simp] theorem idle_code (s : State) : (idle s).code = s.code := rfl
@[simp] theorem idle_inBuf (s : State) : (idle s).inBuf = s.inBuf := rfl
@[simp] theorem idle_outBuf (s : State) : (idle s).outBuf = s.outBuf := rfl
@[simp] theorem idle_pending (s : State) : (idle s).pending = none := rfl
@[simp] theorem idle_agenda (s : State) : (idle s).agenda = s.agenda := rfl
@[simp] theorem idle_readLog (s : State) : (idle s).readLog = s.readLog := rfl
@[simp] theorem idle_draws (s : State) : (idle s).draws = s.draws := rfl
@[simp] theorem idle_epoch (s : State) : (idle s).epoch = s.epoch := rfl


/-! ## complete -/

@[simp] theorem complete_cfg (s : State) : (complete s).cfg = s.cfg := rfl
@[simp] theorem complete_cmdw (s : State) : (complete s).cmdw = s.cmdw := rfl
@[simp] theorem complete_busy (s : State) : (complete s).busy = false := rfl
@[simp] theorem complete_done (s : State) : (complete s).done = true := rfl
@[simp] theorem complete_error (s : State) : (complete s).error = s.error := rfl
@[simp] theorem complete_treeValid (s : State) : (complete s).treeValid = s.treeValid := rfl
@[simp] theorem complete_codesValid (s : State) : (complete s).codesValid = s.codesValid := rfl
@[simp] theorem complete_irqEn (s : State) : (complete s).irqEn = s.irqEn := rfl
@[simp] theorem complete_errCode (s : State) : (complete s).errCode = s.errCode := rfl
@[simp] theorem complete_errPos (s : State) : (complete s).errPos = s.errPos := rfl
@[simp] theorem complete_inLen (s : State) : (complete s).inLen = s.inLen := rfl
@[simp] theorem complete_outLen (s : State) : (complete s).outLen = s.outLen := rfl
@[simp] theorem complete_bitpos (s : State) : (complete s).bitpos = s.bitpos := rfl
@[simp] theorem complete_root (s : State) : (complete s).root = s.root := rfl
@[simp] theorem complete_nodeCount (s : State) : (complete s).nodeCount = s.nodeCount := rfl
@[simp] theorem complete_leafCount (s : State) : (complete s).leafCount = s.leafCount := rfl
@[simp] theorem complete_treeBits (s : State) : (complete s).treeBits = s.treeBits := rfl
@[simp] theorem complete_padCount (s : State) : (complete s).padCount = s.padCount := rfl
@[simp] theorem complete_payloadBits (s : State) : (complete s).payloadBits = s.payloadBits := rfl
@[simp] theorem complete_freq (s : State) : (complete s).freq = s.freq := rfl
@[simp] theorem complete_node (s : State) : (complete s).node = s.node := rfl
@[simp] theorem complete_code (s : State) : (complete s).code = s.code := rfl
@[simp] theorem complete_inBuf (s : State) : (complete s).inBuf = s.inBuf := rfl
@[simp] theorem complete_outBuf (s : State) : (complete s).outBuf = s.outBuf := rfl
@[simp] theorem complete_pending (s : State) : (complete s).pending = none := rfl
@[simp] theorem complete_agenda (s : State) : (complete s).agenda = s.agenda := rfl
@[simp] theorem complete_readLog (s : State) : (complete s).readLog = s.readLog := rfl
@[simp] theorem complete_draws (s : State) : (complete s).draws = s.draws := rfl
@[simp] theorem complete_epoch (s : State) : (complete s).epoch = s.epoch := rfl


/-! ## acknowledge -/

@[simp] theorem acknowledge_cfg (v : Word) (s : State) : (acknowledge v s).cfg = s.cfg := rfl
@[simp] theorem acknowledge_cmdw (v : Word) (s : State) : (acknowledge v s).cmdw = s.cmdw := rfl
@[simp] theorem acknowledge_busy (v : Word) (s : State) : (acknowledge v s).busy = s.busy := rfl
@[simp] theorem acknowledge_done (v : Word) (s : State) : (acknowledge v s).done = (s.done && !v.getLsbD 1) := rfl
@[simp] theorem acknowledge_error (v : Word) (s : State) : (acknowledge v s).error = (s.error && !v.getLsbD 2) := rfl
@[simp] theorem acknowledge_treeValid (v : Word) (s : State) : (acknowledge v s).treeValid = s.treeValid := rfl
@[simp] theorem acknowledge_codesValid (v : Word) (s : State) : (acknowledge v s).codesValid = s.codesValid := rfl
@[simp] theorem acknowledge_irqEn (v : Word) (s : State) : (acknowledge v s).irqEn = s.irqEn := rfl
@[simp] theorem acknowledge_errCode (v : Word) (s : State) : (acknowledge v s).errCode = s.errCode := rfl
@[simp] theorem acknowledge_errPos (v : Word) (s : State) : (acknowledge v s).errPos = s.errPos := rfl
@[simp] theorem acknowledge_inLen (v : Word) (s : State) : (acknowledge v s).inLen = s.inLen := rfl
@[simp] theorem acknowledge_outLen (v : Word) (s : State) : (acknowledge v s).outLen = s.outLen := rfl
@[simp] theorem acknowledge_bitpos (v : Word) (s : State) : (acknowledge v s).bitpos = s.bitpos := rfl
@[simp] theorem acknowledge_root (v : Word) (s : State) : (acknowledge v s).root = s.root := rfl
@[simp] theorem acknowledge_nodeCount (v : Word) (s : State) : (acknowledge v s).nodeCount = s.nodeCount := rfl
@[simp] theorem acknowledge_leafCount (v : Word) (s : State) : (acknowledge v s).leafCount = s.leafCount := rfl
@[simp] theorem acknowledge_treeBits (v : Word) (s : State) : (acknowledge v s).treeBits = s.treeBits := rfl
@[simp] theorem acknowledge_padCount (v : Word) (s : State) : (acknowledge v s).padCount = s.padCount := rfl
@[simp] theorem acknowledge_payloadBits (v : Word) (s : State) : (acknowledge v s).payloadBits = s.payloadBits := rfl
@[simp] theorem acknowledge_freq (v : Word) (s : State) : (acknowledge v s).freq = s.freq := rfl
@[simp] theorem acknowledge_node (v : Word) (s : State) : (acknowledge v s).node = s.node := rfl
@[simp] theorem acknowledge_code (v : Word) (s : State) : (acknowledge v s).code = s.code := rfl
@[simp] theorem acknowledge_inBuf (v : Word) (s : State) : (acknowledge v s).inBuf = s.inBuf := rfl
@[simp] theorem acknowledge_outBuf (v : Word) (s : State) : (acknowledge v s).outBuf = s.outBuf := rfl
@[simp] theorem acknowledge_pending (v : Word) (s : State) : (acknowledge v s).pending = s.pending := rfl
@[simp] theorem acknowledge_agenda (v : Word) (s : State) : (acknowledge v s).agenda = s.agenda := rfl
@[simp] theorem acknowledge_readLog (v : Word) (s : State) : (acknowledge v s).readLog = s.readLog := rfl
@[simp] theorem acknowledge_draws (v : Word) (s : State) : (acknowledge v s).draws = s.draws := rfl
@[simp] theorem acknowledge_epoch (v : Word) (s : State) : (acknowledge v s).epoch = s.epoch := rfl


/-! ## takeError -/

/-- The fields that no error class writes. -/
theorem classEffects_frame (k : ErrClass) (s : State) :
    (classEffects k s).cfg = s.cfg ∧ (classEffects k s).cmdw = s.cmdw ∧ (classEffects k s).done = s.done ∧
    (classEffects k s).irqEn = s.irqEn ∧ (classEffects k s).inLen = s.inLen ∧ (classEffects k s).bitpos = s.bitpos ∧
    (classEffects k s).freq = s.freq ∧ (classEffects k s).inBuf = s.inBuf ∧ (classEffects k s).outBuf = s.outBuf ∧
    (classEffects k s).agenda = s.agenda ∧ (classEffects k s).readLog = s.readLog ∧
    (classEffects k s).draws = s.draws ∧ (classEffects k s).epoch = s.epoch := by
  cases k <;> exact ⟨rfl, rfl, rfl, rfl, rfl, rfl, rfl, rfl, rfl, rfl, rfl, rfl, rfl⟩

@[simp] theorem takeError_cfg (c : Cause) (s : State) : (takeError c s).cfg = s.cfg := by
  cases c <;> rfl

@[simp] theorem takeError_cmdw (c : Cause) (s : State) : (takeError c s).cmdw = s.cmdw := by
  cases c <;> rfl

@[simp] theorem takeError_done (c : Cause) (s : State) : (takeError c s).done = s.done := by
  cases c <;> rfl

@[simp] theorem takeError_irqEn (c : Cause) (s : State) : (takeError c s).irqEn = s.irqEn := by
  cases c <;> rfl

@[simp] theorem takeError_inLen (c : Cause) (s : State) : (takeError c s).inLen = s.inLen := by
  cases c <;> rfl

@[simp] theorem takeError_bitpos (c : Cause) (s : State) : (takeError c s).bitpos = s.bitpos := by
  cases c <;> rfl

@[simp] theorem takeError_freq (c : Cause) (s : State) : (takeError c s).freq = s.freq := by
  cases c <;> rfl

@[simp] theorem takeError_inBuf (c : Cause) (s : State) : (takeError c s).inBuf = s.inBuf := by
  cases c <;> rfl

@[simp] theorem takeError_outBuf (c : Cause) (s : State) : (takeError c s).outBuf = s.outBuf := by
  cases c <;> rfl

@[simp] theorem takeError_agenda (c : Cause) (s : State) : (takeError c s).agenda = s.agenda := by
  cases c <;> rfl

@[simp] theorem takeError_readLog (c : Cause) (s : State) : (takeError c s).readLog = s.readLog := by
  cases c <;> rfl

@[simp] theorem takeError_draws (c : Cause) (s : State) : (takeError c s).draws = s.draws := by
  cases c <;> rfl

@[simp] theorem takeError_epoch (c : Cause) (s : State) : (takeError c s).epoch = s.epoch := by
  cases c <;> rfl

@[simp] theorem takeError_busy (c : Cause) (s : State) : (takeError c s).busy = false := rfl
@[simp] theorem takeError_error (c : Cause) (s : State) : (takeError c s).error = true := rfl
@[simp] theorem takeError_errCode (c : Cause) (s : State) : (takeError c s).errCode = c.code := rfl
@[simp] theorem takeError_errPos (c : Cause) (s : State) : (takeError c s).errPos = c.pos := rfl
@[simp] theorem takeError_pending (c : Cause) (s : State) : (takeError c s).pending = none := rfl

end Sys2Proof.Machine
end

