-- ==== Sys2Proof/Laws/Memory.lean ====
section
/-! SUPPORT. The byte buffers: read after write, and the canonical form. -/

namespace Sys2Proof.Machine

theorem Memory.get_put_same (m : Memory) (k : Nat) (v : Byte) : Memory.get (Memory.put m k v) k = some v := by
  induction m with
  | nil => simp [Memory.put, Memory.get]
  | cons c m ih =>
    obtain ⟨a, b⟩ := c
    by_cases h : k < a
    · simp [Memory.put, Memory.get, h]
    · by_cases h' : k = a
      · simp [Memory.put, Memory.get, h']
      · simp [Memory.put, Memory.get, h, h', ih, show ¬a = k from fun e => h' e.symm]

theorem Memory.get_put_other (m : Memory) {k j : Nat} (v : Byte) (h : j ≠ k) :
    Memory.get (Memory.put m k v) j = Memory.get m j := by
  induction m with
  | nil => simp [Memory.put, Memory.get, h.symm]
  | cons c m ih =>
    obtain ⟨a, b⟩ := c
    by_cases hk : k < a
    · simp [Memory.put, Memory.get, hk, h.symm]
    · by_cases hka : k = a
      · subst hka; simp [Memory.put, Memory.get, h.symm]
      · simp only [Memory.put, hk, hka, if_false, Memory.get, ih]

theorem Memory.get_put (m : Memory) (k j : Nat) (v : Byte) :
    Memory.get (Memory.put m k v) j = if j = k then some v else Memory.get m j := by
  split
  · next h => rw [h, Memory.get_put_same]
  · next h => exact Memory.get_put_other m v h

theorem Memory.above_mono {m : Memory} {i j : Nat} (h : Memory.above j m = true) (hij : i ≤ j) :
    Memory.above i m = true := by
  cases m with
  | nil => rfl
  | cons c m => simp only [Memory.above, Bool.and_eq_true, decide_eq_true_eq] at h ⊢; exact ⟨by omega, h.2⟩

theorem Memory.above_put {m : Memory} {i k : Nat} (v : Byte) (h : Memory.above i m = true) (hik : i < k) :
    Memory.above i (Memory.put m k v) = true := by
  induction m generalizing i with
  | nil => simp [Memory.put, Memory.above, hik]
  | cons c m ih =>
    obtain ⟨a, b⟩ := c
    simp only [Memory.above, Bool.and_eq_true, decide_eq_true_eq] at h
    by_cases hk : k < a
    · simp [Memory.put, hk, Memory.above, hik, h.2]
    · by_cases hka : k = a
      · subst hka; simp [Memory.put, Memory.above, hik, h.2]
      · simp [Memory.put, hk, hka, Memory.above, h.1, ih h.2 (by omega)]

/-- A write keeps the canonical form. -/
theorem Memory.put_wf {m : Memory} (k : Nat) (v : Byte) (h : Memory.wf m = true) :
    Memory.wf (Memory.put m k v) = true := by
  cases m with
  | nil => rfl
  | cons c m =>
    obtain ⟨a, b⟩ := c
    simp only [Memory.wf] at h
    by_cases hk : k < a
    · simp [Memory.put, hk, Memory.wf, Memory.above, h]
    · by_cases hka : k = a
      · subst hka; simp [Memory.put, Memory.wf, h]
      · simp only [Memory.put, hk, hka, if_false, Memory.wf]; exact Memory.above_put v h (by omega)

/-- A write below the capacity keeps a buffer within it. -/
theorem Memory.put_within {m : Memory} {cap k : Nat} (v : Byte) (h : Memory.within cap m = true) (hk : k < cap) :
    Memory.within cap (Memory.put m k v) = true := by
  induction m with
  | nil => simp [Memory.put, Memory.within, hk]
  | cons c m ih =>
    obtain ⟨a, b⟩ := c
    simp only [Memory.within, List.all_cons, Bool.and_eq_true, decide_eq_true_eq] at h ih
    simp only [Memory.put]
    split
    · simp only [Memory.within, List.all_cons, Bool.and_eq_true, decide_eq_true_eq]; exact ⟨hk, h⟩
    · split
      · simp only [Memory.within, List.all_cons, Bool.and_eq_true, decide_eq_true_eq]; exact ⟨hk, h.2⟩
      · simp only [Memory.within, List.all_cons, Bool.and_eq_true, decide_eq_true_eq]; exact ⟨h.1, ih h.2⟩

theorem Memory.putAll_wf {m : Memory} (k : Nat) (vs : List Byte) (h : Memory.wf m = true) :
    Memory.wf (Memory.putAll m k vs) = true := by
  induction vs generalizing m k with
  | nil => exact h
  | cons v vs ih => exact ih (k + 1) (Memory.put_wf k v h)

theorem Memory.putAll_within {m : Memory} {cap : Nat} (k : Nat) (vs : List Byte)
    (h : Memory.within cap m = true) (hk : k + vs.length ≤ cap) :
    Memory.within cap (Memory.putAll m k vs) = true := by
  induction vs generalizing m k with
  | nil => exact h
  | cons v vs ih =>
    simp only [List.length_cons] at hk
    exact ih (k + 1) (Memory.put_within v h (by omega)) (by omega)

/-- What a sequence of writes leaves at an index. -/
theorem Memory.get_putAll (m : Memory) (k : Nat) (vs : List Byte) (j : Nat) :
    Memory.get (Memory.putAll m k vs) j =
      if k ≤ j ∧ j < k + vs.length then vs[j - k]? else Memory.get m j := by
  induction vs generalizing m k with
  | nil => simp [Memory.putAll, show ¬(k ≤ j ∧ j < k) by omega]
  | cons v vs ih =>
    simp only [Memory.putAll, ih, Memory.get_put, List.length_cons]
    by_cases h1 : j = k
    · subst h1; simp
    · by_cases h2 : k + 1 ≤ j ∧ j < k + 1 + vs.length
      · obtain ⟨d, rfl⟩ : ∃ d, j = k + 1 + d := ⟨j - (k + 1), by omega⟩
        rw [if_pos h2, if_pos (by omega), show k + 1 + d - (k + 1) = d by omega, show k + 1 + d - k = d + 1 by omega]
        rfl
      · rw [if_neg h2, if_neg h1, if_neg (by omega)]

theorem Memory.byte_putAll (m : Memory) (k : Nat) (vs : List Byte) (b : Buffer) (epoch j : Nat) :
    Memory.byte (Memory.putAll m k vs) b epoch j =
      if k ≤ j ∧ j < k + vs.length then vs.getD (j - k) 0 else Memory.byte m b epoch j := by
  simp only [Memory.byte, Memory.get_putAll]
  split
  · next h => simp [List.getD, List.getElem?_eq_getElem (show j - k < vs.length by omega)]
  · rfl

theorem Memory.byte_put (m : Memory) (k : Nat) (v : Byte) (b : Buffer) (epoch j : Nat) :
    Memory.byte (Memory.put m k v) b epoch j = if j = k then v else Memory.byte m b epoch j := by
  simp only [Memory.byte, Memory.get_put]; split <;> rfl

end Sys2Proof.Machine
end

