-- ==== Sys2Proof/Laws/Walk.lean ====
section
/-! SUPPORT. The payload of EMIT and the walk of DECODE_PAYLOAD. -/

namespace Sys2Proof.Machine

/-! ## The payload (R250) -/

/-- Where every byte has a code, the payload is the concatenation of the codes. -/
theorem payloadFrom_ok {c : CodeTable} {bytes : List Byte} (k : Nat) (h : ∀ b ∈ bytes, (codeAt c b).len ≠ 0) :
    payloadFrom c k bytes = .ok (bytes.flatMap fun b => (codeAt c b).bits) := by
  induction bytes generalizing k with
  | nil => rfl
  | cons b bs ih =>
    rw [payloadFrom, if_neg (h b (by simp)), ih (k + 1) (fun x hx => h x (by simp [hx]))]
    rfl

/-- Otherwise it names the first byte that has none. -/
theorem payloadFrom_error {c : CodeTable} {bytes : List Byte} {k : Nat} {e : Cause} (h : payloadFrom c k bytes = .error e) :
    ∃ j, j < bytes.length ∧ e = .uncodedSymbol (k + j) ∧ (codeAt c (bytes.getD j 0)).len = 0 ∧
      ∀ i, i < j → (codeAt c (bytes.getD i 0)).len ≠ 0 := by
  induction bytes generalizing k with
  | nil => simp [payloadFrom] at h
  | cons b bs ih =>
    rw [payloadFrom] at h
    split at h
    · next hz => cases h; exact ⟨0, by simp, rfl, hz, by simp⟩
    · next hz =>
      cases hp : payloadFrom c (k + 1) bs with
      | ok p => simp [hp] at h
      | error e' =>
        simp only [hp, Except.error.injEq] at h
        obtain ⟨j, h1, h2, h3, h4⟩ := ih (hp.trans (congrArg _ h))
        refine ⟨j + 1, by simpa using h1, by rw [h2]; congr 1; omega, h3, ?_⟩
        intro i hi
        cases i with
        | zero => exact hz
        | succ i => exact h4 i (by omega)

/-- A payload exists only where every byte has a code. -/
theorem payloadFrom_coded {c : CodeTable} {bytes : List Byte} {k : Nat} {p : Bits} (h : payloadFrom c k bytes = .ok p) :
    ∀ b ∈ bytes, (codeAt c b).len ≠ 0 := by
  induction bytes generalizing k p with
  | nil => simp
  | cons a bs ih =>
    rw [payloadFrom] at h
    split at h
    · simp at h
    · next hz =>
      cases hq : payloadFrom c (k + 1) bs with
      | error e => simp [hq] at h
      | ok q => simp only [List.mem_cons, forall_eq_or_imp]; exact ⟨hz, ih hq⟩

theorem payloadFrom_cases (c : CodeTable) (k : Nat) (bytes : List Byte) :
    ((∀ b ∈ bytes, (codeAt c b).len ≠ 0) ∧ payloadFrom c k bytes = .ok (bytes.flatMap fun b => (codeAt c b).bits)) ∨
    ∃ j, j < bytes.length ∧ payloadFrom c k bytes = .error (.uncodedSymbol (k + j)) ∧
      (codeAt c (bytes.getD j 0)).len = 0 ∧ ∀ i, i < j → (codeAt c (bytes.getD i 0)).len ≠ 0 := by
  cases hp : payloadFrom c k bytes with
  | ok p =>
    have h := payloadFrom_coded hp
    exact .inl ⟨h, by rw [← hp, payloadFrom_ok k h]⟩
  | error e =>
    obtain ⟨j, h1, h2, h3, h4⟩ := payloadFrom_error hp
    exact .inr ⟨j, h1, by rw [h2], h3, h4⟩

/-! ## The walk (R283 to R286) -/

theorem Memory.putAll_append (m : Memory) (k : Nat) (xs ys : List Byte) :
    Memory.putAll m k (xs ++ ys) = Memory.putAll (Memory.putAll m k xs) (k + xs.length) ys := by
  induction xs generalizing m k with
  | nil => rfl
  | cons x xs ih =>
    simp only [List.cons_append, Memory.putAll, ih, List.length_cons]
    rw [show k + 1 + xs.length = k + (xs.length + 1) by omega]

/-- Whatever the walk meets, it has written a sequence of bytes at rising indices from where it stood,
within the capacity; its errors are those of R284 to R286. -/
theorem walkPayload_writes (a : Arena) (root cap : Nat) (bits : Bits) (p : Nat) (w : Walker) (hw : w.n ≤ cap) :
    ∃ bytes : List Byte, (walkPayload a root cap bits p w).1.out = Memory.putAll w.out w.n bytes ∧
      (walkPayload a root cap bits p w).1.n = w.n + bytes.length ∧ w.n + bytes.length ≤ cap ∧
      ∀ e, (walkPayload a root cap bits p w).2 = some e →
        (∃ q, e = .invalidBranch q) ∨ (∃ q, e = .truncatedPayload q) ∨ (∃ q, e = .decodeOverflow q ∧ w.n + bytes.length = cap) := by
  induction bits generalizing p w with
  | nil =>
    refine ⟨[], rfl, rfl, hw, ?_⟩
    intro e he
    rw [walkPayload] at he
    split at he
    · simp at he
    · cases he; exact .inr (.inl ⟨_, rfl⟩)
  | cons b bs ih =>
    have stop : ∀ e : Cause, ((∃ q, e = .invalidBranch q) ∨ (∃ q, e = .truncatedPayload q) ∨
          (∃ q, e = .decodeOverflow q ∧ w.n + ([] : List Byte).length = cap)) →
        ∃ bytes : List Byte, w.out = Memory.putAll w.out w.n bytes ∧ w.n = w.n + bytes.length ∧
          w.n + bytes.length ≤ cap ∧ ∀ x, some e = some x → (∃ q, x = .invalidBranch q) ∨
            (∃ q, x = .truncatedPayload q) ∨ (∃ q, x = .decodeOverflow q ∧ w.n + bytes.length = cap) := by
      intro e he
      refine ⟨[], rfl, rfl, hw, ?_⟩
      intro x hx; cases hx; exact he
    have go : ∀ v cur, w.n ≠ cap → ∃ bytes : List Byte,
        (walkPayload a root cap bs (p + 1) { cur := cur, n := w.n + 1, out := Memory.put w.out w.n v }).1.out
            = Memory.putAll w.out w.n bytes ∧
        (walkPayload a root cap bs (p + 1) { cur := cur, n := w.n + 1, out := Memory.put w.out w.n v }).1.n
            = w.n + bytes.length ∧ w.n + bytes.length ≤ cap ∧
        ∀ e, (walkPayload a root cap bs (p + 1) { cur := cur, n := w.n + 1, out := Memory.put w.out w.n v }).2 = some e →
          (∃ q, e = .invalidBranch q) ∨ (∃ q, e = .truncatedPayload q) ∨
            (∃ q, e = .decodeOverflow q ∧ w.n + bytes.length = cap) := by
      intro v cur hne
      obtain ⟨bytes, h1, h2, h3, h4⟩ := ih (p + 1) { cur := cur, n := w.n + 1, out := Memory.put w.out w.n v }
        (by simp only; omega)
      simp only at h1 h2 h3 h4
      refine ⟨v :: bytes, h1, by rw [h2, List.length_cons]; omega, by rw [List.length_cons]; omega, ?_⟩
      intro e he
      rcases h4 e he with h | h | ⟨q, h, h'⟩
      · exact .inl h
      · exact .inr (.inl h)
      · exact .inr (.inr ⟨q, h, by rw [List.length_cons]; omega⟩)
    rw [walkPayload]
    split
    · split
      · exact stop _ (.inl ⟨_, rfl⟩)
      · by_cases hn : w.n = cap
        · simp only [emitByte, if_pos hn]
          exact stop _ (.inr (.inr ⟨_, rfl, by simpa using hn⟩))
        · simp only [emitByte, if_neg hn]
          exact go _ _ hn
    · split
      · by_cases hn : w.n = cap
        · simp only [emitByte, if_pos hn]
          exact stop _ (.inr (.inr ⟨_, rfl, by simpa using hn⟩))
        · simp only [emitByte, if_neg hn]
          exact go _ _ hn
      · exact ih (p + 1) { w with cur := childOf a w.cur b } hw

/-- Along the digits that lead to a leaf, the walk emits the leaf's symbol and is back at the root (R283). -/
theorem walkPayload_follow {a : Arena} {root cap : Nat} (hroot : (nodeAt a root).kind = false) {t : Tree} {d : Bits}
    {v : Byte} (hd : t.follow d = some v) (hne : d ≠ []) (ht : HoldsTree a t) (bs : Bits) (p : Nat) (w : Walker)
    (hcur : w.cur = t.index) (hn : w.n < cap) :
    walkPayload a root cap (d ++ bs) p w =
      walkPayload a root cap bs (p + d.length) { cur := root, n := w.n + 1, out := Memory.put w.out w.n v } := by
  induction t generalizing d p w with
  | leaf i s => cases d with
    | nil => exact absurd rfl hne
    | cons x d => simp [Tree.follow] at hd
  | node i l r hl hr =>
    cases d with
    | nil => exact absurd rfl hne
    | cons x d =>
      obtain ⟨h1, h2, h3, h4, h5⟩ := ht
      have key : ∀ u : Tree, HoldsTree a u → u.follow d = some v → childOf a w.cur x = u.index →
          (d ≠ [] → ∀ q w', w'.cur = u.index → w'.n = w.n → w'.out = w.out → walkPayload a root cap (d ++ bs) q w' =
            walkPayload a root cap bs (q + d.length) { cur := root, n := w.n + 1, out := Memory.put w.out w.n v }) →
          walkPayload a root cap (x :: d ++ bs) p w =
            walkPayload a root cap bs (p + (x :: d).length) { cur := root, n := w.n + 1, out := Memory.put w.out w.n v } := by
        intro u hu hf hc hrec
        rw [List.cons_append, walkPayload, if_neg (by simp [hroot]), hc]
        cases u with
        | leaf j s =>
          cases d with
          | cons y d => simp [Tree.follow] at hf
          | nil =>
            simp only [Tree.follow, Option.some.injEq] at hf
            obtain ⟨k1, k2⟩ := hu
            simp only [Tree.index, k1, if_pos, emitByte, if_neg (show ¬w.n = cap by omega), k2, hf]
            rfl
        | node j l' r' =>
          have hk : (nodeAt a (Tree.node j l' r').index).kind = false := hu.1
          rw [if_neg (by simp [hk])]
          have hdne : d ≠ [] := by rintro rfl; simp [Tree.follow] at hf
          rw [hrec hdne (p + 1) { w with cur := (Tree.node j l' r').index } rfl rfl rfl, List.length_cons]
          congr 1; omega
      simp only [Tree.follow] at hd
      cases x with
      | true =>
        refine key r h5 (by simpa using hd) ?_ ?_
        · rw [hcur]; exact h3
        · intro hdne q w' e1 e2 e3
          rw [hr (by simpa using hd) hdne h5 q w' e1 (by omega), e2, e3]
      | false =>
        refine key l h4 (by simpa using hd) ?_ ?_
        · rw [hcur]; exact h2
        · intro hdne q w' e1 e2 e3
          rw [hl (by simpa using hd) hdne h4 q w' e1 (by omega), e2, e3]

/-- One code word of the tree (R283), or `0` for a single leaf (R284): the walk emits its symbol and is
back at the root. -/
theorem walkPayload_word {a : Arena} {root cap : Nat} {t : Tree} (ht : HoldsTree a t) (hroot : t.index = root)
    {b : Byte} {d : Bits} (hd : t.follow d = some b) (rest : Bits) (p : Nat) (w : Walker) (hcur : w.cur = root)
    (hn : w.n < cap) :
    walkPayload a root cap (leafCode d ++ rest) p w =
      walkPayload a root cap rest (p + (leafCode d).length) { cur := root, n := w.n + 1, out := Memory.put w.out w.n b } := by
  cases t with
  | leaf i s =>
    cases d with
    | cons x d => simp [Tree.follow] at hd
    | nil =>
      simp only [Tree.follow, Option.some.injEq] at hd
      obtain ⟨k1, k2⟩ := ht
      simp only [Tree.index] at hroot
      subst hroot
      obtain ⟨c, n, o⟩ := w
      simp only at hcur hn
      rw [leafCode_nil]
      simp only [List.cons_append, List.nil_append, walkPayload, k1, if_true, Bool.false_eq_true, if_false, emitByte,
        if_neg (show ¬n = cap by omega), k2, hd, List.length_cons, List.length_nil, hcur]
  | node i l r =>
    have hdne : d ≠ [] := by rintro rfl; simp [Tree.follow] at hd
    rw [leafCode_of_ne hdne]
    exact walkPayload_follow (by rw [← hroot]; exact ht.1) hd hdne ht _ _ _ (by rw [hcur, hroot]) hn

/-- The walk over a sequence of code words emits their symbols and is back at the root (R283, R284). -/
theorem walkPayload_words {a : Arena} {root cap : Nat} {t : Tree} (ht : HoldsTree a t) (hroot : t.index = root)
    (ps : List (Byte × Bits)) (hps : ∀ q ∈ ps, t.follow q.2 = some q.1) (rest : Bits) (p : Nat) (w : Walker)
    (hcur : w.cur = root) (hn : w.n + ps.length ≤ cap) :
    walkPayload a root cap (wordsOf ps ++ rest) p w =
      walkPayload a root cap rest (p + (wordsOf ps).length)
        { cur := root, n := w.n + ps.length, out := Memory.putAll w.out w.n (ps.map Prod.fst) } := by
  induction ps generalizing p w with
  | nil =>
    obtain ⟨c, n, o⟩ := w
    simp only at hcur
    simp [wordsOf, Memory.putAll, hcur]
  | cons q qs ih =>
    simp only [List.length_cons] at hn
    obtain ⟨b, d⟩ := q
    have hd := hps (b, d) (by simp)
    have e : wordsOf ((b, d) :: qs) ++ rest = leafCode d ++ (wordsOf qs ++ rest) := by simp [wordsOf]
    rw [e, walkPayload_word ht hroot hd _ p w hcur (by omega),
      ih (fun x hx => hps x (by simp [hx])) _ _ rfl (by simp only; omega)]
    simp only [List.map_cons, Memory.putAll, List.length_cons]
    have l : (wordsOf ((b, d) :: qs)).length = (leafCode d).length + (wordsOf qs).length := by simp [wordsOf]
    rw [l]
    congr 1
    · omega
    · congr 1; omega

end Sys2Proof.Machine
end

