-- ==== Sys2Proof/Laws/Exec.lean ====
section
/-! SUPPORT. What the commands do, one lemma for each pseudocode, and what a step can do. -/

namespace Sys2Proof.Machine

/-! ## Ends of a command -/

/-- The pseudocode of each command. -/
def bodyOf : Instr → State → Ran
  | .nop           => bodyNop
  | .clear         => bodyClear
  | .freqCount     => bodyFreqCount
  | .treeBuild     => bodyTreeBuild
  | .codeGen       => bodyCodeGen
  | .emit          => bodyEmit
  | .treeLoad      => bodyTreeLoad
  | .decodePayload => bodyDecodePayload
  | .compress      => bodyCompress
  | .decompress    => bodyDecompress

theorem exec_eq_finish (i : Instr) (s : State) : exec i s = finish (bodyOf i s) := by cases i <;> rfl

/-- A command that answers a next state ran to its end or raised. -/
theorem finish_next {r : Ran} {t : State} (h : finish r = .next t) :
    (∃ u, r = .done u ∧ t = complete u) ∨ (∃ c u, r = .raised c u ∧ t = takeError c u) := by
  cases r with
  | done u => simp only [finish, Host.Outcome.next.injEq] at h; exact .inl ⟨u, rfl, h.symm⟩
  | raised c u => simp only [finish, Host.Outcome.next.injEq] at h; exact .inr ⟨c, u, rfl, h.symm⟩
  | stuck f => simp [finish] at h

theorem finish_done (s : State) : finish (.done s) = .next (complete s) := rfl

theorem finish_raised (c : Cause) (s : State) : finish (.raised c s) = .next (takeError c s) := rfl

/-- Completing without error sets DONE and makes the engine idle (R342). -/
theorem complete_eq (s : State) : complete s = { s with done := true, busy := false, pending := none } := rfl

theorem exec_done {i : Instr} {s t : State} (h : bodyOf i s = .done t) : exec i s = .next (complete t) := by
  rw [exec_eq_finish, h]; rfl

theorem exec_raised {i : Instr} {s t : State} {c : Cause} (h : bodyOf i s = .raised c t) :
    exec i s = .next (takeError c t) := by
  rw [exec_eq_finish, h]; rfl

/-! ## A raise, by class (R347 to R350) -/

theorem takeError_precondition {c : Cause} (s : State) (h : c.cls = .precondition) :
    takeError c s = raisedWith c.code c.pos s := by
  rw [takeError, h]; rfl

theorem takeError_emitData {c : Cause} (s : State) (h : c.cls = .emitData) :
    takeError c s = raisedWith c.code c.pos { s with outLen := 0, padCount := 0, payloadBits := 0 } := by
  rw [takeError, h]; rfl

theorem takeError_treeData {c : Cause} (s : State) (h : c.cls = .treeData) :
    takeError c s = raisedWith c.code c.pos { clearTree s with outLen := 0 } := by
  rw [takeError, h]; rfl

theorem takeError_decodeData {c : Cause} (s : State) (h : c.cls = .decodeData) :
    takeError c s = raisedWith c.code c.pos { s with outLen := 0, padCount := 0, payloadBits := 0 } := by
  rw [takeError, h]; rfl

/-! ## Operands -/

theorem inLenOk_iff (s : State) : inLenOk s = true ↔ s.inLen.toNat ≤ s.cfg.inCap := by simp [inLenOk]

theorem inLenOk_false_iff (s : State) : inLenOk s = false ↔ s.cfg.inCap < s.inLen.toNat := by simp [inLenOk]

theorem inCap_le (p : Params) : 1 ≤ p.inCap ∧ p.inCap ≤ 2 ^ 28 := by
  have := p.inCapPred.isLt; unfold Params.inCap; omega

theorem outCap_le (p : Params) : 1 ≤ p.outCap ∧ p.outCap ≤ 2 ^ 28 := by
  have := p.outCapPred.isLt; unfold Params.outCap; omega

@[simp] theorem length_inBytes (s : State) : (inBytes s).length = s.inLen.toNat := by simp [inBytes]

@[simp] theorem length_outBytes (s : State) : (outBytes s).length = s.outLen.toNat := by simp [outBytes]

@[simp] theorem length_inStream (s : State) : (inStream s).length = 8 * s.inLen.toNat := by simp [inStream]

/-- Commands that agree on IN, IN_LEN and the parameters read the same bytes. -/
theorem inBytes_congr {s t : State} (h1 : t.inBuf = s.inBuf) (h2 : t.inLen = s.inLen) (h3 : t.epoch = s.epoch) :
    inBytes t = inBytes s := by
  simp only [inBytes, h2]
  refine List.map_congr_left fun k _ => ?_
  simp only [inByte, h1, h3]

/-! ## The bodies -/

/-- FREQ_COUNT (R160). -/
theorem bodyFreqCount_done {s : State} (h : s.inLen.toNat ≤ s.cfg.inCap) :
    bodyFreqCount s = .done { s with freq := countBytes (inBytes s) } := by
  rw [bodyFreqCount, if_pos ((inLenOk_iff s).mpr h)]

/-- TREE_BUILD with an empty table (R185). -/
theorem bodyTreeBuild_empty {s : State} (h : ∀ b, freqAt s.freq b = 0) : bodyTreeBuild s = .raised .emptyInput s := by
  have : presentSymbols s.freq = [] := List.eq_nil_iff_forall_not_mem.mpr fun b hb => (mem_presentSymbols _ _).mp hb (h b)
  simp [bodyTreeBuild, this]

/-- TREE_BUILD otherwise (R180, R187, R188): the state it leaves, and the tree that state holds. -/
theorem bodyTreeBuild_done {s : State} {b : Byte} (hb : freqAt s.freq b ≠ 0) :
    ∃ t tr, bodyTreeBuild s = .done t ∧
      t = { clearTree s with
        node := t.node, root := t.root
        nodeCount := BitVec.ofNat 10 (2 * (presentSymbols s.freq).length - 1)
        leafCount := BitVec.ofNat 9 (presentSymbols s.freq).length
        treeBits := BitVec.ofNat 32 (10 * (presentSymbols s.freq).length - 1)
        treeValid := true } ∧
      t.node = (buildArena s.freq (presentSymbols s.freq)).1 ∧
      t.root.toNat = 2 * (presentSymbols s.freq).length - 2 ∧
      TreeHolds t tr ∧ tr.symbols.Perm (presentSymbols s.freq) ∧ Weighed s.freq t.node tr := by
  have hmem : b ∈ presentSymbols s.freq := (mem_presentSymbols _ _).mpr hb
  have hne : presentSymbols s.freq ≠ [] := List.ne_nil_of_mem hmem
  have hn := length_presentSymbols s.freq
  have hpos : 1 ≤ (presentSymbols s.freq).length := List.length_pos_of_mem hmem
  obtain ⟨tr, hq, hB⟩ := buildArena_spec s.freq hn hne
  have hroot := buildArena_root s.freq hn hne
  have hidx : tr.index = 2 * (presentSymbols s.freq).length - 2 := by rw [hq] at hroot; simpa using hroot
  have hsym : tr.symbols.Perm (presentSymbols s.freq) := by simpa using hB.symbols
  have hind : tr.indices.Perm (List.range (2 * (presentSymbols s.freq).length - 1)) := by simpa using hB.cover
  have hleaves : tr.leaves = (presentSymbols s.freq).length := by rw [← tr.length_symbols, hsym.length_eq]
  refine ⟨{ clearTree s with
      node := (buildArena s.freq (presentSymbols s.freq)).1
      root := BitVec.ofNat 9 ((buildArena s.freq (presentSymbols s.freq)).2.headD 0)
      nodeCount := BitVec.ofNat 10 (2 * (presentSymbols s.freq).length - 1)
      leafCount := BitVec.ofNat 9 (presentSymbols s.freq).length
      treeBits := BitVec.ofNat 32 (10 * (presentSymbols s.freq).length - 1)
      treeValid := true }, tr, ?_, rfl, rfl, ?_, ?_, hsym, ?_⟩
  · rw [bodyTreeBuild]; simp only [List.isEmpty_iff, if_neg hne]
  · simp only [hroot, List.headD_cons]
    exact toNat_ofNat9 (by omega)
  · refine ⟨?_, ?_, ?_, ?_, ?_, ?_, ?_, ?_⟩
    · refine currentTree_eq_some.mpr ⟨hB.holds tr (by simp), ?_, ?_⟩
      · simp only [hroot, List.headD_cons]
        rw [toNat_ofNat9 (by omega), hidx]
      · have := tr.levels_le_leaves; omega
    · simp only [BitVec.toNat_ofNat]
      rw [Nat.mod_eq_of_lt (by omega)]; exact hind
    · intro i hi
      simp only [BitVec.toNat_ofNat] at hi
      rw [Nat.mod_eq_of_lt (by omega)] at hi
      exact hB.unused i hi
    · simp only [BitVec.toNat_ofNat]; omega
    · simp only [BitVec.toNat_ofNat]; omega
    · simp only [BitVec.toNat_ofNat]; omega
    · simp only [BitVec.toNat_ofNat]; rw [Nat.mod_eq_of_lt (by omega), Nat.mod_eq_of_lt (by omega)]; omega
    · exact hB.tidy
  · exact hB.weighed tr (by simp)

/-- CODE_GEN of a tree (R200). -/
theorem bodyCodeGen_done {s : State} {t : Tree} (hv : s.treeValid = true) (ht : currentTree s = some t) :
    bodyCodeGen s = .done { s with code := walkCodes t [] codeZero, codesValid := true } := by
  rw [bodyCodeGen, if_pos hv, ht]
  rfl

/-- TREE_LOAD of a stream that begins with a tree that fits (R222, R229). -/
theorem bodyTreeLoad_done {s : State} {t₀ : Tree} {rest : Bits} (hlen : s.inLen.toNat ≤ s.cfg.inCap)
    (hs : inStream s = serialize t₀ ++ rest) (hsize : t₀.size ≤ 511) :
    ∃ t u, bodyTreeLoad s = .done t ∧
      t = { clearTree s with
        node := t.node, root := 0, nodeCount := BitVec.ofNat 10 t₀.size, leafCount := BitVec.ofNat 9 t₀.leaves
        treeBits := BitVec.ofNat 32 (serialize t₀).length, bitpos := BitVec.ofNat 32 (serialize t₀).length
        treeValid := true } ∧
      TreeHolds t u ∧ t₀.alike u = true ∧ u.indices = List.range t₀.size ∧ ∀ i, (nodeAt t.node i).nfreq = 0 := by
  obtain ⟨st, u, hp, hb, hal, hP⟩ := parseStream_serialize t₀ rest hsize
  have hsz : u.size = t₀.size := (Tree.size_alike hal).symm
  have hser : serialize u = serialize t₀ := (serialize_alike hal).symm
  have hl1 := length_serialize u
  have hl2 := length_serialize t₀
  have hlv : u.leaves = t₀.leaves := by rw [hser] at hl1; omega
  have hsl := u.size_leaves
  have hsl₀ := t₀.size_leaves
  have hbits : (serialize t₀).length < 2 ^ 32 := by omega
  have hc : st.cnt = t₀.size := by have := hP.cnt; simp only at this; omega
  have hlf : st.leaves = t₀.leaves := by have := hP.leaves; simp only at this; omega
  have hpos : st.pos = (serialize t₀).length := by have := hP.pos; rw [hser] at this; simpa using this
  have hent : ∀ i, (nodeAt st.node i).tidy ∧ (nodeAt st.node i).nfreq = 0 := by
    intro i
    by_cases h : i < st.cnt
    · exact hP.entries i (by simp) h
    · rw [hP.others i (.inr (by omega)), nodeAt_arenaZero]
      exact ⟨by simp [Node.zero, Node.tidy], rfl⟩
  refine ⟨{ clearTree s with
        node := st.node, root := 0, nodeCount := BitVec.ofNat 10 t₀.size, leafCount := BitVec.ofNat 9 t₀.leaves
        treeBits := BitVec.ofNat 32 (serialize t₀).length, bitpos := BitVec.ofNat 32 (serialize t₀).length
        treeValid := true }, u, ?_, rfl, ?_, hal, ?_, fun i => (hent i).2⟩
  · rw [bodyTreeLoad, if_pos ((inLenOk_iff s).mpr hlen), hs, hp, ← hc, ← hlf, ← hpos]
    rfl
  · refine ⟨?_, ?_, ?_, ?_, ?_, ?_, ?_, ?_⟩
    · refine currentTree_eq_some.mpr ⟨hP.holds, hP.index, ?_⟩
      have := u.levels_le_leaves; omega
    · simp only [BitVec.toNat_ofNat]
      rw [Nat.mod_eq_of_lt (by omega), hP.indices, List.range_eq_range', hsz]
    · intro i hi
      simp only [BitVec.toNat_ofNat] at hi
      rw [Nat.mod_eq_of_lt (by omega)] at hi
      rw [hP.others i (.inr (by omega)), nodeAt_arenaZero]
    · simp only [BitVec.toNat_ofNat]; omega
    · simp only [BitVec.toNat_ofNat]; omega
    · simp only [BitVec.toNat_ofNat]; omega
    · simp only [BitVec.toNat_ofNat]; rw [Nat.mod_eq_of_lt (by omega), Nat.mod_eq_of_lt (by omega)]; omega
    · exact fun i => (hent i).1
  · rw [hP.indices, List.range_eq_range', hsz]

/-- Any TREE_LOAD that ends without error has loaded a tree (R228). -/
theorem bodyTreeLoad_holds {s t : State} (h : bodyTreeLoad s = .done t) : ∃ u, TreeHolds t u := by
  rw [bodyTreeLoad] at h
  split at h
  · next hlen =>
    cases hp : parseStream (inStream s) with
    | error c => simp [hp] at h
    | ok r =>
      obtain ⟨i, st⟩ := r
      obtain ⟨-, u, hP⟩ := parseStream_ok hp
      have hfit := hP.fits
      have hcnt := hP.cnt
      simp only [Nat.zero_add] at hcnt
      obtain ⟨t', u', hd, -, hT, -⟩ := bodyTreeLoad_done (t₀ := u) (rest := st.bits) ((inLenOk_iff s).mp hlen) hP.bits (by omega)
      have : t' = t := by
        have e : bodyTreeLoad s = .done t := by rw [bodyTreeLoad, if_pos hlen]; exact h
        rw [hd] at e; exact Ran.done.inj e
      exact ⟨u', this ▸ hT⟩
  · simp at h

/-- The errors of TREE_LOAD (R225, R226). -/
theorem bodyTreeLoad_raised {s u : State} {c : Cause} (h : bodyTreeLoad s = .raised c u) :
    (c = .badLength s.inLen ∧ u = s ∧ s.cfg.inCap < s.inLen.toNat) ∨
    ((c = .corruptTree (8 * s.inLen.toNat) ∨ ∃ p, c = .treeTooLarge p) ∧ u = clearTree s) := by
  rw [bodyTreeLoad] at h
  split at h
  · cases hp : parseStream (inStream s) with
    | error c' =>
      simp only [hp, Ran.raised.injEq] at h
      obtain ⟨rfl, rfl⟩ := h
      have := parse_error hp
      rw [length_inStream] at this
      exact .inr ⟨this, rfl⟩
    | ok r => obtain ⟨i, st⟩ := r; simp [hp] at h
  · next hl => cases h; exact .inl ⟨rfl, rfl, (inLenOk_false_iff s).mp (by simpa using hl)⟩

/-- EMIT from its checks on (R253). -/
theorem bodyEmit_stream {s : State} {t : Tree} (hlen : s.inLen.toNat ≤ s.cfg.inCap) (hv : s.treeValid = true)
    (hc : s.codesValid = true) (ht : currentTree s = some t) (hcoded : ∀ b ∈ inBytes s, (codeAt s.code b).len ≠ 0) :
    bodyEmit s = emitStream (serialize t) ((inBytes s).flatMap fun b => (codeAt s.code b).bits) s := by
  rw [bodyEmit, if_pos ((inLenOk_iff s).mpr hlen), if_pos hv, if_pos hc, ht]
  simp only [payload, payloadFrom_ok 0 hcoded]

theorem length_streamOf (t p : Bits) : (streamOf t p).length = t.length + 8 + pad t.length p.length + p.length := by
  simp [streamOf]; omega

theorem streamOf_aligned (t p : Bits) : (streamOf t p).length % 8 = 0 := by
  rw [length_streamOf]; exact pad_aligns _ _

/-- The decoder reads the padding that the packer writes (R281, R282). -/
theorem readPadding_written {c p : Nat} (hc : c ≤ 7) (rest : Bits) :
    readPadding p (bin8 (BitVec.ofNat 8 c) ++ zeros c ++ rest) = .ok (c, rest) := by
  have hval : val (bin8 (BitVec.ofNat 8 c)) = c := by
    rw [val_bin8, BitVec.toNat_ofNat, Nat.mod_eq_of_lt (by omega)]
  have hsplit : splitBits 8 (bin8 (BitVec.ofNat 8 c) ++ zeros c ++ rest) = some (bin8 (BitVec.ofNat 8 c), zeros c ++ rest) := by
    have := splitBits_append (bin8 (BitVec.ofNat 8 c)) (zeros c ++ rest)
    rwa [length_bin8, ← List.append_assoc] at this
  have hskip : ∀ k q, skipPad k q (zeros k ++ rest) = .ok rest := by
    intro k
    induction k with
    | zero => intro q; rfl
    | succ k ih => intro q; simpa [zeros, List.replicate_succ, skipPad] using ih (q + 1)
  rw [readPadding, hsplit]
  simp only [hval]
  rw [if_neg (by omega), if_neg (by simp), hskip]

/-! ## A step -/

/-- What a step can do (R342, R94, R380): the engine completes the pending command; the host accesses the
block; a reset; or nothing but the agenda changes. -/
theorem step_cases {s t : State} (h : step s = .next t) :
    (∃ w u, s.pending = some w ∧ u = { s with agenda := u.agenda } ∧ engineStep w u = .next t) ∨
    (∃ a rest, s.agenda = .host a :: rest ∧ hostAccess a { s with agenda := rest } = .next t) ∨
    (∃ rest, s.agenda = .reset :: rest ∧ t = resetBlock { s with agenda := rest }) ∨
    (t = { s with agenda := t.agenda }) := by
  have engine : ∀ u : State, u = { s with agenda := u.agenda } → engineTurn u = .next t →
      (∃ w u, s.pending = some w ∧ u = { s with agenda := u.agenda } ∧ engineStep w u = .next t) ∨
      t = { s with agenda := t.agenda } := by
    intro u hu he
    have hp : u.pending = s.pending := by rw [hu]
    rw [engineTurn, hp] at he
    split at he
    · next w hw => exact .inl ⟨w, u, hw, hu, he⟩
    · simp only [Host.Outcome.next.injEq] at he; exact .inr (he ▸ hu)
  have lift : ∀ {P Q R S : Prop}, (P ∨ S) → P ∨ Q ∨ R ∨ S := fun h => h.elim .inl (fun x => .inr (.inr (.inr x)))
  rw [step] at h
  cases ha : s.agenda with
  | nil => rw [ha, turn] at h; exact lift (engine s (by rfl) h)
  | cons e rest =>
    rw [ha] at h
    cases e with
    | host a => exact .inr (.inl ⟨a, rest, rfl, h⟩)
    | reset => simp only [turn, Host.Outcome.next.injEq] at h; exact .inr (.inr (.inl ⟨rest, rfl, h.symm⟩))
    | engine => exact lift (engine { s with agenda := rest } rfl h)
    | wait =>
      simp only [turn] at h
      split at h
      · exact lift (engine s rfl h)
      · simp only [Host.Outcome.next.injEq] at h; exact .inr (.inr (.inr (by rw [← h])))
    | waitIrq =>
      simp only [turn] at h
      split at h
      · simp only [Host.Outcome.next.injEq] at h; exact .inr (.inr (.inr (by rw [← h])))
      · exact lift (engine s rfl h)

/-- What an engine step can do (R121, R342). -/
theorem engineStep_cases {w : Word} {s t : State} (h : engineStep w s = .next t) :
    (∃ i, decode w = .ok i ∧ exec i s = .next t) ∨ ((∃ e, decode w = .error e) ∧ t = takeError (.illegalCmd w) s) := by
  rw [engineStep] at h
  cases hd : decode w with
  | ok i => rw [hd] at h; exact .inl ⟨i, rfl, h⟩
  | error e =>
    rw [hd] at h
    simp only [execIllegal, finish, Host.Outcome.next.injEq] at h
    exact .inr ⟨⟨e, rfl⟩, h.symm⟩

end Sys2Proof.Machine
end

