-- ==== Sys2Proof/Laws/Commands.lean ====
section
/-! SUPPORT. For each pseudocode, everything it can end in, and what each end changes (R90, R345). -/

namespace Sys2Proof.Machine

/-! ## The ends of each pseudocode -/

theorem bodyFreqCount_cases (s : State) :
    (s.inLen.toNat ≤ s.cfg.inCap ∧ bodyFreqCount s = .done { s with freq := countBytes (inBytes s) }) ∨
    (s.cfg.inCap < s.inLen.toNat ∧ bodyFreqCount s = .raised (.badLength s.inLen) s) := by
  by_cases h : s.inLen.toNat ≤ s.cfg.inCap
  · exact .inl ⟨h, bodyFreqCount_done h⟩
  · exact .inr ⟨by omega, by rw [bodyFreqCount, if_neg (by rw [inLenOk_iff]; exact h)]⟩

/-- TREE_BUILD raises EMPTY_INPUT, or completes with a tree. -/
theorem bodyTreeBuild_cases (s : State) :
    ((∀ b, freqAt s.freq b = 0) ∧ bodyTreeBuild s = .raised .emptyInput s) ∨
    ((∃ b, freqAt s.freq b ≠ 0) ∧ ∃ t tr, bodyTreeBuild s = .done t ∧
      t = { clearTree s with node := t.node, root := t.root, nodeCount := t.nodeCount, leafCount := t.leafCount,
                             treeBits := t.treeBits, treeValid := true } ∧ TreeHolds t tr) := by
  by_cases h : ∀ b, freqAt s.freq b = 0
  · exact .inl ⟨h, bodyTreeBuild_empty h⟩
  · obtain ⟨b, hb⟩ := not_forall.mp h
    obtain ⟨t, tr, h1, h2, -, -, h3, -⟩ := bodyTreeBuild_done hb
    exact .inr ⟨⟨b, hb⟩, t, tr, h1, by rw [h2], h3⟩

theorem bodyCodeGen_cases (s : State) :
    (s.treeValid = false ∧ bodyCodeGen s = .raised .noTree s) ∨
    (s.treeValid = true ∧ currentTree s = none ∧ bodyCodeGen s = .stuck .arenaNotATree) ∨
    (s.treeValid = true ∧ ∃ t, currentTree s = some t ∧
      bodyCodeGen s = .done { s with code := walkCodes t [] codeZero, codesValid := true }) := by
  by_cases hv : s.treeValid = true
  · cases ht : currentTree s with
    | none => exact .inr (.inl ⟨hv, rfl, by rw [bodyCodeGen, if_pos hv, ht]⟩)
    | some t => exact .inr (.inr ⟨hv, t, rfl, bodyCodeGen_done hv ht⟩)
  · exact .inl ⟨by simpa using hv, by rw [bodyCodeGen, if_neg hv]⟩

theorem bodyTreeLoad_cases (s : State) :
    (s.cfg.inCap < s.inLen.toNat ∧ bodyTreeLoad s = .raised (.badLength s.inLen) s) ∨
    (s.inLen.toNat ≤ s.cfg.inCap ∧ ∃ c, bodyTreeLoad s = .raised c (clearTree s) ∧
      (c = .corruptTree (8 * s.inLen.toNat) ∨ ∃ p, c = .treeTooLarge p)) ∨
    (s.inLen.toNat ≤ s.cfg.inCap ∧ ∃ t tr rest, bodyTreeLoad s = .done t ∧
      t = { clearTree s with node := t.node, root := t.root, nodeCount := t.nodeCount, leafCount := t.leafCount,
                             treeBits := t.treeBits, bitpos := t.bitpos, treeValid := true } ∧
      TreeHolds t tr ∧ inStream s = serialize tr ++ rest ∧ t.bitpos = BitVec.ofNat 32 (serialize tr).length) := by
  by_cases hlen : s.inLen.toNat ≤ s.cfg.inCap
  · refine .inr ?_
    cases hp : parseStream (inStream s) with
    | error c =>
      have hb : bodyTreeLoad s = .raised c (clearTree s) := by
        rw [bodyTreeLoad, if_pos ((inLenOk_iff s).mpr hlen), hp]
      refine .inl ⟨hlen, c, hb, ?_⟩
      rcases bodyTreeLoad_raised hb with ⟨-, -, h⟩ | ⟨h, -⟩
      · omega
      · exact h
    | ok r =>
      obtain ⟨i, st⟩ := r
      obtain ⟨-, u, hP⟩ := parseStream_ok hp
      have hfit := hP.fits
      have hcnt := hP.cnt
      simp only [Nat.zero_add] at hcnt
      obtain ⟨t, tr, hd, he, hT, hal, -⟩ := bodyTreeLoad_done (t₀ := u) (rest := st.bits) hlen hP.bits (by omega)
      refine .inr ⟨hlen, t, tr, st.bits, hd, ?_, hT, ?_, ?_⟩
      · rw [he]
      · rw [← serialize_alike hal]; exact hP.bits
      · rw [← serialize_alike hal, he]
  · exact .inl ⟨by omega, by rw [bodyTreeLoad, if_neg (by rw [inLenOk_iff]; exact hlen)]⟩

/-- EMIT from its tree and payload on (R254, R255). -/
theorem emitStream_cases (t p : Bits) (s : State) :
    (s.cfg.outCap < (streamOf t p).length / 8 ∧ emitStream t p s = .raised (.emitOverflow s.cfg.outCap) s) ∨
    ((streamOf t p).length / 8 ≤ s.cfg.outCap ∧ emitStream t p s = .done { s with
      outBuf := Memory.putAll s.outBuf 0 (pack (streamOf t p))
      outLen := BitVec.ofNat 32 ((streamOf t p).length / 8)
      treeBits := BitVec.ofNat 32 t.length
      padCount := BitVec.ofNat 3 (pad t.length p.length)
      payloadBits := BitVec.ofNat 32 p.length }) := by
  by_cases h : s.cfg.outCap < (streamOf t p).length / 8
  · exact .inl ⟨h, by rw [emitStream]; simp only [if_pos h]⟩
  · exact .inr ⟨by omega, by rw [emitStream]; simp only [if_neg h]⟩

/-- The ends of EMIT (R254). -/
theorem bodyEmit_cases (s : State) :
    (s.cfg.inCap < s.inLen.toNat ∧ bodyEmit s = .raised (.badLength s.inLen) s) ∨
    (s.treeValid = false ∧ bodyEmit s = .raised .noTree s) ∨
    (s.codesValid = false ∧ bodyEmit s = .raised .noCodes s) ∨
    (s.treeValid = true ∧ s.codesValid = true ∧ currentTree s = none ∧ bodyEmit s = .stuck .arenaNotATree) ∨
    (∃ k, bodyEmit s = .raised (.uncodedSymbol k) s) ∨
    (s.treeValid = true ∧ s.codesValid = true ∧ ∃ t, currentTree s = some t ∧
      bodyEmit s = emitStream (serialize t) (payloadOf s) s) := by
  by_cases hlen : s.inLen.toNat ≤ s.cfg.inCap
  · by_cases hv : s.treeValid = true
    · by_cases hc : s.codesValid = true
      · cases ht : currentTree s with
        | none =>
          refine .inr (.inr (.inr (.inl ⟨hv, hc, rfl, ?_⟩)))
          rw [bodyEmit, if_pos ((inLenOk_iff s).mpr hlen), if_pos hv, if_pos hc, ht]
        | some t =>
          rcases payloadFrom_cases s.code 0 (inBytes s) with ⟨h, -⟩ | ⟨j, -, h, -⟩
          · exact .inr (.inr (.inr (.inr (.inr ⟨hv, hc, t, rfl, bodyEmit_stream hlen hv hc ht h⟩))))
          · refine .inr (.inr (.inr (.inr (.inl ⟨0 + j, ?_⟩))))
            rw [bodyEmit, if_pos ((inLenOk_iff s).mpr hlen), if_pos hv, if_pos hc, ht]
            simp only [payload, h]
      · refine .inr (.inr (.inl ⟨by simpa using hc, ?_⟩))
        rw [bodyEmit, if_pos ((inLenOk_iff s).mpr hlen), if_pos hv, if_neg hc]
    · refine .inr (.inl ⟨by simpa using hv, ?_⟩)
      rw [bodyEmit, if_pos ((inLenOk_iff s).mpr hlen), if_neg hv]
  · exact .inl ⟨by omega, by rw [bodyEmit, if_neg (by rw [inLenOk_iff]; exact hlen)]⟩

/-- The errors of the pad field and bits (R281, R282). -/
theorem readPadding_error {p : Nat} {bits : Bits} {e : Cause} (h : readPadding p bits = .error e) : ∃ q, e = .badPadding q := by
  have skip : ∀ k q bs c, skipPad k q bs = .error c → ∃ r, c = .badPadding r := by
    intro k
    induction k with
    | zero => intro q bs c h; simp [skipPad] at h
    | succ k ih =>
      intro q bs c h
      cases bs with
      | nil => simp only [skipPad, Except.error.injEq] at h; exact ⟨q, h.symm⟩
      | cons b bs =>
        simp only [skipPad] at h
        split at h
        · cases h; exact ⟨q, rfl⟩
        · exact ih _ _ _ h
  rw [readPadding] at h
  split at h
  · cases h; exact ⟨p, rfl⟩
  · split at h
    · cases h; exact ⟨p, rfl⟩
    · split at h
      · cases h; exact ⟨p + 8, rfl⟩
      · split at h
        · next hs => cases h; exact skip _ _ _ _ hs
        · simp at h

/-- What a decode data error of DECODE_PAYLOAD is (R341, R350). -/
def DecodeCause (c : Cause) : Prop :=
  (∃ q, c = .badPadding q) ∨ (∃ q, c = .invalidBranch q) ∨ (∃ q, c = .truncatedPayload q) ∨ ∃ q, c = .decodeOverflow q

theorem DecodeCause.cls {c : Cause} (h : DecodeCause c) : c.cls = .decodeData := by
  rcases h with ⟨q, rfl⟩ | ⟨q, rfl⟩ | ⟨q, rfl⟩ | ⟨q, rfl⟩ <;> rfl

/-- DECODE_PAYLOAD from its payload on (R280, R287, R350): it has written some bytes from index 0. -/
theorem decodeFrom_cases (c start : Nat) (payload : Bits) (s : State) :
    ∃ bytes : List Byte, bytes.length ≤ s.cfg.outCap ∧
      ((∃ e, DecodeCause e ∧ decodeFrom c start payload s = .raised e { s with outBuf := Memory.putAll s.outBuf 0 bytes }) ∨
       decodeFrom c start payload s = .done { s with
        outBuf := Memory.putAll s.outBuf 0 bytes, outLen := BitVec.ofNat 32 bytes.length, padCount := BitVec.ofNat 3 c
        payloadBits := BitVec.ofNat 32 payload.length, bitpos := BitVec.ofNat 32 (8 * s.inLen.toNat) }) := by
  obtain ⟨bytes, h1, h2, h3, h4⟩ := walkPayload_writes s.node s.root.toNat s.cfg.outCap payload start
    { cur := s.root.toNat, n := 0, out := s.outBuf } (by simp)
  simp only [Nat.zero_add] at h1 h2 h3 h4
  refine ⟨bytes, h3, ?_⟩
  rw [decodeFrom]
  generalize hw : walkPayload s.node s.root.toNat s.cfg.outCap payload start
    { cur := s.root.toNat, n := 0, out := s.outBuf } = r at *
  obtain ⟨w, o⟩ := r
  simp only at h1 h2
  cases o with
  | none => refine .inr ?_; simp only [h1, h2]
  | some e =>
    refine .inl ⟨e, ?_, by simp only [h1]⟩
    rcases h4 e rfl with h | h | ⟨q, h, -⟩
    · exact .inr (.inl h)
    · exact .inr (.inr (.inl h))
    · exact .inr (.inr (.inr ⟨q, h⟩))

/-- The ends of DECODE_PAYLOAD (R280, R287, R347, R350). -/
theorem bodyDecodePayload_cases (s : State) :
    (s.cfg.inCap < s.inLen.toNat ∧ bodyDecodePayload s = .raised (.badLength s.inLen) s) ∨
    (s.treeValid = false ∧ bodyDecodePayload s = .raised .noTree s) ∨
    (8 * s.inLen.toNat < s.bitpos.toNat ∧ bodyDecodePayload s = .raised (.badLength s.bitpos) s) ∨
    (s.treeValid = true ∧ ∃ (bytes : List Byte) (e : Cause), bytes.length ≤ s.cfg.outCap ∧ DecodeCause e ∧
      bodyDecodePayload s = .raised e { s with outBuf := Memory.putAll s.outBuf 0 bytes }) ∨
    (s.treeValid = true ∧ ∃ (bytes : List Byte) (c n : Nat), bytes.length ≤ s.cfg.outCap ∧
      bodyDecodePayload s = .done { s with
        outBuf := Memory.putAll s.outBuf 0 bytes, outLen := BitVec.ofNat 32 bytes.length, padCount := BitVec.ofNat 3 c
        payloadBits := BitVec.ofNat 32 n, bitpos := BitVec.ofNat 32 (8 * s.inLen.toNat) }) := by
  by_cases hlen : s.inLen.toNat ≤ s.cfg.inCap
  · by_cases hv : s.treeValid = true
    · by_cases hp : 8 * s.inLen.toNat < s.bitpos.toNat
      · refine .inr (.inr (.inl ⟨hp, ?_⟩))
        rw [bodyDecodePayload, if_pos ((inLenOk_iff s).mpr hlen), if_pos hv, if_pos hp]
      · refine .inr (.inr (.inr ?_))
        have e0 : bodyDecodePayload s = match readPadding s.bitpos.toNat ((inStream s).drop s.bitpos.toNat) with
            | .error e => .raised e s
            | .ok (c, payload) => decodeFrom c (s.bitpos.toNat + 8 + c) payload s :=
          (if_pos ((inLenOk_iff s).mpr hlen)).trans ((if_pos hv).trans (if_neg hp))
        cases hr : readPadding s.bitpos.toNat ((inStream s).drop s.bitpos.toNat) with
        | error e =>
          rw [hr] at e0
          exact .inl ⟨hv, [], e, by simp, .inl (readPadding_error hr), by rw [e0]; rfl⟩
        | ok r =>
          obtain ⟨c, payload⟩ := r
          rw [hr] at e0
          simp only at e0
          obtain ⟨bytes, h1, ⟨e, h2, h3⟩ | h2⟩ := decodeFrom_cases c (s.bitpos.toNat + 8 + c) payload s
          · exact .inl ⟨hv, bytes, e, h1, h2, by rw [e0, h3]⟩
          · exact .inr ⟨hv, bytes, c, payload.length, h1, by rw [e0, h2]⟩
    · refine .inr (.inl ⟨by simpa using hv, ?_⟩)
      rw [bodyDecodePayload, if_pos ((inLenOk_iff s).mpr hlen), if_neg hv]
  · exact .inl ⟨by omega, by rw [bodyDecodePayload, if_neg (by rw [inLenOk_iff]; exact hlen)]⟩

/-! ## Properties that hold at every end -/

/-- A property of the state in which a pseudocode ends, whether at its end or by a raise. -/
def Ran.all (P : State → Prop) : Ran → Prop
  | .done s     => P s
  | .raised _ s => P s
  | .stuck _    => True

theorem Ran.all_andThen {P : State → Prop} {r : Ran} {f : State → Ran} (hr : r.all P) (hf : ∀ s, P s → (f s).all P) :
    (r.andThen f).all P := by
  cases r with
  | done s => exact hf s hr
  | raised c s => exact hr
  | stuck x => trivial

theorem Ran.all_done {P : State → Prop} {s : State} : (Ran.done s).all P ↔ P s := Iff.rfl

theorem Ran.all_raised {P : State → Prop} {c : Cause} {s : State} : (Ran.raised c s).all P ↔ P s := Iff.rfl

/-- What the four component commands write besides OUT, from the ends above: a property that survives each of
these updates survives every command (R90). -/
structure Survives (P : State → Prop) : Prop where
  freq    : ∀ (s : State) f, P s → P { s with freq := f }
  clear   : ∀ s : State, P s → P (clearTree s)
  tree    : ∀ (s t : State) tr, P s → t = { clearTree s with
              node := t.node, root := t.root, nodeCount := t.nodeCount, leafCount := t.leafCount
              treeBits := t.treeBits, bitpos := t.bitpos, treeValid := true } → TreeHolds t tr → P t
  codes   : ∀ (s : State) t, P s → s.treeValid = true → currentTree s = some t →
              P { s with code := walkCodes t [] codeZero, codesValid := true }
  emitted : ∀ (s : State) t p, P s → s.treeValid = true → currentTree s = some t →
              (streamOf (serialize t) p).length / 8 ≤ s.cfg.outCap → P { s with
                outBuf := Memory.putAll s.outBuf 0 (pack (streamOf (serialize t) p))
                outLen := BitVec.ofNat 32 ((streamOf (serialize t) p).length / 8)
                treeBits := BitVec.ofNat 32 (serialize t).length
                padCount := BitVec.ofNat 3 (pad (serialize t).length p.length)
                payloadBits := BitVec.ofNat 32 p.length }
  wrote   : ∀ (s : State) (bytes : List Byte), P s → bytes.length ≤ s.cfg.outCap →
              P { s with outBuf := Memory.putAll s.outBuf 0 bytes }
  decoded : ∀ (s : State) l c n p, P s → P { s with outLen := l, padCount := c, payloadBits := n, bitpos := p }

theorem Survives.freqCount {P : State → Prop} (h : Survives P) {s : State} (hs : P s) : (bodyFreqCount s).all P := by
  rcases bodyFreqCount_cases s with ⟨-, e⟩ | ⟨-, e⟩ <;> rw [e]
  · exact h.freq s _ hs
  · exact hs

theorem Survives.treeBuild {P : State → Prop} (h : Survives P) {s : State} (hs : P s) : (bodyTreeBuild s).all P := by
  rcases bodyTreeBuild_cases s with ⟨-, e⟩ | ⟨-, t, tr, e, ht, hT⟩ <;> rw [e]
  · exact hs
  · have hb : t.bitpos = s.bitpos := by rw [ht]; rfl
    refine h.tree s t tr hs ?_ hT
    rw [hb]; exact ht

theorem Survives.codeGen {P : State → Prop} (h : Survives P) {s : State} (hs : P s) : (bodyCodeGen s).all P := by
  rcases bodyCodeGen_cases s with ⟨-, e⟩ | ⟨-, -, e⟩ | ⟨hv, t, ht, e⟩ <;> rw [e]
  · exact hs
  · trivial
  · exact h.codes s t hs hv ht

theorem Survives.emit {P : State → Prop} (h : Survives P) {s : State} (hs : P s) : (bodyEmit s).all P := by
  rcases bodyEmit_cases s with ⟨-, e⟩ | ⟨-, e⟩ | ⟨-, e⟩ | ⟨-, -, -, e⟩ | ⟨k, e⟩ | ⟨hv, -, t, ht, e⟩ <;> rw [e]
  · exact hs
  · exact hs
  · exact hs
  · trivial
  · exact hs
  · rcases emitStream_cases (serialize t) (payloadOf s) s with ⟨-, e⟩ | ⟨hc, e⟩ <;> rw [e]
    · exact hs
    · exact h.emitted s t (payloadOf s) hs hv ht hc

theorem Survives.treeLoad {P : State → Prop} (h : Survives P) {s : State} (hs : P s) : (bodyTreeLoad s).all P := by
  rcases bodyTreeLoad_cases s with ⟨-, e⟩ | ⟨-, c, e, -⟩ | ⟨-, t, tr, rest, e, ht, hT, -⟩ <;> rw [e]
  · exact hs
  · exact h.clear s hs
  · exact h.tree s t tr hs ht hT

theorem Survives.decodePayload {P : State → Prop} (h : Survives P) {s : State} (hs : P s) : (bodyDecodePayload s).all P := by
  rcases bodyDecodePayload_cases s with ⟨-, e⟩ | ⟨-, e⟩ | ⟨-, e⟩ | ⟨-, bytes, c, hb, -, e⟩ | ⟨-, bytes, c, n, hb, e⟩ <;> rw [e]
  · exact hs
  · exact hs
  · exact hs
  · exact h.wrote s bytes hs hb
  · exact h.decoded _ _ _ _ _ (h.wrote s bytes hs hb)

/-- A property that survives the updates survives every command's pseudocode. -/
theorem Survives.body {P : State → Prop} (h : Survives P) (i : Instr) {s : State} (hs : P s) : (bodyOf i s).all P := by
  cases i with
  | nop => exact hs
  | clear => exact h.decoded { clearTree s with freq := freqZero } 0 0 0 0 (h.freq (clearTree s) freqZero (h.clear s hs))
  | freqCount => exact h.freqCount hs
  | treeBuild => exact h.treeBuild hs
  | codeGen => exact h.codeGen hs
  | emit => exact h.emit hs
  | treeLoad => exact h.treeLoad hs
  | decodePayload => exact h.decodePayload hs
  | compress =>
    exact Ran.all_andThen (Ran.all_andThen (Ran.all_andThen (h.freqCount hs) fun _ => h.treeBuild) fun _ => h.codeGen)
      fun _ => h.emit
  | decompress => exact Ran.all_andThen (h.treeLoad hs) fun _ => h.decodePayload

theorem Survives.classEffects {P : State → Prop} (h : Survives P) (k : ErrClass) {s : State} (hs : P s) : P (classEffects k s) := by
  cases k with
  | precondition => exact hs
  | emitData => exact h.decoded s 0 0 0 s.bitpos hs
  | treeData => exact h.decoded (clearTree s) 0 s.padCount s.payloadBits s.bitpos (h.clear s hs)
  | decodeData => exact h.decoded s 0 0 0 s.bitpos hs

/-- A property that survives the updates, and does not look at the completion's report, survives every
command (R342). -/
theorem Survives.exec {P : State → Prop} (h : Survives P)
    (hr : ∀ (s : State) d e c p, P s → P { s with done := d, error := e, errCode := c, errPos := p, busy := false, pending := none })
    {i : Instr} {s t : State} (hs : P s) (he : exec i s = .next t) : P t := by
  have hb := h.body i hs
  rw [exec_eq_finish] at he
  rcases finish_next he with ⟨u, hu, rfl⟩ | ⟨c, u, hu, rfl⟩
  · rw [hu] at hb
    exact hr u true u.error u.errCode u.errPos hb
  · rw [hu] at hb
    exact hr (Machine.classEffects c.cls u) (Machine.classEffects c.cls u).done true c.code c.pos (h.classEffects c.cls hb)

end Sys2Proof.Machine
end

