-- ==== Sys2Proof/Laws/HostPort.lean ====
section
/-! SUPPORT. The host's side: where offsets lie in the map, what window reads and writes do to single bytes
and bits, and what an access can do. -/

namespace Sys2Proof.Machine

/-! ## Offsets -/

theorem toNat_ofNat30 {n : Nat} (h : n < 2 ^ 30) : (BitVec.ofNat 30 n).toNat = n := by
  rw [BitVec.toNat_ofNat, Nat.mod_eq_of_lt h]

theorem regionOf_freq (b : Byte) : regionOf (0x400 + 4 * b.toNat) = .freq b := by
  have := b.isLt
  unfold regionOf
  rw [if_neg (by omega), if_neg (by omega), if_pos (by omega)]
  have h : (0x400 + 4 * b.toNat - 0x400) / 4 = b.toNat := by omega
  rw [h, BitVec.ofNat_toNat, BitVec.setWidth_eq]

theorem regionOf_node {i w : Nat} (hi : i < 512) (hw : w < 4) : regionOf (0x2000 + 16 * i + 4 * w) = .node i w := by
  unfold regionOf
  rw [if_neg (by omega), if_neg (by omega), if_neg (by omega), if_neg (by omega), if_pos (by omega)]
  congr 1 <;> omega

theorem regionOf_code (b : Byte) {w : Nat} (hw : w < 16) : regionOf (0x4000 + 64 * b.toNat + 4 * w) = .code b w := by
  have := b.isLt
  unfold regionOf
  rw [if_neg (by omega), if_neg (by omega), if_neg (by omega), if_neg (by omega), if_neg (by omega), if_pos (by omega)]
  have h : (0x4000 + 64 * b.toNat + 4 * w - 0x4000) / 64 = b.toNat := by omega
  have h' : (0x4000 + 64 * b.toNat + 4 * w - 0x4000) % 64 / 4 = w := by omega
  rw [h, h', BitVec.ofNat_toNat, BitVec.setWidth_eq]

theorem regionOf_input {k : Nat} (h : k < 0x10000000) : regionOf (0x10000000 + k) = .input k := by
  unfold regionOf
  iterate 7 rw [if_neg (by omega)]
  rw [if_pos (by omega), Nat.add_sub_cancel_left]

theorem regionOf_output {k : Nat} (h : k < 0x10000000) : regionOf (0x20000000 + k) = .output k := by
  unfold regionOf
  iterate 8 rw [if_neg (by omega)]
  rw [if_pos (by omega), Nat.add_sub_cancel_left]

theorem regionOf_reserved {o : Nat} (h : reservedOffset o) : regionOf o = .reserved := by
  unfold reservedOffset at h
  unfold regionOf
  rcases h with rfl | h | h | h | h
  · rfl
  · rw [if_neg (by omega), if_pos (by omega)]
  · rw [if_neg (by omega), if_neg (by omega), if_neg (by omega), if_pos (by omega)]
  · iterate 6 rw [if_neg (by omega)]
    rw [if_pos (by omega)]
  · iterate 9 rw [if_neg (by omega)]

/-! ## Lanes -/

theorem getLsbD_ofLanes (b0 b1 b2 b3 : Byte) (i : Nat) :
    (ofLanes b0 b1 b2 b3).getLsbD i =
      if i < 8 then b0.getLsbD i else if i < 16 then b1.getLsbD (i - 8) else if i < 24 then b2.getLsbD (i - 16)
      else b3.getLsbD (i - 24) := by
  show (b3 ++ b2 ++ b1 ++ b0 : BitVec (8 + 8 + 8 + 8)).getLsbD i = _
  simp only [BitVec.getLsbD_append]
  by_cases h0 : i < 8
  · simp [h0]
  · by_cases h1 : i < 16
    · rw [if_neg h0, if_pos (by omega), if_neg h0, if_pos h1]
    · by_cases h2 : i < 24
      · rw [if_neg h0, if_neg (by omega), if_pos (by omega), if_neg h0, if_neg h1, if_pos h2]; congr 1
      · rw [if_neg h0, if_neg (by omega), if_neg (by omega), if_neg h0, if_neg h1, if_neg h2]; congr 1

/-- Lane j of a word (R83). -/
theorem lane_ofLanes (f : Nat → Byte) {j : Nat} (hj : j < 4) :
    (ofLanes (f 0) (f 1) (f 2) (f 3)).extractLsb' (8 * j) 8 = f j := by
  apply BitVec.eq_of_getLsbD_eq
  intro i hi
  rw [BitVec.getLsbD_extractLsb', getLsbD_ofLanes]
  obtain rfl | rfl | rfl | rfl : j = 0 ∨ j = 1 ∨ j = 2 ∨ j = 3 := by omega
  · simp [hi]
  · rw [if_neg (by omega), if_pos (by omega)]; simp [hi]
  · rw [if_neg (by omega), if_neg (by omega), if_pos (by omega)]; simp [hi]
  · rw [if_neg (by omega), if_neg (by omega), if_neg (by omega)]; simp [hi]

theorem lane_eq (v : Word) (j : Nat) : lane v j = v.extractLsb' (8 * j) 8 := by
  apply BitVec.eq_of_getLsbD_eq
  intro i hi
  simp [lane, hi]

/-! ## Writing IN -/

theorem inByte_putInLane (s : State) (k : Nat) (v : Byte) (j : Nat) :
    inByte (putInLane s k v) j = if j = k ∧ k < s.cfg.inCap then v else inByte s j := by
  unfold putInLane inByte
  split
  · next h => simp only [Memory.byte_put, h, and_true]
  · next h => simp [h]

theorem putInLane_eq (s : State) (k : Nat) (v : Byte) :
    putInLane s k v = { s with inBuf := (putInLane s k v).inBuf } := by unfold putInLane; split <;> rfl

@[simp] theorem putInLane_cfg (s : State) (k : Nat) (v : Byte) : (putInLane s k v).cfg = s.cfg := by rw [putInLane_eq]

theorem putInWord_eq (s : State) (k : Nat) (v : Word) :
    putInWord s k v = { s with inBuf := (putInWord s k v).inBuf } := by
  unfold putInWord
  rw [putInLane_eq, putInLane_eq (putInLane (putInLane s _ _) _ _), putInLane_eq (putInLane s _ _), putInLane_eq s]

/-- A word write to the IN window sets its four bytes below IN_CAP (R86). -/
theorem inByte_putInWord (s : State) (k : Nat) (v : Word) (j : Nat) :
    inByte (putInWord s k v) j =
      if k ≤ j ∧ j < k + 4 ∧ j < s.cfg.inCap then v.extractLsb' (8 * (j - k)) 8 else inByte s j := by
  simp only [putInWord, inByte_putInLane, putInLane_cfg, lane_eq]
  by_cases h : k ≤ j ∧ j < k + 4
  · obtain ⟨h1, h2⟩ := h
    obtain ⟨d, rfl⟩ : ∃ d, j = k + d := ⟨j - k, by omega⟩
    have : d < 4 := by omega
    interval_cases d <;> simp
  · rw [if_neg (by omega), if_neg (by omega), if_neg (by omega), if_neg (by omega), if_neg (by omega)]

/-- Writing IN keeps the buffers' form (R52). -/
theorem putInLane_buffers {s : State} (k : Nat) (v : Byte) (h : BufferInv s) : BufferInv (putInLane s k v) := by
  unfold putInLane
  split
  · next hk => exact ⟨Memory.put_wf _ _ h.in_wf, h.out_wf, Memory.put_within _ h.in_within hk, h.out_within⟩
  · exact h

/-! ## Accesses -/

/-- What is outside the block does not enter a read. -/
@[simp] theorem readWord_agenda (s : State) (a : List Event) (o : Offset) : readWord { s with agenda := a } o = readWord s o := by
  unfold readWord
  cases regionOf o.toNat with
  | reg r =>
    cases r with
    | status => simp only [readRegion, regWord, statusWord, irq]
    | _ => rfl
  | _ => rfl

/-- What a host access that is admitted does (R82, R390, R91). -/
theorem hostAccess_next {a : BusAccess} {s t : State} (h : hostAccess a s = .next t) :
    a.isWord = true ∧ (s.busy = true → a.readsStatus = true) ∧
    ((a.op = .read ∧ t = hostRead s a.offset) ∨ ∃ v, a.op = .write v ∧ s.busy = false ∧ t = writeWord s a.offset v) := by
  unfold hostAccess at h
  split at h
  · cases h
  · next hw =>
    split at h
    · cases h
    · next hb =>
      simp only [Bool.not_eq_true', Bool.not_eq_false] at hw
      simp only [Bool.and_eq_true, Bool.not_eq_true', not_and, Bool.not_eq_false] at hb
      refine ⟨hw, hb, ?_⟩
      cases ho : a.op with
      | read => rw [ho] at h; simp only [Host.Outcome.next.injEq] at h; exact .inl ⟨rfl, h.symm⟩
      | write v =>
        rw [ho] at h
        simp only [Host.Outcome.next.injEq] at h
        refine .inr ⟨v, rfl, ?_, h.symm⟩
        by_contra hc
        have := hb (by simpa using hc)
        simp [BusAccess.readsStatus, ho] at this

/-- What a host write can do (R91): nothing, an issue, an acknowledge, or one register, entry or word of IN. -/
theorem writeWord_cases (s : State) (o : Offset) (v : Word) :
    writeWord s o v = s ∨ writeWord s o v = issue v s ∨ writeWord s o v = acknowledge v s ∨
    (writeWord s o v = { s with irqEn := v.getLsbD 0 }) ∨ (writeWord s o v = { s with inLen := v }) ∨
    (writeWord s o v = { s with bitpos := v }) ∨ (∃ b, writeWord s o v = { s with freq := freqPut s.freq b v }) ∨
    ∃ k, writeWord s o v = putInWord s k v := by
  unfold writeWord
  cases regionOf o.toNat with
  | reg r => cases r <;> simp [writeRegion, writeReg]
  | freq b => simp only [writeRegion]; exact .inr (.inr (.inr (.inr (.inr (.inr (.inl ⟨b, rfl⟩))))))
  | input k => simp only [writeRegion]; exact .inr (.inr (.inr (.inr (.inr (.inr (.inr ⟨k, rfl⟩))))))
  | _ => exact .inl rfl

end Sys2Proof.Machine
end

