-- ==== Sys2Proof/Laws/Invariants.lean ====
section
/-! SUPPORT. The updates that commands are made of keep what does not concern them: the outside, the validity
flags, the buffers, and the tree. -/

namespace Sys2Proof.Machine

/-- The tree that NODE holds depends on NODE and its registers alone. -/
theorem TreeHolds.congr {s s' : State} {t : Tree} (h : TreeHolds s t) (h1 : s'.node = s.node) (h2 : s'.root = s.root)
    (h3 : s'.nodeCount = s.nodeCount) (h4 : s'.leafCount = s.leafCount) (h5 : s'.treeBits = s.treeBits) : TreeHolds s' t := by
  refine ⟨?_, by rw [h3]; exact h.indices, by rw [h1, h3]; exact h.unused, by rw [h4]; exact h.count,
    by rw [h4]; exact h.atMost, by rw [h3, h4]; exact h.nodes, by rw [h4, h5]; exact h.treeBits, by rw [h1]; exact h.tidy⟩
  have := h.reads
  rw [currentTree] at this ⊢
  rw [h1, h2]; exact this

/-- R221. -/
theorem TreeHolds.length_serialize {s : State} {t : Tree} (h : TreeHolds s t) :
    (serialize t).length + 1 = 10 * s.leafCount.toNat ∧ s.treeBits.toNat = (serialize t).length := by
  have h1 := Machine.length_serialize t
  have h2 := h.count
  have h3 := h.treeBits
  omega

/-- The tree invariant depends on the tree, the codes and their flags alone. -/
theorem TreeInv.congr {s s' : State} (h : TreeInv s) (h1 : s'.node = s.node) (h2 : s'.root = s.root)
    (h3 : s'.nodeCount = s.nodeCount) (h4 : s'.leafCount = s.leafCount) (h5 : s'.treeBits = s.treeBits)
    (h6 : s'.treeValid = s.treeValid) (h7 : s'.codesValid = s.codesValid) (h8 : s'.code = s.code) : TreeInv s' := by
  refine ⟨fun hv => ?_, fun hv => ?_⟩
  · obtain ⟨t, ht⟩ := h.tree (h6 ▸ hv)
    exact ⟨t, ht.congr h1 h2 h3 h4 h5⟩
  · obtain ⟨t, ht, hc⟩ := h.codes (h7 ▸ hv)
    refine ⟨t, ?_, by rw [h8]; exact hc⟩
    rw [currentTree] at ht ⊢
    rw [h1, h2]; exact ht

theorem survives_treeInv : Survives TreeInv where
  freq s f h := h.congr rfl rfl rfl rfl rfl rfl rfl rfl
  clear s h := ⟨fun hv => by simp at hv, fun hv => by simp at hv⟩
  tree s t tr h ht hT := by
    refine ⟨fun _ => ⟨tr, hT⟩, fun hv => ?_⟩
    rw [ht] at hv; simp at hv
  codes s t h hv ht := ⟨fun hv => by obtain ⟨u, hu⟩ := h.tree hv; exact ⟨u, hu.congr rfl rfl rfl rfl rfl⟩, fun _ => ⟨t, ht, rfl⟩⟩
  emitted s t p h hv ht hc := by
    refine ⟨fun hv => ?_, fun hc => ?_⟩
    · obtain ⟨u, hu⟩ := h.tree hv
      have e : u = t := Option.some.inj (hu.reads.symm.trans ht)
      subst e
      have hl := hu.length_serialize
      have := hu.atMost
      refine ⟨u, hu.congr rfl rfl rfl rfl ?_⟩
      apply BitVec.eq_of_toNat_eq
      simp only [BitVec.toNat_ofNat]
      rw [Nat.mod_eq_of_lt (by omega)]; exact hl.2.symm
    · obtain ⟨u, hu, hcode⟩ := h.codes hc
      exact ⟨u, hu, hcode⟩
  wrote s bytes h _ := h.congr rfl rfl rfl rfl rfl rfl rfl rfl
  decoded s l c n p h := h.congr rfl rfl rfl rfl rfl rfl rfl rfl

theorem survives_validityInv : Survives ValidityInv where
  freq s f h := ⟨h.codes_need_tree, h.no_tree, h.no_codes⟩
  clear s h := ⟨fun hv => by simp at hv, fun _ => ⟨rfl, rfl, rfl, rfl, rfl⟩, fun _ => rfl⟩
  tree s t tr h ht hT := by
    refine ⟨fun hv => ?_, fun hv => ?_, fun _ => ?_⟩
    · rw [ht] at hv; simp at hv
    · rw [ht] at hv; simp at hv
    · rw [ht]; rfl
  codes s t h hv ht := ⟨fun _ => hv, fun hv' => absurd (hv.symm.trans hv') (by simp), fun hc => by simp at hc⟩
  emitted s t p h hv ht hc := ⟨fun _ => hv, fun hv' => absurd (hv.symm.trans hv') (by simp), h.no_codes⟩
  wrote s bytes h _ := ⟨h.codes_need_tree, h.no_tree, h.no_codes⟩
  decoded s l c n p h := ⟨h.codes_need_tree, h.no_tree, h.no_codes⟩

theorem survives_bufferInv : Survives BufferInv where
  freq s f h := ⟨h.in_wf, h.out_wf, h.in_within, h.out_within⟩
  clear s h := ⟨h.in_wf, h.out_wf, h.in_within, h.out_within⟩
  tree s t tr h ht hT := by rw [ht]; exact ⟨h.in_wf, h.out_wf, h.in_within, h.out_within⟩
  codes s t h hv ht := ⟨h.in_wf, h.out_wf, h.in_within, h.out_within⟩
  emitted s t p h hv ht hc :=
    ⟨h.in_wf, Memory.putAll_wf _ _ h.out_wf, h.in_within, Memory.putAll_within _ _ h.out_within (by rw [length_pack]; simpa using hc)⟩
  wrote s bytes h hb :=
    ⟨h.in_wf, Memory.putAll_wf _ _ h.out_wf, h.in_within, Memory.putAll_within _ _ h.out_within (by simpa using hb)⟩
  decoded s l c n p h := ⟨h.in_wf, h.out_wf, h.in_within, h.out_within⟩

/-- No command touches what is outside its reach (R40, R52, R97). -/
theorem survives_sameOutside (s₀ : State) : Survives (SameOutside s₀) where
  freq s f h := h
  clear s h := h
  tree s t tr h ht hT := by rw [ht]; exact h
  codes s t h hv ht := h
  emitted s t p h hv ht hc := h
  wrote s bytes h hb := h
  decoded s l c n p h := h

/-- The report fields are as the issue left them until the completion writes them (R38, R342). -/
theorem survives_report (b d e : Bool) (c : BitVec 8) (p w : Word) (q : Option Word) :
    Survives fun s => s.busy = b ∧ s.done = d ∧ s.error = e ∧ s.errCode = c ∧ s.errPos = p ∧ s.cmdw = w ∧ s.pending = q where
  freq s f h := h
  clear s h := h
  tree s t tr h ht hT := by rw [ht]; exact h
  codes s t h hv ht := h
  emitted s t p h hv ht hc := h
  wrote s bytes h hb := h
  decoded s l c n p h := h

end Sys2Proof.Machine
end

