-- ==== Sys2Proof/Laws/Composite.lean ====
section
/-! SUPPORT. COMPRESS and DECOMPRESS as their stages (spec/46_control.md R312, R313), and that no command is
stuck on a tree. -/

namespace Sys2Proof.Machine

/-- The codes of a tree code each of its symbols. -/
theorem walkCodes_coded {t : Tree} (hl : t.levels ≤ 256) {b : Byte} (hb : b ∈ t.symbols) :
    (codeAt (walkCodes t [] codeZero) b).len ≠ 0 := by
  rcases walkCodes_entry hl b with ⟨h, -⟩ | ⟨d, -, -, -, h⟩
  · exact absurd hb (Tree.lastPath_eq_none.mp h)
  · intro e
    rw [e] at h
    have := List.length_pos_iff.mpr (leafCode_ne_nil d)
    have e0 : (0 : BitVec 8).toNat = 0 := rfl
    omega

/-- The state COMPRESS has reached before EMIT, for a non-empty input (R312): it depends on s only through the
input, apart from the fields it does not write. -/
def beforeEmit (s : State) (t : Tree) : State :=
  let f := countBytes (inBytes s)
  let n := (presentSymbols f).length
  { s with
    freq := f, node := (buildArena f (presentSymbols f)).1, root := BitVec.ofNat 9 (2 * n - 2)
    nodeCount := BitVec.ofNat 10 (2 * n - 1), leafCount := BitVec.ofNat 9 n, treeBits := BitVec.ofNat 32 (10 * n - 1)
    treeValid := true, code := walkCodes t [] codeZero, codesValid := true }

theorem bodyCompress_long {s : State} (h : s.cfg.inCap < s.inLen.toNat) :
    bodyCompress s = .raised (.badLength s.inLen) s := by
  have e : bodyFreqCount s = .raised (.badLength s.inLen) s := by
    rcases bodyFreqCount_cases s with ⟨h', -⟩ | ⟨-, h'⟩
    · omega
    · exact h'
  rw [bodyCompress, e]; rfl

/-- COMPRESS of the empty input (R312): FREQ_COUNT, and then EMPTY_INPUT. -/
theorem bodyCompress_empty {s : State} (h : s.inLen = 0) :
    bodyCompress s = .raised .emptyInput { s with freq := freqZero } := by
  have hl : s.inLen.toNat ≤ s.cfg.inCap := by rw [h]; simp
  have hb : inBytes s = [] := by rw [inBytes, h]; rfl
  rw [bodyCompress, bodyFreqCount_done hl, hb]
  simp only [Ran.andThen, countBytes, List.foldl_nil]
  rw [bodyTreeBuild_empty (s := { s with freq := freqZero }) freqAt_freqZero]

/-- COMPRESS of a non-empty input comes to EMIT with a tree, whose leaves are the bytes that occur, and with a
code for every byte (R312). -/
theorem bodyCompress_stages {s : State} (hne : s.inLen ≠ 0) :
    ∃ (u : State) (t : Tree), bodyTreeBuild { s with freq := countBytes (inBytes s) } = .done u ∧ u.treeValid = true ∧
      currentTree u = some t ∧ { u with code := walkCodes t [] codeZero, codesValid := true } = beforeEmit s t ∧
      TreeHolds (beforeEmit s t) t ∧ t.symbols.Perm (presentSymbols (countBytes (inBytes s))) ∧
      (∀ b, b ∈ t.symbols ↔ b ∈ inBytes s) := by
  have hlt : (inBytes s).length < 2 ^ 32 := by rw [length_inBytes]; exact s.inLen.isLt
  obtain ⟨b, hb⟩ : ∃ b, b ∈ inBytes s := by
    apply List.exists_mem_of_length_pos
    rw [length_inBytes]
    rcases Nat.eq_zero_or_pos s.inLen.toNat with e | e
    · exact absurd (BitVec.eq_of_toNat_eq (by simpa using e)) hne
    · exact e
  have hf : freqAt ({ s with freq := countBytes (inBytes s) } : State).freq b ≠ 0 := (countBytes_ne_zero hlt b).mpr hb
  obtain ⟨u, t, h1, h2, h3, h4, h5, h6, -⟩ := bodyTreeBuild_done hf
  have hr : u.root = BitVec.ofNat 9 (2 * (presentSymbols (countBytes (inBytes s))).length - 2) := by
    rw [← h4]; exact BitVec.eq_of_toNat_eq (by simp)
  have he : { u with code := walkCodes t [] codeZero, codesValid := true } = beforeEmit s t := by
    have e : u = { clearTree { s with freq := countBytes (inBytes s) } with
        node := (buildArena (countBytes (inBytes s)) (presentSymbols (countBytes (inBytes s)))).1
        root := BitVec.ofNat 9 (2 * (presentSymbols (countBytes (inBytes s))).length - 2)
        nodeCount := BitVec.ofNat 10 (2 * (presentSymbols (countBytes (inBytes s))).length - 1)
        leafCount := BitVec.ofNat 9 (presentSymbols (countBytes (inBytes s))).length
        treeBits := BitVec.ofNat 32 (10 * (presentSymbols (countBytes (inBytes s))).length - 1), treeValid := true } := by
      rw [← hr, ← h3]; exact h2
    rw [e]; rfl
  refine ⟨u, t, h1, by rw [h2], h5.reads, he, ?_, h6, fun a => ?_⟩
  · rw [← he]; exact h5.congr rfl rfl rfl rfl rfl
  · rw [h6.mem_iff, mem_presentSymbols, countBytes_ne_zero hlt]

theorem inBytes_beforeEmit (s : State) (t : Tree) : inBytes (beforeEmit s t) = inBytes s := inBytes_congr rfl rfl rfl

/-- COMPRESS of a non-empty input is the packing of its tree and its payload (R312). -/
theorem bodyCompress_stream {s : State} (hlen : s.inLen.toNat ≤ s.cfg.inCap) (hne : s.inLen ≠ 0) :
    ∃ t : Tree, bodyCompress s = emitStream (serialize t) (payloadOf (beforeEmit s t)) (beforeEmit s t) ∧
      TreeHolds (beforeEmit s t) t ∧ t.symbols.Perm (presentSymbols (countBytes (inBytes s))) ∧
      (∀ b, b ∈ t.symbols ↔ b ∈ inBytes s) ∧
      (∀ b ∈ inBytes s, (codeAt (walkCodes t [] codeZero) b).len ≠ 0) := by
  obtain ⟨u, t, h1, h2, h3, h4, h5, h6, h7⟩ := bodyCompress_stages hne
  have hl := (currentTree_eq_some.mp h3).2.2
  have hcoded : ∀ b ∈ inBytes s, (codeAt (walkCodes t [] codeZero) b).len ≠ 0 :=
    fun b hb => walkCodes_coded hl ((h7 b).mpr hb)
  refine ⟨t, ?_, h5, h6, h7, hcoded⟩
  rw [bodyCompress, bodyFreqCount_done hlen]
  simp only [Ran.andThen, h1]
  rw [bodyCodeGen_done h2 h3]
  simp only [h4]
  exact bodyEmit_stream (s := beforeEmit s t) hlen rfl rfl h5.reads (by rw [inBytes_beforeEmit]; exact hcoded)

/-- The code words of the input's bytes, as paths of the tree (R205, R250). -/
def codedInput (s : State) (t : Tree) : List (Byte × Bits) := (inBytes s).map fun b => (b, (t.lastPath b).getD [])

/-- The payload of COMPRESS is a sequence of code words of its tree. -/
theorem payloadOf_beforeEmit {s : State} {t : Tree} (hl : t.levels ≤ 256) (ht : ∀ b, b ∈ t.symbols ↔ b ∈ inBytes s) :
    payloadOf (beforeEmit s t) = wordsOf (codedInput s t) ∧ (∀ q ∈ codedInput s t, t.follow q.2 = some q.1) ∧
      (codedInput s t).map Prod.fst = inBytes s := by
  have key : ∀ b ∈ inBytes s, t.follow ((t.lastPath b).getD []) = some b ∧
      (codeAt (walkCodes t [] codeZero) b).bits = leafCode ((t.lastPath b).getD []) := by
    intro b hb
    rcases walkCodes_entry hl b with ⟨h, -⟩ | ⟨d, h, h2, h3, -⟩
    · exact absurd ((ht b).mpr hb) (Tree.lastPath_eq_none.mp h)
    · rw [h]; exact ⟨h2, h3⟩
  refine ⟨?_, ?_, ?_⟩
  · rw [payloadOf, inBytes_beforeEmit, wordsOf, codedInput, List.flatMap_map]
    exact List.flatMap_congr fun b hb => (key b hb).2
  · intro q hq
    obtain ⟨b, hb, rfl⟩ := List.mem_map.mp hq
    exact (key b hb).1
  · rw [codedInput, List.map_map]
    exact List.map_id _

/-- The payload of COMPRESS has at most 255 digits for each byte (R204). -/
theorem length_payloadOf_beforeEmit {s : State} {t : Tree} (hl : t.levels ≤ 256) :
    (payloadOf (beforeEmit s t)).length ≤ 255 * s.inLen.toNat := by
  have key : ∀ b, (codeAt (walkCodes t [] codeZero) b).bits.length ≤ 255 := by
    intro b
    rcases walkCodes_entry hl b with ⟨-, h⟩ | ⟨d, -, h2, h3, -⟩
    · rw [h]; simp [Code.zero]
    · rw [h3]; exact (leafCode_length hl h2).2
  have : ∀ bs : List Byte, (bs.flatMap fun b => (codeAt (walkCodes t [] codeZero) b).bits).length ≤ 255 * bs.length := by
    intro bs
    induction bs with
    | nil => simp
    | cons b bs ih => have := key b; simp only [List.flatMap_cons, List.length_append, List.length_cons]; omega
  have h := this (inBytes s)
  rw [length_inBytes] at h
  rw [payloadOf, inBytes_beforeEmit]; exact h

/-! ## A stage does not look at the report -/

/-- The state of an idle engine with a given DONE flag. -/
def idleWith (d : Bool) (s : State) : State := { s with busy := false, done := d, pending := none }

/-- Apply an update to the state a pseudocode ends in. -/
def Ran.map (f : State → State) : Ran → Ran
  | .done s     => .done (f s)
  | .raised c s => .raised c (f s)
  | .stuck x    => .stuck x

theorem bodyTreeBuild_idleWith (d : Bool) (s : State) : bodyTreeBuild (idleWith d s) = (bodyTreeBuild s).map (idleWith d) := by
  rw [bodyTreeBuild, bodyTreeBuild, show (idleWith d s).freq = s.freq from rfl]
  split <;> rfl

theorem bodyCodeGen_idleWith (d : Bool) (s : State) : bodyCodeGen (idleWith d s) = (bodyCodeGen s).map (idleWith d) := by
  rw [bodyCodeGen, bodyCodeGen, show (idleWith d s).treeValid = s.treeValid from rfl,
    show currentTree (idleWith d s) = currentTree s from rfl]
  split
  · split <;> rfl
  · rfl

theorem emitStream_idleWith (d : Bool) (t p : Bits) (s : State) :
    emitStream t p (idleWith d s) = (emitStream t p s).map (idleWith d) := by
  rw [emitStream, emitStream, show (idleWith d s).cfg = s.cfg from rfl]
  split <;> rfl

theorem bodyEmit_idleWith (d : Bool) (s : State) : bodyEmit (idleWith d s) = (bodyEmit s).map (idleWith d) := by
  rw [bodyEmit, bodyEmit, show inLenOk (idleWith d s) = inLenOk s from rfl,
    show (idleWith d s).treeValid = s.treeValid from rfl, show (idleWith d s).codesValid = s.codesValid from rfl,
    show currentTree (idleWith d s) = currentTree s from rfl, show payload (idleWith d s) = payload s from rfl]
  split
  · split
    · split
      · split
        · rfl
        · split
          · rfl
          · exact emitStream_idleWith d _ _ s
      · rfl
    · rfl
  · rfl

theorem decodeFrom_idleWith (d : Bool) (k p : Nat) (payload : Bits) (s : State) :
    decodeFrom k p payload (idleWith d s) = (decodeFrom k p payload s).map (idleWith d) := by
  rw [decodeFrom, decodeFrom, show (idleWith d s).node = s.node from rfl, show (idleWith d s).root = s.root from rfl,
    show (idleWith d s).cfg = s.cfg from rfl, show (idleWith d s).outBuf = s.outBuf from rfl]
  split <;> rfl

theorem bodyDecodePayload_idleWith (d : Bool) (s : State) :
    bodyDecodePayload (idleWith d s) = (bodyDecodePayload s).map (idleWith d) := by
  rw [bodyDecodePayload, bodyDecodePayload, show inLenOk (idleWith d s) = inLenOk s from rfl,
    show (idleWith d s).treeValid = s.treeValid from rfl, show (idleWith d s).inLen = s.inLen from rfl,
    show (idleWith d s).bitpos = s.bitpos from rfl, show inStream (idleWith d s) = inStream s from rfl]
  split
  · split
    · split
      · rfl
      · split
        · rfl
        · exact decodeFrom_idleWith d _ _ _ s
    · rfl
  · rfl

/-- A completion makes the engine idle whatever it was, and leaves DONE to the pseudocode's state or sets it. -/
theorem finish_map_idleWith {d : Bool} {r : Ran} (h : r.all fun s => s.done = d) : finish (r.map (idleWith d)) = finish r := by
  cases r with
  | done s => rfl
  | raised c s =>
    replace h : s.done = d := h
    subst h
    cases hc : c.cls <;> simp only [Ran.map, finish, takeError, hc] <;> rfl
  | stuck f => rfl

/-! ## Nothing is stuck -/

/-- The pseudocode ends. -/
def Ran.ends : Ran → Prop
  | .stuck _ => False
  | _        => True

theorem emitStream_ends (t p : Bits) (s : State) : (emitStream t p s).ends := by
  rcases emitStream_cases t p s with ⟨-, e⟩ | ⟨-, e⟩ <;> rw [e] <;> trivial

theorem decodePayload_ends (s : State) : (bodyDecodePayload s).ends := by
  rcases bodyDecodePayload_cases s with ⟨-, e⟩ | ⟨-, e⟩ | ⟨-, e⟩ | ⟨-, bytes, c, hb, -, e⟩ | ⟨-, bytes, c, n, hb, e⟩ <;>
    rw [e] <;> trivial

/-- Of the ten commands only CODE_GEN and EMIT depend on the arena's being a tree (R49). -/
theorem body_ends (i : Instr) (s : State) (h1 : i ≠ .codeGen) (h2 : i ≠ .emit) : (bodyOf i s).ends := by
  cases i with
  | codeGen => exact absurd rfl h1
  | emit => exact absurd rfl h2
  | nop => trivial
  | clear => trivial
  | freqCount => show (bodyFreqCount s).ends; rcases bodyFreqCount_cases s with ⟨-, e⟩ | ⟨-, e⟩ <;> rw [e] <;> trivial
  | treeBuild =>
    show (bodyTreeBuild s).ends
    rcases bodyTreeBuild_cases s with ⟨-, e⟩ | ⟨-, t, tr, e, -⟩ <;> rw [e] <;> trivial
  | treeLoad =>
    show (bodyTreeLoad s).ends
    rcases bodyTreeLoad_cases s with ⟨-, e⟩ | ⟨-, c, e, -⟩ | ⟨-, t, tr, rest, e, -⟩ <;> rw [e] <;> trivial
  | decodePayload => exact decodePayload_ends s
  | compress =>
    show (bodyCompress s).ends
    by_cases hlen : s.inLen.toNat ≤ s.cfg.inCap
    · by_cases hne : s.inLen = 0
      · rw [bodyCompress_empty hne]; trivial
      · obtain ⟨t, e, -⟩ := bodyCompress_stream hlen hne
        rw [e]; exact emitStream_ends _ _ _
    · rw [bodyCompress_long (by omega)]; trivial
  | decompress =>
    show (bodyDecompress s).ends
    rw [bodyDecompress]
    rcases bodyTreeLoad_cases s with ⟨-, e⟩ | ⟨-, c, e, -⟩ | ⟨-, t, tr, rest, e, -⟩ <;> rw [e]
    · trivial
    · trivial
    · exact decodePayload_ends t

/-- And on a tree those two end as well. -/
theorem body_ends_of_tree (i : Instr) {s : State} (h : TreeInv s) : (bodyOf i s).ends := by
  by_cases h1 : i = .codeGen
  · subst h1
    show (bodyCodeGen s).ends
    rcases bodyCodeGen_cases s with ⟨-, e⟩ | ⟨hv, hn, -⟩ | ⟨-, t, -, e⟩
    · rw [e]; trivial
    · obtain ⟨t, ht⟩ := h.tree hv
      rw [ht.reads] at hn; cases hn
    · rw [e]; trivial
  · by_cases h2 : i = .emit
    · subst h2
      show (bodyEmit s).ends
      rcases bodyEmit_cases s with ⟨-, e⟩ | ⟨-, e⟩ | ⟨-, e⟩ | ⟨hv, -, hn, -⟩ | ⟨k, e⟩ | ⟨-, -, t, -, e⟩
      · rw [e]; trivial
      · rw [e]; trivial
      · rw [e]; trivial
      · obtain ⟨t, ht⟩ := h.tree hv
        rw [ht.reads] at hn; cases hn
      · rw [e]; trivial
      · rw [e]; exact emitStream_ends _ _ _
    · exact body_ends i s h1 h2

theorem Ran.ends.exec {i : Instr} {s : State} (h : (bodyOf i s).ends) : ∃ t, exec i s = .next t := by
  rw [exec_eq_finish]
  cases hb : bodyOf i s with
  | done t => exact ⟨_, rfl⟩
  | raised c t => exact ⟨_, rfl⟩
  | stuck f => rw [hb] at h; exact h.elim

end Sys2Proof.Machine
end

