-- ==== Sys2Proof/Laws/Raises.lean ====
section
/-! SUPPORT. What each pseudocode raises, and on which state (spec/60_exceptions.md R341, R345). -/

namespace Sys2Proof.Machine

/-- The precondition errors that a command can raise. -/
def PrecondCause (c : Cause) : Prop := (∃ v, c = .badLength v) ∨ c = .emptyInput ∨ c = .noTree ∨ c = .noCodes

theorem PrecondCause.cls {c : Cause} (h : PrecondCause c) : c.cls = .precondition := by
  rcases h with ⟨v, rfl⟩ | rfl | rfl | rfl <;> rfl

/-- The raises of the eight single-stage commands. -/
theorem raised_single {i : Instr} {s u : State} {c : Cause} (h1 : i ≠ .compress) (h2 : i ≠ .decompress)
    (h : bodyOf i s = .raised c u) :
    (PrecondCause c ∧ u = s) ∨
    (i = .emit ∧ ((∃ k, c = .uncodedSymbol k) ∨ c = .emitOverflow s.cfg.outCap) ∧ u = s) ∨
    (i = .treeLoad ∧ (c = .corruptTree (8 * s.inLen.toNat) ∨ ∃ p, c = .treeTooLarge p) ∧ u = clearTree s) ∨
    (i = .decodePayload ∧ DecodeCause c ∧ ∃ bytes : List Byte, bytes.length ≤ s.cfg.outCap ∧
      u = { s with outBuf := Memory.putAll s.outBuf 0 bytes }) := by
  cases i with
  | nop => cases h
  | clear => cases h
  | compress => exact absurd rfl h1
  | decompress => exact absurd rfl h2
  | freqCount =>
    replace h : bodyFreqCount s = _ := h
    rcases bodyFreqCount_cases s with ⟨-, e⟩ | ⟨-, e⟩ <;> rw [e] at h <;> cases h
    exact .inl ⟨.inl ⟨_, rfl⟩, rfl⟩
  | treeBuild =>
    replace h : bodyTreeBuild s = _ := h
    rcases bodyTreeBuild_cases s with ⟨-, e⟩ | ⟨-, t, tr, e, -⟩ <;> rw [e] at h <;> cases h
    exact .inl ⟨.inr (.inl rfl), rfl⟩
  | codeGen =>
    replace h : bodyCodeGen s = _ := h
    rcases bodyCodeGen_cases s with ⟨-, e⟩ | ⟨-, -, e⟩ | ⟨-, t, -, e⟩ <;> rw [e] at h <;> cases h
    exact .inl ⟨.inr (.inr (.inl rfl)), rfl⟩
  | emit =>
    replace h : bodyEmit s = _ := h
    rcases bodyEmit_cases s with ⟨-, e⟩ | ⟨-, e⟩ | ⟨-, e⟩ | ⟨-, -, -, e⟩ | ⟨k, e⟩ | ⟨-, -, t, -, e⟩ <;> rw [e] at h
    · cases h; exact .inl ⟨.inl ⟨_, rfl⟩, rfl⟩
    · cases h; exact .inl ⟨.inr (.inr (.inl rfl)), rfl⟩
    · cases h; exact .inl ⟨.inr (.inr (.inr rfl)), rfl⟩
    · cases h
    · cases h; exact .inr (.inl ⟨rfl, .inl ⟨k, rfl⟩, rfl⟩)
    · rcases emitStream_cases (serialize t) (payloadOf s) s with ⟨-, e⟩ | ⟨-, e⟩ <;> rw [e] at h <;> cases h
      exact .inr (.inl ⟨rfl, .inr rfl, rfl⟩)
  | treeLoad =>
    rcases bodyTreeLoad_raised (s := s) h with ⟨rfl, rfl, -⟩ | ⟨hc, rfl⟩
    · exact .inl ⟨.inl ⟨_, rfl⟩, rfl⟩
    · exact .inr (.inr (.inl ⟨rfl, hc, rfl⟩))
  | decodePayload =>
    replace h : bodyDecodePayload s = _ := h
    rcases bodyDecodePayload_cases s with ⟨-, e⟩ | ⟨-, e⟩ | ⟨-, e⟩ | ⟨-, bytes, c', hb, hc, e⟩ | ⟨-, bytes, c', n, hb, e⟩ <;>
      rw [e] at h <;> cases h
    · exact .inl ⟨.inl ⟨_, rfl⟩, rfl⟩
    · exact .inl ⟨.inr (.inr (.inl rfl)), rfl⟩
    · exact .inl ⟨.inl ⟨_, rfl⟩, rfl⟩
    · exact .inr (.inr (.inr ⟨rfl, hc, bytes, hb, rfl⟩))

/-- The raises of COMPRESS (R312). -/
theorem raised_compress {s u : State} {c : Cause} (h : bodyCompress s = .raised c u) :
    (c = .badLength s.inLen ∧ u = s ∧ s.cfg.inCap < s.inLen.toNat) ∨
    (c = .emptyInput ∧ u = { s with freq := freqZero } ∧ s.inLen = 0) ∨
    (c = .emitOverflow s.cfg.outCap ∧ ∃ t, u = beforeEmit s t) := by
  by_cases hlen : s.inLen.toNat ≤ s.cfg.inCap
  · by_cases hne : s.inLen = 0
    · rw [bodyCompress_empty hne] at h; cases h
      exact .inr (.inl ⟨rfl, rfl, hne⟩)
    · obtain ⟨t, e, -⟩ := bodyCompress_stream hlen hne
      rw [e] at h
      rcases emitStream_cases (serialize t) (payloadOf (beforeEmit s t)) (beforeEmit s t) with ⟨-, e⟩ | ⟨-, e⟩ <;>
        rw [e] at h <;> cases h
      exact .inr (.inr ⟨rfl, t, rfl⟩)
  · rw [bodyCompress_long (by omega)] at h; cases h
    exact .inl ⟨rfl, rfl, by omega⟩

/-- The raises of DECOMPRESS (R313). -/
theorem raised_decompress {s u : State} {c : Cause} (h : bodyDecompress s = .raised c u) :
    bodyTreeLoad s = .raised c u ∨ ∃ t, bodyTreeLoad s = .done t ∧ bodyDecodePayload t = .raised c u := by
  rw [bodyDecompress] at h
  cases ht : bodyTreeLoad s with
  | done t => rw [ht] at h; exact .inr ⟨t, rfl, h⟩
  | raised c' u' => rw [ht] at h; exact .inl h
  | stuck f => rw [ht] at h; cases h

/-- A precondition error keeps OUT_LEN, a data error zeroes it (R343, R346 to R350). -/
theorem raised_outLen {i : Instr} {s u : State} {c : Cause} (h : bodyOf i s = .raised c u) :
    (PrecondCause c ∧ (takeError c u).outLen = s.outLen) ∨ (6 ≤ c.code.toNat ∧ (takeError c u).outLen = 0) := by
  have data : ∀ {c : Cause} (v : State), c.cls ≠ .precondition → 6 ≤ c.code.toNat ∧ (takeError c v).outLen = 0 := by
    intro c v hc
    cases c <;> first | exact absurd rfl hc | exact ⟨by simp [Cause.code], rfl⟩
  have single : ∀ {i : Instr} {s u : State} {c : Cause}, i ≠ .compress → i ≠ .decompress → bodyOf i s = .raised c u →
      (PrecondCause c ∧ (takeError c u).outLen = s.outLen) ∨ (6 ≤ c.code.toNat ∧ (takeError c u).outLen = 0) := by
    intro i s u c h1 h2 h
    rcases raised_single h1 h2 h with ⟨hc, rfl⟩ | ⟨-, hc, -⟩ | ⟨-, hc, -⟩ | ⟨-, hc, -⟩
    · exact .inl ⟨hc, by rw [takeError_precondition _ hc.cls]; rfl⟩
    · exact .inr (data u (by rcases hc with ⟨k, rfl⟩ | rfl <;> simp [Cause.cls]))
    · exact .inr (data u (by rcases hc with rfl | ⟨p, rfl⟩ <;> simp [Cause.cls]))
    · exact .inr (data u (by rw [hc.cls]; simp))
  by_cases h1 : i = .compress
  · subst h1
    rcases raised_compress h with ⟨rfl, rfl, -⟩ | ⟨rfl, rfl, -⟩ | ⟨rfl, t, rfl⟩
    · exact .inl ⟨.inl ⟨_, rfl⟩, rfl⟩
    · exact .inl ⟨.inr (.inl rfl), rfl⟩
    · exact .inr (data _ (by simp [Cause.cls]))
  · by_cases h2 : i = .decompress
    · subst h2
      rcases raised_decompress h with h | ⟨t, ht, h⟩
      · exact single (i := .treeLoad) (by simp) (by simp) h
      · rcases single (i := .decodePayload) (by simp) (by simp) h with ⟨hc, e⟩ | e
        · refine .inl ⟨hc, e.trans ?_⟩
          rcases bodyTreeLoad_cases s with ⟨-, e⟩ | ⟨-, c, e, -⟩ | ⟨-, t', tr, rest, e, he, -⟩ <;> rw [e] at ht <;> cases ht
          rw [he]; rfl
        · exact .inr e
    · exact single h1 h2 h

end Sys2Proof.Machine
end

