-- ==== Sys2Proof/Laws/DecodeEnds.lean ====
section
/-! SUPPORT. The ends of DECODE_PAYLOAD, from a payload of code words on (spec/45_decoder.md R283 to R287). -/

namespace Sys2Proof.Machine

/-! ## The walk -/

/-- With OUT full, the walk along the digits that lead to a leaf ends in OUT_OVERFLOW at the last of them
(R285). -/
theorem walkPayload_overflow {a : Arena} {root cap : Nat} (hroot : (nodeAt a root).kind = false) {t : Tree} {d : Bits}
    {v : Byte} (hd : t.follow d = some v) (hne : d ≠ []) (ht : HoldsTree a t) (bs : Bits) (p : Nat) (w : Walker)
    (hcur : w.cur = t.index) (hn : w.n = cap) :
    ∃ i, walkPayload a root cap (d ++ bs) p w =
      ({ cur := i, n := w.n, out := w.out }, some (.decodeOverflow (p + d.length - 1))) := by
  induction t generalizing d p w with
  | leaf i s => cases d with
    | nil => exact absurd rfl hne
    | cons x d => simp [Tree.follow] at hd
  | node i l r hl hr =>
    cases d with
    | nil => exact absurd rfl hne
    | cons x d =>
      obtain ⟨-, h2, h3, h4, h5⟩ := ht
      have key : ∀ u : Tree, HoldsTree a u → u.follow d = some v → childOf a w.cur x = u.index →
          (d ≠ [] → ∃ i, walkPayload a root cap (d ++ bs) (p + 1) { w with cur := u.index } =
            ({ cur := i, n := w.n, out := w.out }, some (.decodeOverflow (p + 1 + d.length - 1)))) →
          ∃ i, walkPayload a root cap (x :: d ++ bs) p w =
            ({ cur := i, n := w.n, out := w.out }, some (.decodeOverflow (p + (x :: d).length - 1))) := by
        intro u hu hf hc hrec
        rw [List.cons_append, walkPayload, if_neg (by simp [hroot]), hc]
        cases u with
        | leaf j s =>
          cases d with
          | cons y d => simp [Tree.follow] at hf
          | nil =>
            have hk : (nodeAt a (Tree.leaf j s).index).kind = true := hu.1
            rw [if_pos hk]
            simp only [emitByte, if_pos hn]
            exact ⟨w.cur, by simp⟩
        | node j l' r' =>
          have hk : (nodeAt a (Tree.node j l' r').index).kind = false := hu.1
          rw [if_neg (by simp [hk])]
          have hdne : d ≠ [] := by rintro rfl; simp [Tree.follow] at hf
          obtain ⟨i, e⟩ := hrec hdne
          refine ⟨i, ?_⟩
          rw [e, List.length_cons, show p + 1 + d.length - 1 = p + (d.length + 1) - 1 by omega]
      simp only [Tree.follow] at hd
      cases x with
      | true => exact key r h5 (by simpa using hd) (by rw [hcur]; exact h3) fun hdne => hr (by simpa using hd) hdne h5 _ _ rfl hn
      | false => exact key l h4 (by simpa using hd) (by rw [hcur]; exact h2) fun hdne => hl (by simpa using hd) hdne h4 _ _ rfl hn

/-- The walk along digits that end inside a tree stops at one of its nodes (R286). -/
theorem walkPayload_inside {a : Arena} {root cap : Nat} (hroot : (nodeAt a root).kind = false) {t : Tree} {d e : Bits}
    {v : Byte} (hd : t.follow (d ++ e) = some v) (hne : e ≠ []) (ht : HoldsTree a t) (p : Nat) (w : Walker)
    (hcur : w.cur = t.index) :
    ∃ i ∈ t.indices, walkPayload a root cap d p w = walkPayload a root cap [] (p + d.length) { w with cur := i } := by
  induction t generalizing d p w with
  | leaf i s =>
    exfalso
    cases d <;> cases e <;> simp [Tree.follow] at hd hne
  | node i l r hl hr =>
    cases d with
    | nil => exact ⟨i, by simp [Tree.indices], by rw [show { w with cur := i } = w by rw [← show w.cur = i from hcur]]; rfl⟩
    | cons x d =>
      obtain ⟨-, h2, h3, h4, h5⟩ := ht
      have key : ∀ u : Tree, HoldsTree a u → u.follow (d ++ e) = some v → childOf a w.cur x = u.index →
          (∃ i ∈ u.indices, walkPayload a root cap d (p + 1) { w with cur := u.index } =
            walkPayload a root cap [] (p + 1 + d.length) { w with cur := i }) →
          ∃ i ∈ u.indices, walkPayload a root cap (x :: d) p w =
            walkPayload a root cap [] (p + (x :: d).length) { w with cur := i } := by
        intro u hu hf hc ⟨k, hk, hrec⟩
        refine ⟨k, hk, ?_⟩
        conv_lhs => rw [walkPayload, if_neg (by simp [hroot]), hc]
        cases u with
        | leaf j s =>
          exfalso
          cases d <;> cases e <;> simp [Tree.follow] at hf hne
        | node j l' r' =>
          have hkk : (nodeAt a (Tree.node j l' r').index).kind = false := hu.1
          rw [if_neg (by simp [hkk]), hrec, List.length_cons, show p + 1 + d.length = p + (d.length + 1) by omega]
      simp only [List.cons_append, Tree.follow] at hd
      cases x with
      | true =>
        obtain ⟨k, hk, h⟩ := key r h5 (by simpa using hd) (by rw [hcur]; exact h3) (hr (by simpa using hd) h5 _ _ rfl)
        exact ⟨k, by simp [Tree.indices, hk], h⟩
      | false =>
        obtain ⟨k, hk, h⟩ := key l h4 (by simpa using hd) (by rw [hcur]; exact h2) (hl (by simpa using hd) h4 _ _ rfl)
        exact ⟨k, by simp [Tree.indices, hk], h⟩

/-- And that node is not the root, where the nodes are distinct and a digit has been read. -/
theorem walkPayload_stopped {a : Arena} {root cap : Nat} {t : Tree} {d e : Bits} {v : Byte} (hd : t.follow (d ++ e) = some v)
    (hdne : d ≠ []) (hene : e ≠ []) (ht : HoldsTree a t) (hdis : t.indices.Nodup) (hroot : t.index = root) (p : Nat)
    (w : Walker) (hcur : w.cur = root) :
    ∃ i, walkPayload a root cap d p w = ({ w with cur := i }, some (.truncatedPayload (p + d.length))) := by
  cases t with
  | leaf i s =>
    exfalso
    cases d <;> cases e <;> simp [Tree.follow] at hd hdne
  | node i l r =>
    subst hroot
    cases d with
    | nil => exact absurd rfl hdne
    | cons x d =>
      have hk : (nodeAt a i).kind = false := ht.1
      obtain ⟨-, h2, h3, h4, h5⟩ := ht
      simp only [Tree.indices, List.nodup_cons, List.mem_append, not_or] at hdis
      have key : ∀ u : Tree, HoldsTree a u → u.follow (d ++ e) = some v → childOf a w.cur x = u.index → i ∉ u.indices →
          ∃ j, walkPayload a i cap (x :: d) p w = ({ w with cur := j }, some (.truncatedPayload (p + (x :: d).length))) := by
        intro u hu hf hc hi
        obtain ⟨j, hj, hw⟩ := walkPayload_inside (a := a) (root := i) (cap := cap) hk hf hene hu (p + 1) { w with cur := u.index } rfl
        refine ⟨j, ?_⟩
        rw [walkPayload, if_neg (by simp [hk]), hc]
        cases u with
        | leaf j s =>
          exfalso
          cases d <;> cases e <;> simp [Tree.follow] at hf hene
        | node j' l' r' =>
          have hkk : (nodeAt a (Tree.node j' l' r').index).kind = false := hu.1
          rw [if_neg (by simp [hkk]), hw, walkPayload]
          simp only
          rw [if_neg (by rintro rfl; exact hi hj), List.length_cons, show p + 1 + d.length = p + (d.length + 1) by omega]
      simp only [List.cons_append, Tree.follow] at hd
      cases x with
      | true => exact key r h5 (by simpa using hd) (by rw [hcur]; exact h3) hdis.1.2
      | false => exact key l h4 (by simpa using hd) (by rw [hcur]; exact h2) hdis.1.1

/-! ## The pseudocode -/

/-- DECODE_PAYLOAD comes to its payload (R280 to R282). -/
theorem bodyDecodePayload_start {s : State} {c : Nat} {payload : Bits} (hlen : s.inLen.toNat ≤ s.cfg.inCap)
    (hv : s.treeValid = true) (hp : s.bitpos.toNat ≤ 8 * s.inLen.toNat) (hc : c ≤ 7)
    (hs : (inStream s).drop s.bitpos.toNat = bin8 (BitVec.ofNat 8 c) ++ zeros c ++ payload) :
    bodyDecodePayload s = decodeFrom c (s.bitpos.toNat + 8 + c) payload s := by
  rw [bodyDecodePayload, if_pos ((inLenOk_iff s).mpr hlen), if_pos hv, if_neg (by omega), hs, readPadding_written hc]

/-- Where the walk has come after a sequence of code words. -/
theorem walk_words {s : State} {t : Tree} {ps : List (Byte × Bits)} {rest : Bits} (p : Nat) (ht : currentTree s = some t)
    (hps : ∀ q ∈ ps, t.follow q.2 = some q.1) (hn : ps.length ≤ s.cfg.outCap) :
    walkPayload s.node s.root.toNat s.cfg.outCap (wordsOf ps ++ rest) p { cur := s.root.toNat, n := 0, out := s.outBuf } =
      walkPayload s.node s.root.toNat s.cfg.outCap rest (p + (wordsOf ps).length)
        { cur := s.root.toNat, n := ps.length, out := Memory.putAll s.outBuf 0 (ps.map Prod.fst) } := by
  obtain ⟨g1, g2, -⟩ := currentTree_eq_some.mp ht
  have := walkPayload_words g1 g2 ps hps rest p { cur := s.root.toNat, n := 0, out := s.outBuf } rfl (by simpa using hn)
  simpa using this

/-- DECODE_PAYLOAD of a sequence of code words (R283, R284, R287). -/
theorem decodeFrom_words {s : State} {t : Tree} {ps : List (Byte × Bits)} (c p : Nat) (ht : currentTree s = some t)
    (hps : ∀ q ∈ ps, t.follow q.2 = some q.1) (hn : ps.length ≤ s.cfg.outCap) :
    decodeFrom c p (wordsOf ps) s = .done { s with
      outBuf := Memory.putAll s.outBuf 0 (ps.map Prod.fst), outLen := BitVec.ofNat 32 ps.length
      padCount := BitVec.ofNat 3 c, payloadBits := BitVec.ofNat 32 (wordsOf ps).length
      bitpos := BitVec.ofNat 32 (8 * s.inLen.toNat) } := by
  have h := walk_words (rest := []) p ht hps hn
  rw [List.append_nil] at h
  rw [decodeFrom, h, walkPayload]
  simp

theorem decodeFrom_raised {c p : Nat} {payload : Bits} {s : State} {w : Walker} {e : Cause}
    (h : walkPayload s.node s.root.toNat s.cfg.outCap payload p { cur := s.root.toNat, n := 0, out := s.outBuf } = (w, some e)) :
    decodeFrom c p payload s = .raised e { s with outBuf := w.out } := by rw [decodeFrom, h]

/-- What OUT holds after writing a sequence of bytes from index 0. -/
theorem outHolds_putAll {s t : State} (bytes : List Byte) (h1 : t.outBuf = Memory.putAll s.outBuf 0 bytes)
    (h2 : t.epoch = s.epoch) : OutHolds s t bytes := by
  intro k
  simp only [outByte, h1, h2, Memory.byte_putAll]
  by_cases hk : k < bytes.length
  · rw [if_pos (by omega), dif_pos hk, Nat.sub_zero]
    simp [List.getD, hk]
  · rw [if_neg (by omega), dif_neg hk]

/-- DECOMPRESS of a tree, its padding and a sequence of code words (R313). -/
theorem bodyDecompress_words {s : State} {tr : Tree} {c : Nat} {ps : List (Byte × Bits)}
    (hlen : s.inLen.toNat ≤ s.cfg.inCap) (hsize : tr.size ≤ 511) (hc : c ≤ 7)
    (hs : inStream s = serialize tr ++ (bin8 (BitVec.ofNat 8 c) ++ zeros c ++ wordsOf ps))
    (hps : ∀ q ∈ ps, tr.follow q.2 = some q.1) (hn : ps.length ≤ s.cfg.outCap) :
    ∃ (t : State) (u : Tree) (n : Arena) (k : BitVec 10) (l : BitVec 9), bodyDecompress s = .done t ∧
      t = { clearTree s with
        node := n, root := 0, nodeCount := k, leafCount := l, treeBits := BitVec.ofNat 32 (serialize tr).length
        treeValid := true, outBuf := Memory.putAll s.outBuf 0 (ps.map Prod.fst), outLen := BitVec.ofNat 32 ps.length
        padCount := BitVec.ofNat 3 c, payloadBits := BitVec.ofNat 32 (wordsOf ps).length
        bitpos := BitVec.ofNat 32 (8 * s.inLen.toNat) } ∧
      TreeHolds t u ∧ tr.alike u = true := by
  obtain ⟨t, u, h1, h2, h3, h4, -⟩ := bodyTreeLoad_done hlen hs hsize
  have hl := length_serialize tr
  have hsl := tr.size_leaves
  have hin : t.inLen = s.inLen := by rw [h2]; rfl
  have hcfg : t.cfg = s.cfg := by rw [h2]; rfl
  have hbp : t.bitpos.toNat = (serialize tr).length := by rw [h2]; simp only [BitVec.toNat_ofNat]; omega
  have hb : inStream t = inStream s := by
    rw [inStream, inStream]; congr 1; apply inBytes_congr <;> rw [h2] <;> rfl
  have hsl' := congrArg List.length hs
  simp only [length_inStream, List.length_append, length_bin8, length_zeros] at hsl'
  have hd : (inStream t).drop t.bitpos.toNat = bin8 (BitVec.ofNat 8 c) ++ zeros c ++ wordsOf ps := by
    rw [hb, hs, hbp, List.drop_left' rfl]
  have e := (bodyDecodePayload_start (s := t) (by rw [hin, hcfg]; exact hlen) (by rw [h2]) (by rw [hbp, hin]; omega) hc hd).trans
    (decodeFrom_words c _ h3.reads (fun q hq => by rw [← Tree.follow_alike h4]; exact hps q hq) (by rw [hcfg]; exact hn))
  have e2 : bodyDecompress s = bodyDecodePayload t := by rw [bodyDecompress, h1]; rfl
  refine ⟨_, u, t.node, t.nodeCount, t.leafCount, e2.trans e, ?_, h3.congr rfl rfl rfl rfl rfl, h4⟩
  rw [h2]; rfl

end Sys2Proof.Machine
end

