-- ==== Sys2Proof/Laws/Merge.lean ====
section
/-! SUPPORT. The order of TREE_BUILD's merges (R181, R182) and the arena it leaves (R183), read from the final
arena: a merge writes one fresh entry, so every earlier entry stays as it was. -/

namespace Sys2Proof.Machine

theorem keyBefore_iff {a : Arena} {i j : Nat} (hi : i < 512) (hj : j < 512) : keyBefore a i j ↔ keyOf a i < keyOf a j := by
  unfold keyBefore keyOf; omega

/-- What holds of merge k, with n leaves (R182). -/
structure MergedAt (a : Arena) (n k : Nat) : Prop where
  first  : inQueue a n k (nodeAt a (n + k)).left.toNat
  second : inQueue a n k (nodeAt a (n + k)).right.toNat
  order  : keyBefore a (nodeAt a (n + k)).left.toNat (nodeAt a (n + k)).right.toNat
  least  : ∀ z, inQueue a n k z → z ≠ (nodeAt a (n + k)).left.toNat → z ≠ (nodeAt a (n + k)).right.toNat →
    keyBefore a (nodeAt a (n + k)).right.toNat z
  node   : (nodeAt a (n + k)).kind = false ∧ (nodeAt a (n + k)).sym = 0

theorem inQueue_congr {a b : Arena} {n k i : Nat} (h : ∀ j, j < n + k → nodeAt b j = nodeAt a j) :
    inQueue b n k i ↔ inQueue a n k i := by
  unfold inQueue
  refine and_congr_right fun _ => forall_congr' fun j => ?_
  refine imp_congr_right fun hj => ?_
  rw [h (n + j) (by omega)]

theorem keyBefore_congr {a b : Arena} {i j : Nat} (hi : nodeAt b i = nodeAt a i) (hj : nodeAt b j = nodeAt a j) :
    keyBefore b i j ↔ keyBefore a i j := by unfold keyBefore; rw [hi, hj]

theorem MergedAt.congr {a b : Arena} {n k : Nat} (h : MergedAt a n k) (hab : ∀ j, j ≤ n + k → nodeAt b j = nodeAt a j) :
    MergedAt b n k := by
  have e := hab (n + k) (Nat.le_refl _)
  have q : ∀ i, inQueue b n k i ↔ inQueue a n k i := fun i => inQueue_congr fun j hj => hab j (by omega)
  obtain ⟨h1, h2, h3, h4, h5⟩ := h
  refine ⟨?_, ?_, ?_, ?_, ?_⟩ <;> rw [e]
  · exact (q _).mpr h1
  · exact (q _).mpr h2
  · exact (keyBefore_congr (hab _ (by have := h1.1; omega)) (hab _ (by have := h2.1; omega))).mpr h3
  · intro z hz n1 n2
    rw [q] at hz
    exact (keyBefore_congr (hab _ (by have := h2.1; omega)) (hab _ (by have := hz.1; omega))).mpr (h4 z hz n1 n2)
  · exact h5

/-- What holds between merges (R182): the merges so far were right, and Q is what they have left. -/
structure Merging (a : Arena) (n next : Nat) (q : List Nat) : Prop where
  leaves : n ≤ next
  merged : ∀ k, n + k < next → MergedAt a n k
  queue  : ∀ i, i ∈ q ↔ inQueue a n (next - n) i
  nodup  : q.Nodup

theorem Merging.merge {a : Arena} {n next x y : Nat} {q : List Nat} (h : Merging a n next q) (hnext : next < 511)
    (hx : argmin a q = some x) (hy : argmin a (q.erase x) = some y) :
    Merging (nodePut a next (mergedNode a x y)) n (next + 1) (next :: (q.erase x).erase y) := by
  obtain ⟨hn, hm, hq, hd⟩ := h
  obtain ⟨k, rfl⟩ : ∃ k, next = n + k := ⟨next - n, by omega⟩
  simp only [Nat.add_sub_cancel_left] at hq
  have mx := argmin_mem hx
  have my' := argmin_mem hy
  have my := List.mem_of_mem_erase my'
  have hlt : ∀ i ∈ q, i < n + k := fun i hi => ((hq i).mp hi).1
  have hxy : y ≠ x := (hd.mem_erase_iff.mp my').1
  have old : ∀ j, j < n + k → nodeAt (nodePut a (n + k) (mergedNode a x y)) j = nodeAt a j :=
    fun j hj => nodeAt_nodePut_other _ _ (by omega)
  have new : nodeAt (nodePut a (n + k) (mergedNode a x y)) (n + k) = mergedNode a x y := nodeAt_nodePut_same _ _ hnext
  have el : (mergedNode a x y).left.toNat = x := by
    have := hlt x mx; simp only [mergedNode, BitVec.toNat_ofNat]; omega
  have er : (mergedNode a x y).right.toNat = y := by
    have := hlt y my; simp only [mergedNode, BitVec.toNat_ofNat]; omega
  have hq' : ∀ i, inQueue (nodePut a (n + k) (mergedNode a x y)) n k i ↔ i ∈ q := fun i => (inQueue_congr old).trans (hq i).symm
  have small : ∀ i ∈ q, i < 512 := fun i hi => by have := hlt i hi; omega
  have kb : ∀ i ∈ q, ∀ j ∈ q, keyBefore (nodePut a (n + k) (mergedNode a x y)) i j ↔ keyOf a i < keyOf a j := by
    intro i hi j hj
    rw [keyBefore_congr (old i (hlt i hi)) (old j (hlt j hj)), keyBefore_iff (small i hi) (small j hj)]
  have lx := argmin_least hx small
  have ly := argmin_least hy (fun i hi => small i (List.mem_of_mem_erase hi))
  have key_ne : ∀ i j, i < 512 → j < 512 → i ≠ j → keyOf a i ≠ keyOf a j := by intro i j hi hj hij; unfold keyOf; omega
  have hnew : MergedAt (nodePut a (n + k) (mergedNode a x y)) n k := by
    refine ⟨?_, ?_, ?_, ?_, ?_⟩ <;> rw [new]
    · rw [el, hq']; exact mx
    · rw [er, hq']; exact my
    · rw [el, er, kb x mx y my]
      have := lx y my
      have := key_ne x y (small x mx) (small y my) hxy.symm
      omega
    · intro z hz n1 n2
      rw [hq'] at hz
      rw [el] at n1
      rw [er] at n2 ⊢
      rw [kb y my z hz]
      have := ly z (hd.mem_erase_iff.mpr ⟨n1, hz⟩)
      have := key_ne y z (small y my) (small z hz) (Ne.symm n2)
      omega
    · exact ⟨rfl, rfl⟩
  have hall : ∀ j, n + j < n + k + 1 → MergedAt (nodePut a (n + k) (mergedNode a x y)) n j := by
    intro j hj
    by_cases e : j = k
    · subst e; exact hnew
    · exact (hm j (by omega)).congr fun i hi => old i (by omega)
  refine ⟨by omega, hall, ?_, ?_⟩
  · intro i
    rw [show n + k + 1 - n = k + 1 by omega, List.mem_cons, (hd.erase x).mem_erase_iff, hd.mem_erase_iff]
    constructor
    · rintro (rfl | ⟨n2, n1, hi⟩)
      · refine ⟨by omega, fun j hj => ?_⟩
        have := hall j (by omega)
        have h1 := this.first.1
        have h2 := this.second.1
        omega
      · obtain ⟨h1, h2⟩ := (hq' i).mpr hi
        refine ⟨by omega, fun j hj => ?_⟩
        by_cases e : j = k
        · subst e; rw [new, el, er]; exact ⟨Ne.symm n1, Ne.symm n2⟩
        · exact h2 j (by omega)
    · rintro ⟨h1, h2⟩
      by_cases e : i = n + k
      · exact .inl e
      · have h3 := h2 k (by omega)
        rw [new, el, er] at h3
        exact .inr ⟨Ne.symm h3.2, Ne.symm h3.1, (hq' i).mp ⟨by omega, fun j hj => h2 j (by omega)⟩⟩
  · refine List.nodup_cons.mpr ⟨fun hi => ?_, (hd.erase x).erase y⟩
    have := hlt _ (List.mem_of_mem_erase (List.mem_of_mem_erase hi))
    omega

/-- The loop makes all its merges, and changes no earlier entry. -/
theorem Merging.loop {n fuel next : Nat} {q : List Nat} {a : Arena} (h : Merging a n next q) (hq : 1 ≤ q.length)
    (hf : q.length ≤ fuel) (hcap : next + q.length ≤ 512) :
    Merging (mergeLoop fuel next q a).1 n (next + q.length - 1) (mergeLoop fuel next q a).2 ∧
      ∀ j, j < next → nodeAt (mergeLoop fuel next q a).1 j = nodeAt a j := by
  induction fuel generalizing next q a with
  | zero => omega
  | succ fuel ih =>
    rw [mergeLoop]
    cases hx : argmin a q with
    | none => rw [argmin_eq_none.mp hx] at hq; simp at hq
    | some x =>
      simp only
      have mx := argmin_mem hx
      have l1 := List.length_erase_of_mem mx
      cases hy : argmin a (q.erase x) with
      | none =>
        simp only
        have e := argmin_eq_none.mp hy
        rw [e, List.length_nil] at l1
        rw [show next + q.length - 1 = next by omega]
        exact ⟨h, fun j _ => trivial⟩
      | some y =>
        simp only
        have my := argmin_mem hy
        have l2 := List.length_erase_of_mem my
        have l4 : 1 ≤ (q.erase x).length := List.length_pos_of_mem my
        have hlen : (next :: (q.erase x).erase y).length + 1 = q.length := by simp only [List.length_cons]; omega
        obtain ⟨r1, r2⟩ := ih (h.merge (by omega) hx hy) (by simp) (by omega) (by omega)
        refine ⟨by rw [show next + q.length - 1 = next + 1 + (next :: (q.erase x).erase y).length - 1 by omega]; exact r1, fun j hj => ?_⟩
        rw [r2 j (by omega), nodeAt_nodePut_other _ _ (by omega)]

/-- The arena of TREE_BUILD (R181 to R183). -/
theorem buildArena_merging (f : FreqTable) {syms : List Byte} (hn : syms.length ≤ 256) (hne : syms ≠ []) :
    Merging (buildArena f syms).1 syms.length (2 * syms.length - 1) (buildArena f syms).2 ∧
      ∀ i (h : i < syms.length), nodeAt (buildArena f syms).1 i = leafNode syms[i] (freqAt f syms[i]) := by
  have h0 : 1 ≤ syms.length := List.length_pos_iff.mpr hne
  have start : Merging (putLeaves f 0 syms arenaZero) syms.length syms.length (List.range syms.length) :=
    ⟨Nat.le_refl _, fun k hk => by omega, fun i => by simp [inQueue], List.nodup_range⟩
  obtain ⟨r1, r2⟩ := start.loop (fuel := syms.length) (by simpa using h0) (by simp) (by simp; omega)
  rw [List.length_range, show syms.length + syms.length - 1 = 2 * syms.length - 1 by omega] at r1
  refine ⟨r1, fun i h => ?_⟩
  rw [buildArena, r2 i h, nodeAt_putLeaves f 0 syms arenaZero i (by omega), if_pos (by omega)]
  simp [h]

/-- An internal node's frequency is the sum of its children's (R182, R186). -/
theorem Weighed.sum {f : FreqTable} {a : Arena} {t : Tree} (h : Weighed f a t) (ht : HoldsTree a t) {i : Nat}
    (hi : i ∈ t.indices) (hk : (nodeAt a i).kind = false) :
    (nodeAt a i).nfreq.toNat =
      (nodeAt a (nodeAt a i).left.toNat).nfreq.toNat + (nodeAt a (nodeAt a i).right.toNat).nfreq.toNat := by
  induction t with
  | leaf j b => simp only [Tree.indices, List.mem_singleton] at hi; subst hi; exact absurd (ht.1.symm.trans hk) (by simp)
  | node j l r hl hr =>
    obtain ⟨w1, w2, w3⟩ := h
    obtain ⟨-, h2, h3, h4, h5⟩ := ht
    simp only [Tree.indices, List.mem_cons, List.mem_append] at hi
    rcases hi with rfl | hi | hi
    · rw [h2, h3, w1, w2.root, w3.root, weigh_append]
    · exact hl w2 h4 hi
    · exact hr w3 h5 hi

/-- Every node of a held tree is the root of a held tree, weighed where the whole is. -/
theorem Weighed.subtree {f : FreqTable} {a : Arena} {t : Tree} (h : Weighed f a t) (ht : HoldsTree a t) {i : Nat}
    (hi : i ∈ t.indices) : ∃ u, HoldsTree a u ∧ u.index = i ∧ u.levels ≤ t.levels ∧ Weighed f a u := by
  induction t with
  | leaf j b => simp only [Tree.indices, List.mem_singleton] at hi; subst hi; exact ⟨_, ht, rfl, Nat.le_refl _, h⟩
  | node j l r hl hr =>
    have h' := h
    have ht' := ht
    obtain ⟨w1, w2, w3⟩ := h
    obtain ⟨-, h2, h3, h4, h5⟩ := ht
    simp only [Tree.indices, List.mem_cons, List.mem_append] at hi
    rcases hi with rfl | hi | hi
    · exact ⟨_, ht', rfl, Nat.le_refl _, h'⟩
    · obtain ⟨u, e1, e2, e3, e4⟩ := hl w2 h4 hi
      exact ⟨u, e1, e2, by simp only [Tree.levels]; omega, e4⟩
    · obtain ⟨u, e1, e2, e3, e4⟩ := hr w3 h5 hi
      exact ⟨u, e1, e2, by simp only [Tree.levels]; omega, e4⟩

/-- The total frequency is the sum over all symbols: absent ones count 0 (R186). -/
theorem weigh_presentSymbols (f : FreqTable) :
    weigh f (presentSymbols f) = ((List.range 256).map fun x => (freqAt f (BitVec.ofNat 8 x)).toNat).sum := by
  have h : ∀ l : List Byte, weigh f (l.filter fun b => freqAt f b != 0) = (l.map fun b => (freqAt f b).toNat).sum := by
    intro l
    induction l with
    | nil => rfl
    | cons b l ih =>
      by_cases hb : freqAt f b = 0
      · rw [List.filter_cons_of_neg (by simpa using hb), ih, List.map_cons, List.sum_cons, hb]; simp
      · rw [List.filter_cons_of_pos (by simpa using hb), List.map_cons, List.sum_cons, ← ih]; rfl
  rw [presentSymbols, h, List.map_map]; rfl

end Sys2Proof.Machine
end

