-- ==== Sys2Proof/Laws/Ownership.lean ====
section
/-! SUPPORT. Nodes of a held tree: which are reached from ROOT, and that each has one owner (R49). -/

namespace Sys2Proof.Machine

theorem childOf_false (a : Arena) (i : Nat) : childOf a i false = (nodeAt a i).left.toNat := rfl

theorem childOf_true (a : Arena) (i : Nat) : childOf a i true = (nodeAt a i).right.toNat := rfl

/-- The children of an internal node of the tree are nodes of the tree. -/
theorem HoldsTree.child_mem {a : Arena} {t : Tree} (h : HoldsTree a t) {i : Nat} (hi : i ∈ t.indices)
    (hk : (nodeAt a i).kind = false) (d : Bool) : childOf a i d ∈ t.indices := by
  induction t with
  | leaf j b => simp only [Tree.indices, List.mem_singleton] at hi; subst hi; exact absurd (h.1.symm.trans hk) (by simp)
  | node j l r hl hr =>
    obtain ⟨-, h2, h3, h4, h5⟩ := h
    simp only [Tree.indices, List.mem_cons, List.mem_append] at hi ⊢
    rcases hi with rfl | hi | hi
    · cases d
      · rw [childOf_false, h2]; exact .inr (.inl l.index_mem)
      · rw [childOf_true, h3]; exact .inr (.inr r.index_mem)
    · exact .inr (.inl (hl h4 hi))
    · exact .inr (.inr (hr h5 hi))

theorem HoldsTree.reached {s : State} {t : Tree} (h : HoldsTree s.node t) (hr : Reached s t.index) {i : Nat}
    (hi : i ∈ t.indices) : Reached s i := by
  induction t with
  | leaf j b => simp only [Tree.indices, List.mem_singleton] at hi; subst hi; exact hr
  | node j l r hl hrr =>
    obtain ⟨h1, h2, h3, h4, h5⟩ := h
    simp only [Tree.indices, List.mem_cons, List.mem_append] at hi
    rcases hi with rfl | hi | hi
    · exact hr
    · exact hl h4 (h2 ▸ Reached.child false hr h1) hi
    · exact hrr h5 (h3 ▸ Reached.child true hr h1) hi

/-- `Tree(ROOT)` (R18) is the set of the tree's indices. -/
theorem reached_iff {s : State} {t : Tree} (h : HoldsTree s.node t) (hroot : t.index = s.root.toNat) (i : Nat) :
    Reached s i ↔ i ∈ t.indices := by
  constructor
  · intro hi
    induction hi with
    | root => rw [← hroot]; exact t.index_mem
    | child d _ hk ih => exact h.child_mem ih hk d
  · exact h.reached (hroot ▸ Reached.root)

/-- Every node but the root has an owner. -/
theorem HoldsTree.owner {a : Arena} {t : Tree} (h : HoldsTree a t) {j : Nat} (hj : j ∈ t.indices) (hne : j ≠ t.index) :
    ∃ i d, i ∈ t.indices ∧ (nodeAt a i).kind = false ∧ childOf a i d = j := by
  induction t with
  | leaf k b => simp only [Tree.indices, List.mem_singleton] at hj; exact absurd hj hne
  | node k l r hl hr =>
    obtain ⟨h1, h2, h3, h4, h5⟩ := h
    simp only [Tree.indices, List.mem_cons, List.mem_append] at hj ⊢
    rcases hj with rfl | hj | hj
    · exact absurd rfl hne
    · by_cases e : j = l.index
      · exact ⟨k, false, .inl rfl, h1, by rw [childOf_false, h2, e]⟩
      · obtain ⟨i, d, m, r1, r2⟩ := hl h4 hj e
        exact ⟨i, d, .inr (.inl m), r1, r2⟩
    · by_cases e : j = r.index
      · exact ⟨k, true, .inl rfl, h1, by rw [childOf_true, h3, e]⟩
      · obtain ⟨i, d, m, r1, r2⟩ := hr h5 hj e
        exact ⟨i, d, .inr (.inr m), r1, r2⟩

/-- No node owns the root. -/
theorem HoldsTree.child_ne_root {a : Arena} {t : Tree} (h : HoldsTree a t) (hd : t.indices.Nodup) {i : Nat}
    (hi : i ∈ t.indices) (hk : (nodeAt a i).kind = false) (d : Bool) : childOf a i d ≠ t.index := by
  cases t with
  | leaf j b => simp only [Tree.indices, List.mem_singleton] at hi; subst hi; exact absurd (h.1.symm.trans hk) (by simp)
  | node j l r =>
    obtain ⟨-, h2, h3, h4, h5⟩ := h
    simp only [Tree.indices, List.nodup_cons, List.mem_append, not_or] at hd
    obtain ⟨⟨n1, n2⟩, -⟩ := hd
    simp only [Tree.indices, List.mem_cons, List.mem_append] at hi
    have key : childOf a i d ∈ l.indices ∨ childOf a i d ∈ r.indices := by
      rcases hi with rfl | hi | hi
      · cases d
        · rw [childOf_false, h2]; exact .inl l.index_mem
        · rw [childOf_true, h3]; exact .inr r.index_mem
      · exact .inl (h4.child_mem hi hk d)
      · exact .inr (h5.child_mem hi hk d)
    intro e
    rw [e] at key
    exact key.elim n1 n2

/-- Every node has at most one owner, on one side. -/
theorem HoldsTree.owner_unique {a : Arena} {t : Tree} (h : HoldsTree a t) (hd : t.indices.Nodup) {i i' : Nat} {d d' : Bool}
    (hi : i ∈ t.indices) (hi' : i' ∈ t.indices) (hk : (nodeAt a i).kind = false) (hk' : (nodeAt a i').kind = false)
    (he : childOf a i d = childOf a i' d') : i = i' ∧ d = d' := by
  induction t with
  | leaf j b => simp only [Tree.indices, List.mem_singleton] at hi; subst hi; exact absurd (h.1.symm.trans hk) (by simp)
  | node j l r hl hr =>
    obtain ⟨-, h2, h3, h4, h5⟩ := h
    simp only [Tree.indices, List.nodup_cons, List.nodup_append, List.mem_append, not_or] at hd
    obtain ⟨-, dl, dr, dis⟩ := hd
    simp only [Tree.indices, List.mem_cons, List.mem_append] at hi hi'
    have top : ∀ e : Bool, childOf a j e = if e then r.index else l.index := by
      intro e; cases e
      · rw [childOf_false, h2]; rfl
      · rw [childOf_true, h3]; rfl
    have inl : ∀ {k : Nat} {e : Bool}, k ∈ l.indices → (nodeAt a k).kind = false → childOf a k e ∈ l.indices ∧ childOf a k e ≠ l.index :=
      fun hm hk => ⟨h4.child_mem hm hk _, h4.child_ne_root dl hm hk _⟩
    have inr : ∀ {k : Nat} {e : Bool}, k ∈ r.indices → (nodeAt a k).kind = false → childOf a k e ∈ r.indices ∧ childOf a k e ≠ r.index :=
      fun hm hk => ⟨h5.child_mem hm hk _, h5.child_ne_root dr hm hk _⟩
    have sep : ∀ {x y : Nat}, x ∈ l.indices → y ∈ r.indices → x ≠ y := fun hx hy => dis _ hx _ hy
    rcases hi with rfl | hi | hi <;> rcases hi' with rfl | hi' | hi'
    · rw [top, top] at he
      refine ⟨rfl, ?_⟩
      cases d <;> cases d' <;> simp only [Bool.false_eq_true, if_true, if_false] at he ⊢
      · exact (sep l.index_mem r.index_mem he).elim
      · exact (sep l.index_mem r.index_mem he.symm).elim
    · rw [top] at he
      have := inl (e := d') hi' hk'
      cases d
      · exact absurd he.symm this.2
      · exact absurd he.symm (sep this.1 r.index_mem)
    · rw [top] at he
      have := inr (e := d') hi' hk'
      cases d
      · exact absurd he (sep l.index_mem this.1)
      · exact absurd he.symm this.2
    · rw [top] at he
      have := inl (e := d) hi hk
      cases d'
      · exact absurd he this.2
      · exact absurd he (sep this.1 r.index_mem)
    · exact hl h4 dl hi hi'
    · exact absurd he (sep (inl (e := d) hi hk).1 (inr (e := d') hi' hk').1)
    · rw [top] at he
      have := inr (e := d) hi hk
      cases d'
      · exact absurd he.symm (sep l.index_mem this.1)
      · exact absurd he this.2
    · exact absurd he.symm (sep (inl (e := d') hi' hk').1 (inr (e := d) hi hk).1)
    · exact hr h5 dr hi hi'

/-- The leaves among a tree's nodes (R49 e). -/
theorem HoldsTree.count_leaves {a : Arena} {t : Tree} (h : HoldsTree a t) :
    t.indices.countP (fun i => (nodeAt a i).kind) = t.leaves := by
  induction t with
  | leaf i b => simp [Tree.indices, Tree.leaves, h.1]
  | node i l r hl hr =>
    obtain ⟨h1, -, -, h4, h5⟩ := h
    simp [Tree.indices, Tree.leaves, List.countP_append, h1, hl h4, hr h5]

end Sys2Proof.Machine
end

