-- ==== Sys2Proof/Laws/ParseErrors.lean ====
section
/-! SUPPORT. The two errors of TREE_LOAD's parse (spec/43_tree_codec.md R225, R226): where they arise. -/

namespace Sys2Proof.Machine

theorem Tree.symbols_alike {t u : Tree} (h : t.alike u = true) : t.symbols = u.symbols := by
  induction t generalizing u with
  | leaf i b => cases u with
    | leaf j b' => simp only [Tree.alike, beq_iff_eq] at h; simp [Tree.symbols, h]
    | node => simp [Tree.alike] at h
  | node i l r hl hr => cases u with
    | leaf => simp [Tree.alike] at h
    | node j l' r' =>
      simp only [Tree.alike, Bool.and_eq_true] at h
      simp [Tree.symbols, hl h.1, hr h.2]

theorem Tree.leaves_alike {t u : Tree} (h : t.alike u = true) : t.leaves = u.leaves := by
  rw [← t.length_symbols, ← u.length_symbols, Tree.symbols_alike h]

theorem Tree.levels_le_size (t : Tree) : t.levels ≤ t.size := by
  have := t.levels_le_leaves
  have := t.size_leaves
  have := t.leaves_pos
  omega

/-! ## Tags -/

theorem Tree.length_tags (t : Tree) : t.tags.length = t.size := by
  induction t with
  | leaf => rfl
  | node i l r hl hr => simp only [Tree.tags, Tree.size, List.length_cons, List.length_append, List.length_map, hl, hr]; omega

theorem Tree.tags_lt {t : Tree} {p : Nat} (h : p ∈ t.tags) : p < (serialize t).length := by
  induction t generalizing p with
  | leaf i b => simp only [Tree.tags, List.mem_singleton] at h; subst h; simp [serialize]
  | node i l r hl hr =>
    simp only [Tree.tags, List.mem_cons, List.mem_append, List.mem_map] at h
    simp only [serialize, List.length_cons, List.length_append]
    rcases h with rfl | ⟨q, hq, rfl⟩ | ⟨q, hq, rfl⟩
    · omega
    · have := hl hq; omega
    · have := hr hq; omega

/-- How many tags of a tree lie before position n. -/
def Tree.tagsBefore (t : Tree) (n : Nat) : Nat := (t.tags.filter fun p => decide (p < n)).length

theorem Tree.tagsBefore_leaf (i : Nat) (b : Byte) (n : Nat) : (Tree.leaf i b).tagsBefore (n + 1) = 1 := by
  simp [Tree.tagsBefore, Tree.tags]

theorem Tree.tagsBefore_node (i : Nat) (l r : Tree) (n : Nat) :
    (Tree.node i l r).tagsBefore (n + 1) = 1 + l.tagsBefore n + r.tagsBefore (n - (serialize l).length) := by
  have e1 : (fun p => decide (1 + p < n + 1)) = fun p => decide (p < n) := by
    funext p; rw [decide_eq_decide]; omega
  have e2 : (fun p => decide (1 + (serialize l).length + p < n + 1)) = fun p => decide (p < n - (serialize l).length) := by
    funext p; rw [decide_eq_decide]; omega
  rw [Tree.tagsBefore, Tree.tags, List.filter_cons, if_pos (by simp)]
  simp only [Tree.tagsBefore, List.filter_append, List.filter_map, List.length_cons, List.length_append, List.length_map,
    Function.comp_def, e1, e2]
  omega

theorem Tree.tagsBefore_all {t : Tree} {n : Nat} (h : (serialize t).length ≤ n) : t.tagsBefore n = t.size := by
  rw [Tree.tagsBefore, List.filter_eq_self.mpr, t.length_tags]
  intro p hp
  have := Tree.tags_lt hp
  simp only [decide_eq_true_eq]; omega

/-! ## A tree that the stream holds -/

/-- The parse of a tree that the stream holds whole and the arena has room for. -/
theorem parse_whole (len : Nat) {t : Tree} {fuel : Nat} {st : Loader} {rest : Bits} (hb : st.bits = serialize t ++ rest)
    (hc : st.cnt + t.size ≤ 511) (hf : 512 ≤ fuel + st.cnt) :
    ∃ i st', parse len fuel st = .ok (i, st') ∧ st'.bits = rest ∧ st'.cnt = st.cnt + t.size ∧
      st'.pos = st.pos + (serialize t).length := by
  have := t.levels_le_size
  obtain ⟨i, st', h, h1, h2⟩ := parse_serialize len hb hc (fuel := fuel) (by omega)
  obtain ⟨-, u, hP⟩ := parse_ok h (by omega)
  refine ⟨i, st', h, h1, h2, ?_⟩
  have e1 := hP.bits
  rw [hb, h1] at e1
  have := congrArg List.length (List.append_cancel_right e1)
  rw [hP.pos, this]

/-! ## A stream that ends inside the tree (R225) -/

/-- Where digits are missing and 512 nodes are not reached before the end, the parse raises CORRUPT_TREE. -/
theorem parse_truncated (len : Nat) {t : Tree} {fuel : Nat} {st : Loader} {missing : Bits} (hm : missing ≠ [])
    (hb : st.bits ++ missing = serialize t) (hc : st.cnt + t.tagsBefore st.bits.length ≤ 511)
    (hf : 512 ≤ fuel + st.cnt) : parse len fuel st = .error (.corruptTree len) := by
  obtain ⟨fuel, rfl⟩ : ∃ f, fuel = f + 1 := ⟨fuel - 1, by omega⟩
  induction t generalizing fuel st missing with
  | leaf j b =>
    rw [parse]
    cases hbits : st.bits with
    | nil => rfl
    | cons d rest =>
      rw [hbits, List.length_cons, Tree.tagsBefore_leaf] at hc
      rw [hbits] at hb
      simp only [serialize, List.cons_append, List.cons.injEq] at hb
      obtain ⟨rfl, hb⟩ := hb
      have hl := congrArg List.length hb
      have := List.length_pos_iff.mpr hm
      simp only [List.length_append, length_bin8] at hl
      simp only
      rw [if_neg (by omega), if_pos trivial, splitBits_of_gt (by omega)]
  | node j l r hl hr =>
    rw [parse]
    cases hbits : st.bits with
    | nil => rfl
    | cons d rest =>
      rw [hbits, List.length_cons, Tree.tagsBefore_node] at hc
      rw [hbits] at hb
      simp only [serialize, List.cons_append, List.cons.injEq] at hb
      obtain ⟨rfl, hb⟩ := hb
      simp only
      rw [if_neg (by omega), if_neg (by simp)]
      rcases Nat.lt_or_ge rest.length (serialize l).length with hlt | hge
      · have hx : rest ++ (serialize l).drop rest.length = serialize l := by
          have h1 := congrArg (List.take (serialize l).length) hb
          rw [List.take_left' rfl, List.take_append, List.take_of_length_le (by omega)] at h1
          have h2 : (serialize l).take rest.length = rest := by
            rw [← h1, List.take_left' rfl]
          conv_rhs => rw [← List.take_append_drop rest.length (serialize l), h2]
        have hne : (serialize l).drop rest.length ≠ [] := by
          intro e; have := congrArg List.length e; simp at this; omega
        obtain ⟨fuel, rfl⟩ : ∃ f, fuel = f + 1 := ⟨fuel - 1, by omega⟩
        rw [hl hne hx (by simp only; omega) fuel (by simp only; omega)]
      · have hx : rest = serialize l ++ rest.drop (serialize l).length := by
          have h1 := congrArg (List.take (serialize l).length) hb
          rw [List.take_left' rfl, List.take_append_of_le_length hge] at h1
          conv_lhs => rw [← List.take_append_drop (serialize l).length rest, h1]
        generalize rest.drop (serialize l).length = rest₂ at hx
        subst hx
        rw [List.append_assoc] at hb
        have hb := List.append_cancel_left hb
        rw [Tree.tagsBefore_all (t := l) (by simp), List.length_append, Nat.add_sub_cancel_left] at hc
        obtain ⟨i₁, st₁, h1, b1, c1, -⟩ := parse_whole len (t := l) (fuel := fuel) (rest := rest₂)
          (st := { st with bits := serialize l ++ rest₂, pos := st.pos + 1, cnt := st.cnt + 1,
                           node := nodePut st.node st.cnt (loadedNode 0 0) }) rfl (by simp only; omega) (by simp only; omega)
        simp only at c1
        rw [h1]
        simp only
        obtain ⟨fuel, rfl⟩ : ∃ f, fuel = f + 1 := ⟨fuel - 1, by
          have := r.leaves_pos; have := l.size_leaves; have := l.leaves_pos
          omega⟩
        rw [hr (st := { st₁ with node := nodePut st₁.node st.cnt (loadedNode i₁ 0) }) hm (by simpa [b1] using hb)
          (by simp only [b1]; omega) fuel (by simp only; omega)]

/-! ## A 512th node (R226) -/

/-- Where the stream reaches the tag of a 512th node, the parse raises TREE_TOO_LARGE there. -/
theorem parse_tooLarge (len : Nat) {t : Tree} {fuel p : Nat} {st : Loader} {x y : Bits}
    (hb : st.bits ++ x = serialize t ++ y) (ht : t.tags[511 - st.cnt]? = some p) (hp : p < st.bits.length)
    (hc : st.cnt ≤ 511) (hf : 512 ≤ fuel + st.cnt) : parse len fuel st = .error (.treeTooLarge (st.pos + p)) := by
  obtain ⟨fuel, rfl⟩ : ∃ f, fuel = f + 1 := ⟨fuel - 1, by omega⟩
  induction t generalizing fuel st p x y with
  | leaf j b =>
    rw [parse]
    cases hbits : st.bits with
    | nil => rw [hbits] at hp; simp at hp
    | cons d rest =>
      have h0 : 511 - st.cnt = 0 := by
        by_contra h
        rw [Tree.tags, List.getElem?_eq_none (by simp; omega)] at ht; cases ht
      simp only [h0, Tree.tags, List.getElem?_cons_zero, Option.some.injEq] at ht
      subst ht
      simp only
      rw [if_pos (by omega), Nat.add_zero]
  | node j l r hl hr =>
    rw [parse]
    cases hbits : st.bits with
    | nil => rw [hbits] at hp; simp at hp
    | cons d rest =>
      rw [hbits, List.length_cons] at hp
      rw [hbits] at hb
      simp only [serialize, List.cons_append, List.append_assoc, List.cons.injEq] at hb
      obtain ⟨rfl, hb⟩ := hb
      simp only
      by_cases h511 : st.cnt = 511
      · rw [if_pos h511]
        rw [h511] at ht
        simp only [Nat.sub_self, Tree.tags, List.getElem?_cons_zero, Option.some.injEq] at ht
        subst ht; rfl
      · rw [if_neg h511, if_neg (by simp)]
        rw [show 511 - st.cnt = (511 - (st.cnt + 1)) + 1 by omega, Tree.tags, List.getElem?_cons_succ] at ht
        by_cases hk : 511 - (st.cnt + 1) < l.size
        · rw [List.getElem?_append_left (by simpa [l.length_tags] using hk), List.getElem?_map, Option.map_eq_some_iff] at ht
          obtain ⟨q, hq, rfl⟩ := ht
          obtain ⟨fuel, rfl⟩ : ∃ f, fuel = f + 1 := ⟨fuel - 1, by omega⟩
          rw [hl (st := { st with bits := rest, pos := st.pos + 1, cnt := st.cnt + 1,
                                  node := nodePut st.node st.cnt (loadedNode 0 0) }) hb hq (by simp only; omega) (by simp only; omega) fuel
            (by simp only; omega)]
          simp only [Nat.add_assoc]
        · rw [List.getElem?_append_right (by simpa [l.length_tags] using hk), List.getElem?_map, Option.map_eq_some_iff,
            List.length_map, l.length_tags] at ht
          obtain ⟨q, hq, rfl⟩ := ht
          have hx : rest = serialize l ++ rest.drop (serialize l).length := by
            have h1 := congrArg (List.take (serialize l).length) hb
            rw [List.take_left' rfl, List.take_append_of_le_length (by omega)] at h1
            conv_lhs => rw [← List.take_append_drop (serialize l).length rest, h1]
          generalize rest.drop (serialize l).length = rest₂ at hx
          subst hx
          rw [List.append_assoc] at hb
          have hb := List.append_cancel_left hb
          obtain ⟨i₁, st₁, h1, b1, c1, p1⟩ := parse_whole len (t := l) (fuel := fuel) (rest := rest₂)
            (st := { st with bits := serialize l ++ rest₂, pos := st.pos + 1, cnt := st.cnt + 1,
                             node := nodePut st.node st.cnt (loadedNode 0 0) }) rfl (by simp only; omega) (by simp only; omega)
          simp only at c1 p1
          rw [h1]
          simp only
          rw [List.length_append] at hp
          have hsz : 511 - (st.cnt + 1) - l.size = 511 - st₁.cnt := by omega
          rw [hsz] at hq
          by_cases hfz : fuel = 0
          · omega
          · obtain ⟨fuel, rfl⟩ : ∃ f, fuel = f + 1 := ⟨fuel - 1, by omega⟩
            rw [hr (st := { st₁ with node := nodePut st₁.node st.cnt (loadedNode i₁ 0) }) (x := x) (y := y)
              (by simpa [b1] using hb) hq (by simp only [b1]; omega) (by simp only; omega) fuel (by simp only; omega)]
            simp only [p1, Nat.add_assoc]

end Sys2Proof.Machine
end

