-- ==== Sys2Proof/Laws/PerInstr.lean ====
section
/-! SUPPORT. Per command: it is well formed, and its word has its two fields (R120, R122). -/

namespace Sys2Proof.Laws.WordFields

/-- A command is well formed, and its word splits into RSVD 0 and its opcode. -/
def Statement (i : Instr) : Prop := i.wf = true ∧ splitWord (encode i) = i.commandWord

theorem nop : Statement .nop := by unfold Statement; decide
theorem clear : Statement .clear := by unfold Statement; decide
theorem freqCount : Statement .freqCount := by unfold Statement; decide
theorem treeBuild : Statement .treeBuild := by unfold Statement; decide
theorem codeGen : Statement .codeGen := by unfold Statement; decide
theorem emit : Statement .emit := by unfold Statement; decide
theorem treeLoad : Statement .treeLoad := by unfold Statement; decide
theorem decodePayload : Statement .decodePayload := by unfold Statement; decide
theorem compress : Statement .compress := by unfold Statement; decide
theorem decompress : Statement .decompress := by unfold Statement; decide

end Sys2Proof.Laws.WordFields
end

