-- ==== Sys2Proof/Tests/Slice0.lean ====
section
/-! SUPPORT. Tests against the vectors of spec/95_test_vectors.md (named V-...), and for each statement a state
and operands that meet its hypotheses. -/

namespace Sys2Proof.Tests

set_option Elab.async false

open Sys2Proof Sys2Proof.Machine

/-! ## Helpers -/

/-- IN_CAP = OUT_CAP = 4096, as the vectors say. -/
def start : State := State.resetWith { inCapPred := 4095, outCapPred := 4095 }

/-- IN and IN_LEN as given. -/
def withIn (bytes : List Byte) (s : State) : State :=
  { s with inBuf := (List.range bytes.length).map (fun k => (k, bytes.getD k 0)), inLen := BitVec.ofNat 32 bytes.length }

/-- FREQ as given, and 0 elsewhere. -/
def withFreq (l : List (Byte × Word)) (s : State) : State :=
  { s with freq := l.foldl (fun f q => freqPut f q.1 q.2) freqZero }

/-- A smaller OUT. -/
def withOutCap (n : Fin (2 ^ 28)) (s : State) : State := { s with cfg := { inCapPred := 4095, outCapPred := n } }

/-- Whether an outcome is a next state with a given property. -/
def ends (o : Host.Outcome State Fault Refusal) (p : State → Bool) : Bool :=
  match o with
  | .next t    => p t
  | .fault _   => false
  | .refused _ => false

theorem ends_next {o : Host.Outcome State Fault Refusal} {p : State → Bool} (h : ends o p = true) :
    ∃ t, o = .next t ∧ p t = true := by
  cases o with
  | next t => exact ⟨t, rfl, h⟩
  | fault _ => cases h
  | refused _ => cases h

/-- A raise with a given code and position, and OUT_LEN. -/
def raisedAs (code pos outLen : Nat) (t : State) : Bool :=
  t.error && !t.done && t.errCode.toNat == code && t.errPos.toNat == pos && t.outLen.toNat == outLen

/-- The entry of a leaf, and of an internal node. -/
def leafEntry (b : Byte) (f : BitVec 40) : Node := { kind := true, sym := b, nfreq := f, left := 0, right := 0 }
def innerEntry (f : BitVec 40) (l r : BitVec 9) : Node := { kind := false, sym := 0, nfreq := f, left := l, right := r }

/-- The tree of V-L2, with its codes: A = 0, B = 1. -/
def treeAB : Machine.Tree := Machine.Tree.node 0 (Machine.Tree.leaf 1 0x41) (Machine.Tree.leaf 2 0x42)
def blockAB : State :=
  { start with
    node := nodePut (nodePut (nodePut arenaZero 0 (innerEntry 0 1 2)) 1 (leafEntry 0x41 0)) 2 (leafEntry 0x42 0)
    root := 0, nodeCount := 3, leafCount := 2, treeBits := 19, treeValid := true
    code := walkCodes treeAB [] codeZero, codesValid := true }

/-- The tree of V-L1, with its code: A = 0. -/
def treeA : Machine.Tree := Machine.Tree.leaf 0 0x41
def blockA : State :=
  { start with
    node := nodePut arenaZero 0 (leafEntry 0x41 0)
    root := 0, nodeCount := 1, leafCount := 1, treeBits := 9, treeValid := true
    code := walkCodes treeA [] codeZero, codesValid := true }

theorem nodes_blockAB (i : Nat) : nodeAt blockAB.node i =
    if i = 0 then innerEntry 0 1 2 else if i = 1 then leafEntry 0x41 0 else if i = 2 then leafEntry 0x42 0 else Node.zero := by
  simp only [blockAB, nodeAt_nodePut, nodeAt_arenaZero]
  by_cases h2 : i = 2
  · subst h2; rfl
  · by_cases h1 : i = 1
    · subst h1; rfl
    · by_cases h0 : i = 0
      · subst h0; rfl
      · simp [h0, h1, h2]

theorem nodes_blockA (i : Nat) : nodeAt blockA.node i = if i = 0 then leafEntry 0x41 0 else Node.zero := by
  simp only [blockA, nodeAt_nodePut, nodeAt_arenaZero]
  by_cases h0 : i = 0
  · subst h0; rfl
  · simp [h0]

theorem reads_blockAB : currentTree blockAB = some treeAB := by decide +kernel

theorem reads_blockA : currentTree blockA = some treeA := by decide +kernel

theorem holds_blockAB : TreeHolds blockAB treeAB where
  reads := reads_blockAB
  indices := by decide
  unused i h := by
    have h : 3 ≤ i := h
    rw [nodes_blockAB, if_neg (by omega), if_neg (by omega), if_neg (by omega)]
  count := rfl
  atMost := by decide
  nodes := rfl
  treeBits := rfl
  tidy i := by
    rw [nodes_blockAB]
    split_ifs <;> simp [Node.tidy, innerEntry, leafEntry, Node.zero]

theorem treeInv_blockAB : TreeInv blockAB := ⟨fun _ => ⟨treeAB, holds_blockAB⟩, fun _ => ⟨treeAB, reads_blockAB, rfl⟩⟩

/-! ## Well-formedness (R120, R124): each check refuses a term that fails it alone -/

theorem test_rsvd_refused : (CommandWord.mk 1#24 0x10#8).rsvdOk = false ∧ (CommandWord.mk 1#24 0x10#8).opcodeOk = true ∧
    (CommandWord.mk 1#24 0x10#8).wf = false := by decide

theorem test_opcode_refused : (CommandWord.mk 0#24 0x02#8).rsvdOk = true ∧ (CommandWord.mk 0#24 0x02#8).opcodeOk = false ∧
    (CommandWord.mk 0#24 0x02#8).wf = false := by decide

theorem test_commands_wf (i : Instr) : i.wf = true := by cases i <;> decide

/-! ## Decoding: the words of R122 bit by bit, RSVD [31:8] and then OPCODE [7:0] -/

theorem test_decode_nop : decode 0b00000000000000000000000000000000#32 = .ok .nop := by decide
theorem test_decode_clear : decode 0b00000000000000000000000000000001#32 = .ok .clear := by decide
theorem test_decode_freqCount : decode 0b00000000000000000000000000010000#32 = .ok .freqCount := by decide
theorem test_decode_treeBuild : decode 0b00000000000000000000000000100000#32 = .ok .treeBuild := by decide
theorem test_decode_codeGen : decode 0b00000000000000000000000000110000#32 = .ok .codeGen := by decide
theorem test_decode_emit : decode 0b00000000000000000000000001000000#32 = .ok .emit := by decide
theorem test_decode_treeLoad : decode 0b00000000000000000000000001010000#32 = .ok .treeLoad := by decide
theorem test_decode_decodePayload : decode 0b00000000000000000000000001100000#32 = .ok .decodePayload := by decide
theorem test_decode_compress : decode 0b00000000000000000000000010000000#32 = .ok .compress := by decide
theorem test_decode_decompress : decode 0b00000000000000000000000010000001#32 = .ok .decompress := by decide

/-- V-X11, V-X10, V-X12: a bit of RSVD, and reserved opcodes. -/
theorem test_decode_illegal : decode 0x00000110#32 = .error .reservedBits ∧ decode 0x00000002#32 = .error .reservedOpcode ∧
    decode 0x000000FF#32 = .error .reservedOpcode := by decide

theorem test_decodeTableWord : decodeTableWord 32 0x10 = some .freqCount ∧ decodeTableWord 32 0x82 = none := by decide

/-- R124's ranges and R122's ten opcodes share out all 256 values. -/
theorem test_reserved_opcodes (op : BitVec 8) : reservedOpcode op ↔ op ∉ definedOpcodes := by
  revert op; unfold reservedOpcode; decide +kernel

/-! ## One step -/

/-- The step after reset runs the placed word, for every instance (assumption 10). -/
theorem test_first_step (w : Nat) (h : w ∈ [0x00, 0x01, 0x10, 0x20, 0x30, 0x40, 0x50, 0x60, 0x80, 0x81]) :
    ends (step (State.reset.withFetchWord 32 w)) (fun t => !t.busy && (t.done || t.error)) = true := by
  simp only [List.mem_cons, List.not_mem_nil, or_false] at h
  rcases h with rfl | rfl | rfl | rfl | rfl | rfl | rfl | rfl | rfl | rfl <;> decide +kernel

/-- V-X10. -/
theorem test_illegal : ends (step (start.withFetchWord 32 0x02)) (raisedAs 1 0x02 0) = true := by decide +kernel

/-- V-X8. -/
theorem test_nop : ends (step ({ start with error := true, errCode := 6, errPos := 9 }.withFetchWord 32 0x00))
    (fun t => t.done && !t.error && t.errCode == 0 && t.errPos == 0) = true := by decide +kernel

/-- V-X9. -/
theorem test_clear : ends (exec .clear { blockAB with outLen := 4, bitpos := 7 })
    (fun t => nodeAt t.node 0 == Node.zero && codeAt t.code 0x41 == Code.zero && t.outLen == 0 && t.bitpos == 0 && !t.treeValid) = true := by
  decide +kernel

/-- V-F1. -/
theorem test_freqCount :
    ends (exec .freqCount (withIn [0x41, 0x42, 0x52, 0x41, 0x43, 0x41, 0x44, 0x41, 0x42, 0x52, 0x41] start))
      (fun t => freqAt t.freq 0x41 == 5 && freqAt t.freq 0x42 == 2 && freqAt t.freq 0x43 == 1 && freqAt t.freq 0x44 == 1 &&
        freqAt t.freq 0x52 == 2 && freqAt t.freq 0x45 == 0) = true := by decide +kernel

/-- V-F3. -/
theorem test_freqCount_long : ends (exec .freqCount (withFreq [(7, 9)] { start with inLen := 4097 }))
    (fun t => raisedAs 2 4097 0 t && freqAt t.freq 7 == 9) = true := by decide +kernel

/-- V-B7: ties, and the index as the second key. -/
theorem test_treeBuild : ends (exec .treeBuild (withFreq [(0x10, 3), (0x20, 1), (0x30, 1), (0x40, 2)] start))
    (fun t => nodeAt t.node 4 == innerEntry 2 1 2 && nodeAt t.node 5 == innerEntry 4 3 4 &&
      nodeAt t.node 6 == innerEntry 7 0 5 && nodeAt t.node 0 == leafEntry 0x10 3 && t.root == 6 && t.treeBits == 39) = true := by
  decide +kernel

/-- V-B8: 40 bits of NFREQ. -/
theorem test_treeBuild_wide : ends (exec .treeBuild (withFreq [(0, 0xFFFFFFFF), (1, 0xFFFFFFFF)] start))
    (fun t => readWord t 0x2024#30 == 0xFFFFFFFE && readWord t 0x2028#30 == 1) = true := by decide +kernel

/-- V-C5. -/
theorem test_codeGen : (match exec .treeBuild (withFreq [(0x10, 3), (0x20, 1), (0x30, 1), (0x40, 2)] start) with
    | .next t => ends (exec .codeGen t) fun u => codeAt u.code 0x10 == { len := 1, bits := [false] } &&
        codeAt u.code 0x40 == { len := 2, bits := [true, false] } && codeAt u.code 0x20 == { len := 3, bits := [true, true, false] } &&
        codeAt u.code 0x30 == { len := 3, bits := [true, true, true] }
    | _ => false) = true := by decide +kernel

/-- V-C6: a later leaf of the same symbol wins. -/
theorem test_codeGen_duplicate : (match exec .treeLoad (withIn [0x50, 0x68, 0x20, 0x61] start) with
    | .next t => ends (exec .codeGen t) fun u => codeAt u.code 0x41 == { len := 1, bits := [true] }
    | _ => false) = true := by decide +kernel

/-- V-X3's AB, by EMIT alone. -/
theorem test_emit : ends (exec .emit (withIn [0x41, 0x42] blockAB))
    (fun t => outBytes t == [0x50, 0x68, 0x40, 0x61] && t.padCount == 3 && t.payloadBits == 2) = true := by decide +kernel

/-- V-E6's error on the tree of AB. -/
theorem test_emit_uncoded : ends (exec .emit (withIn [0x41, 0x42, 0x5A] { blockAB with outLen := 10 })) (raisedAs 11 2 0) = true := by
  decide +kernel

/-- V-L2. -/
theorem test_treeLoad : ends (exec .treeLoad (withIn [0x50, 0x68, 0x40, 0x61] start))
    (fun t => nodeAt t.node 0 == innerEntry 0 1 2 && nodeAt t.node 1 == leafEntry 0x41 0 && nodeAt t.node 2 == leafEntry 0x42 0 &&
      t.bitpos == 19 && t.nodeCount == 3 && t.leafCount == 2) = true := by decide +kernel

/-- R226: 512 internal tags in a row; the 512th is bit 511. -/
theorem test_treeLoad_tooLarge : ends (exec .treeLoad (withIn (List.replicate 64 0) start)) (raisedAs 7 511 0) = true := by
  decide +kernel

/-- V-D1. -/
theorem test_decodePayload : ends (exec .decodePayload (withIn [0xA0, 0x81, 0x80] { blockA with bitpos := 9 }))
    (fun t => outBytes t == [0x41, 0x41, 0x41, 0x41] && t.padCount == 3 && t.payloadBits == 4 && t.bitpos == 24) = true := by
  decide +kernel

/-- V-D4: OUT[0] stays. -/
theorem test_decodePayload_branch : ends (exec .decodePayload (withIn [0xA0, 0x81, 0x84] { blockA with bitpos := 9 }))
    (fun t => raisedAs 9 21 0 t && outByte t 0 == 0x41) = true := by decide +kernel

/-- V-X1. -/
theorem test_compress :
    ends (exec .compress (withIn [0x41, 0x42, 0x52, 0x41, 0x43, 0x41, 0x44, 0x41, 0x42, 0x52, 0x41] start))
      (fun t => outBytes t == [0x50, 0x4A, 0x1D, 0x11, 0x42, 0xA9, 0x00, 0x37, 0x45, 0x6E] && t.treeBits == 49 &&
        t.padCount == 0 && t.payloadBits == 23 && readWord t 0x014#30 == 0x1A) = true := by decide +kernel

/-- V-X6. -/
theorem test_compress_empty : ends (exec .compress (withFreq [(7, 9)] start))
    (fun t => raisedAs 3 0 0 t && freqAt t.freq 7 == 0) = true := by decide +kernel

/-- V-X4. -/
theorem test_decompress : ends (exec .decompress (withIn [0x50, 0x4A, 0x1D, 0x11, 0x42, 0xA9, 0x00, 0x37, 0x45, 0x6E] start))
    (fun t => outBytes t == [0x41, 0x42, 0x52, 0x41, 0x43, 0x41, 0x44, 0x41, 0x42, 0x52, 0x41] && t.bitpos == 80 &&
      !t.codesValid && readWord t 0x014#30 == 0x0A) = true := by decide +kernel

/-- W7. -/
theorem test_decompress_truncated : ends (exec .decompress (withIn [0x80] start)) (raisedAs 6 8 0) = true := by decide +kernel

/-- R126, R83: LOADIN of five bytes is two word writes and IN_LEN. -/
theorem test_loadIn_events : (HostStmt.loadIn [1, 2, 3, 4, 5]).expand =
    [.host (writeAt 0x10000000#30 0x04030201), .host (writeAt 0x10000004#30 0x00000005), .host (writeAt 0x024#30 5)] := by
  decide +kernel

/-- V-X13: IRQ, and its acknowledge. -/
theorem test_irq : ends (exec .nop { start with irqEn := true })
    (fun t => readWord t 0x014#30 == 0x22 && irq t && !irq (writeWord t 0x014#30 6)) = true := by decide +kernel

/-! ## The hypotheses of the statements are met, by name of the statement -/

/-- The block with a command issued (R384). -/
def issued (i : Instr) (s : State) : State := issue (encode i) s

theorem test_hyps_IllegalWordRaises :
    ({ issue 0x100 start with agenda := [.engine] } : State).agenda = .engine :: [] ∧ (issue 0x100 start).pending = some 0x100 ∧
    illegalWord 0x100 ∧ illegalWord 0x02 ∧ illegalWord 0x7F ∧ illegalWord 0xFF ∧ ¬illegalWord 0x81 := by
  refine ⟨rfl, rfl, ?_, ?_, ?_, ?_, ?_⟩ <;> (unfold illegalWord reservedOpcode; decide)

theorem test_hyps_StepRunsDecoded :
    (issued .emit start).pending = some (encode .emit) ∧ (issued .emit start).agenda = [] ∧
    ({ issued .emit start with agenda := [.engine] } : State).agenda = .engine :: [] ∧
    ({ issued .emit start with agenda := [.wait] } : State).agenda = .wait :: [] ∧ (issued .emit start).busy = true ∧
    ({ issued .emit start with agenda := [.waitIrq] } : State).agenda = .waitIrq :: [] ∧ irq (issued .emit start) = false ∧
    decode 0x40 = .ok .emit := by decide

theorem test_hyps_LoadInFillsInput :
    ({ start with agenda := (HostStmt.loadIn [1, 2, 3, 4, 5]).expand } : State).busy = false ∧ [1, 2, 3, 4, 5].length ≤ start.cfg.inCap ∧
    ({ start with agenda := (HostStmt.loadIn [1, 2, 3, 4, 5]).expand } : State).agenda = (HostStmt.loadIn [1, 2, 3, 4, 5]).expand ∧
    5 ≤ 7 ∧ 7 < 4 * ((5 + 3) / 4) ∧ 7 < start.cfg.inCap := by decide

theorem test_hyps_SerializationSelfDelimits :
    serialize (Machine.Tree.leaf 3 0x41) ++ [true] = serialize treeA ++ [true] := by decide

theorem test_hyps_StreamBitOrder : (List.replicate 8 true).length = 8 * 1 ∧ 0 < 1 ∧ 7 < 8 ∧ 0 < 8 * (withIn [1] start).inLen.toNat := by
  decide

theorem test_hyps_ResetValues : start = State.resetWith { inCapPred := 4095, outCapPred := 4095 } := rfl

theorem test_hyps_StatusRegister : start.busy = false ∧ (issued .nop start).busy = true := by decide

theorem control_start : ControlInv start :=
  ⟨rfl, fun w h => (by cases h), fun h => (by cases h), by decide, by decide⟩

theorem test_hyps_IrqLevel : ControlInv start ∧ (6 : Word).getLsbD 1 = true ∧ (6 : Word).getLsbD 2 = true ∧ (6 : Word).getLsbD 0 = false :=
  ⟨control_start, by decide, by decide, by decide⟩

/-- Both ends of every range of R58. -/
theorem test_hyps_ReadOnlyWritesIgnored :
    ∀ o ∈ [0x000#30, 0x008#30, 0x01C#30, 0x020#30, 0x028#30, 0x030#30, 0x044#30, 0x2000#30, 0x7FFC#30, 0x20000000#30, 0x2FFFFFFC#30],
      o.toNat % 4 = 0 ∧ (o.toNat ≤ 0x008 ∨ 0x01C ≤ o.toNat ∧ o.toNat ≤ 0x020 ∨ o.toNat = 0x028 ∨
        0x030 ≤ o.toNat ∧ o.toNat ≤ 0x044 ∨ 0x2000 ≤ o.toNat ∧ o.toNat < 0x8000 ∨
        0x20000000 ≤ o.toNat ∧ o.toNat < 0x30000000) := by simp

/-- Both ends of every reserved range of R32 and R81; their neighbours are none. -/
theorem test_hyps_ReservedOffsetsInert :
    (∀ o ∈ [0x00C#30, 0x048#30, 0x3FC#30, 0x800#30, 0x1FFC#30, 0x8000#30, 0xFFFFFFC#30, 0x30000000#30, 0x3FFFFFFC#30],
      o.toNat % 4 = 0 ∧ reservedOffset o.toNat) ∧
    (∀ o ∈ [0x008#30, 0x010#30, 0x044#30, 0x400#30, 0x7FC#30, 0x2000#30, 0x7FFC#30, 0x10000000#30, 0x2FFFFFFC#30], ¬reservedOffset o.toNat) ∧
    start.busy = false ∧ ({ start with agenda := [.host (readAt 0x00C#30)] } : State).agenda = .host (readAt 0x00C#30) :: [] := by
  simp [reservedOffset, start, State.resetWith]

theorem test_hyps_BufferWindowLanes : 0 < 2 ^ 26 ∧ 2 ^ 26 - 1 < 2 ^ 26 ∧ 3 < 4 ∧ 4 * (2 ^ 26 - 1) + 3 < 2 ^ 28 := by decide

theorem test_hyps_TableWindows : 510 < 511 ∧ 31 < 32 ∧ 3 < 4 ∧ 7 < 8 ∧ 9 ≤ 15 ∧ 15 < 16 ∧ (0x7FFC#30).toNat % 4 = 0 ∧
    0x2000 ≤ (0x7FFC#30).toNat ∧ (0x7FFC#30).toNat < 0x8000 := by decide

theorem test_hyps_HostAccessOutcomes :
    ({ start with agenda := [.host (writeAt 0x024#30 5)] } : State).agenda = .host (writeAt 0x024#30 5) :: [] ∧
    (BusAccess.mk 2 0x024#30 .read).bytes ≠ 4 ∧ (BusAccess.mk 4 0x026#30 .read).offset.toNat % 4 ≠ 0 ∧
    (writeAt 0x024#30 5).bytes = 4 ∧ (writeAt 0x024#30 5).offset.toNat % 4 = 0 ∧ (writeAt 0x024#30 5).op = .write 5 ∧
    writeAt 0x024#30 5 ≠ readAt 0x014#30 ∧ (readAt 0x014#30).op = .read ∧ start.busy = false ∧ (issued .nop start).busy = true := by
  decide

theorem test_hyps_IssueEffects : start.busy = false ∧
    ({ start with agenda := [.host (writeAt 0x010#30 0x10)] } : State).agenda = .host (writeAt 0x010#30 0x10) :: [] := by decide

theorem test_hyps_ResetInput : ({ issued .emit start with agenda := [.reset] } : State).agenda = .reset :: [] := by decide

/-! ### The invariants -/

theorem control_issued (i : Instr) (s : State) : ControlInv (issued i s) := by
  refine ⟨rfl, fun w h => ?_, fun _ => ⟨rfl, rfl, rfl, rfl⟩, ?_, Nat.zero_le 12⟩
  · simp only [issued, issue, Option.some.injEq] at h ⊢; exact h
  · simp [issued, issue]

theorem buffers_blockAB : BufferInv (withIn [0x41, 0x42] blockAB) := ⟨by decide, by decide, by decide, by decide⟩

theorem validity_blockAB : ValidityInv blockAB := ⟨fun _ => rfl, fun h => (by cases h), fun h => (by cases h)⟩

/-- A pending EMIT on the tree of AB: every invariant holds, and the step answers a next state. -/
theorem test_hyps_StepKeeps : Inv (issued .emit (withIn [0x41, 0x42] blockAB)) ∧
    ∃ t, step (issued .emit (withIn [0x41, 0x42] blockAB)) = .next t ∧ t.treeValid = true := by
  refine ⟨⟨control_issued _ _, ?_, ?_, ?_⟩, ?_⟩
  · exact ⟨validity_blockAB.1, validity_blockAB.2, validity_blockAB.3⟩
  · exact ⟨buffers_blockAB.1, buffers_blockAB.2, buffers_blockAB.3, buffers_blockAB.4⟩
  · exact treeInv_blockAB.congr rfl rfl rfl rfl rfl rfl rfl rfl
  · exact ends_next (p := fun t => t.treeValid) (by decide +kernel)

theorem test_hyps_ValidTreeIsFullBinary : TreeInv blockAB ∧ blockAB.treeValid = true ∧ blockAB.codesValid = true :=
  ⟨treeInv_blockAB, rfl, rfl⟩

theorem test_hyps_ValidCodesMeanLeaves : TreeInv blockAB ∧ blockAB.codesValid = true := ⟨treeInv_blockAB, rfl⟩

theorem test_hyps_EveryCommandCompletes : Instr.compress ≠ .codeGen ∧ Instr.compress ≠ .emit ∧ TreeInv blockAB :=
  ⟨by decide, by decide, treeInv_blockAB⟩

theorem test_hyps_PendingCommandCompletes :
    ControlInv { issued .emit blockAB with agenda := List.replicate 2 (.host (readAt 0x014#30)) } ∧
    TreeInv { issued .emit blockAB with agenda := List.replicate 2 (.host (readAt 0x014#30)) } ∧
    (issued .emit blockAB).pending.isSome = true :=
  ⟨⟨(control_issued .emit blockAB).1, (control_issued .emit blockAB).2, (control_issued .emit blockAB).3,
    (control_issued .emit blockAB).4, (control_issued .emit blockAB).5⟩,
   treeInv_blockAB.congr rfl rfl rfl rfl rfl rfl rfl rfl, rfl⟩

/-- Success, a precondition error and a data error of an issued command. -/
theorem test_hyps_NoPartialSuccess : ControlInv (issued .treeLoad (withIn [0x80] start)) ∧
    (issued .treeLoad (withIn [0x80] start)).busy = true ∧
    (∃ t, exec .treeLoad (issued .treeLoad (withIn [0x80] start)) = .next t ∧ (raisedAs 6 8 0) t = true) ∧
    (∃ t, exec .codeGen (issued .codeGen start) = .next t ∧ (raisedAs 4 0 0) t = true) ∧
    ∃ t, exec .nop (issued .nop start) = .next t ∧ t.done = true :=
  ⟨control_issued _ _, rfl, ends_next (by decide +kernel), ends_next (by decide +kernel),
    ends_next (p := fun t => t.done) (by decide +kernel)⟩

/-- Each class and code of ErrorEffectsByClass is raised by some command. -/
theorem test_hyps_ErrorEffectsByClass :
    ends (exec .freqCount { start with inLen := 4097 }) (raisedAs 2 4097 0) = true ∧
    ends (exec .treeBuild start) (raisedAs 3 0 0) = true ∧
    ends (exec .codeGen start) (raisedAs 4 0 0) = true ∧
    ends (exec .emit { blockAB with codesValid := false }) (raisedAs 5 0 0) = true ∧
    ends (exec .treeLoad (withIn [0x80] start)) (raisedAs 6 8 0) = true ∧
    ends (exec .decodePayload (withIn [0xA0, 0x84, 0x00] { blockA with bitpos := 9 })) (raisedAs 8 9 0) = true ∧
    ends (exec .decodePayload (withIn [0xA0, 0x81, 0x84] { blockA with bitpos := 9 })) (raisedAs 9 21 0) = true ∧
    ends (exec .emit (withIn [0x5A] blockAB)) (raisedAs 11 0 0) = true ∧
    ends (exec .emit (withIn [0x41, 0x42] (withOutCap 2 blockAB))) (raisedAs 12 3 0) = true ∧
    ends (exec .decodePayload (withIn [0xA0, 0x81, 0x80] (withOutCap 2 { blockA with bitpos := 9 }))) (raisedAs 12 23 0) = true := by
  decide +kernel

/-- ERR_CODE 10: the tree of V-L3 reading V-D9. -/
theorem test_hyps_truncated :
    (match exec .treeLoad (withIn [0x50, 0x4A, 0x1D, 0x11, 0x42, 0xA9, 0x00, 0x37, 0x45, 0x6E, 0xFF] start) with
      | .next t => ends (exec .decodePayload t) fun u => u.errCode == 10 && u.errPos == 88 && outByte u 12 == 0x52
      | _ => false) = true := by decide +kernel

theorem test_hyps_CommandFrames : ∃ t, exec .decodePayload (withIn [0xA0, 0x81, 0x80] { blockA with bitpos := 9 }) = .next t ∧
    (t.outLen == 4) = true := ends_next (p := fun t => t.outLen == 4) (by decide +kernel)

/-! ### The stages -/

theorem test_hyps_InputTooLongRaises : Instr.freqCount ∈ [Instr.freqCount, .emit, .treeLoad, .decodePayload, .compress, .decompress] ∧
    start.cfg.inCap < ({ start with inLen := 4097 } : State).inLen.toNat := by decide

theorem test_hyps_FreqCountCompletes : ({ start with inLen := 4096 } : State).inLen.toNat ≤ start.cfg.inCap := by decide

theorem test_hyps_TreeBuildEmptyRaises (b : Byte) : freqAt start.freq b = 0 := freqAt_freqZero b

/-- Of TreeBuildCompletes, TreeBuildArena, TreeBuildMergesSmallestKeys and TreeBuildFrequenciesExact: the counts of
AB, FREQ_COUNT before and TREE_BUILD after. -/
theorem test_hyps_TreeBuild : ∃ s t, exec .freqCount (withIn [0x41, 0x42, 0x41] start) = .next s ∧
    (withIn [0x41, 0x42, 0x41] start).inLen.toNat ≤ start.cfg.inCap ∧ (∃ b, freqAt s.freq b ≠ 0) ∧
    1 ≤ (presentSymbols s.freq).length ∧ exec .treeBuild s = .next t := by
  obtain ⟨s, hs, h⟩ := ends_next (o := exec .freqCount (withIn [0x41, 0x42, 0x41] start))
    (p := fun s => freqAt s.freq 0x41 != 0 && decide (1 ≤ (presentSymbols s.freq).length) && ends (exec .treeBuild s) fun _ => true)
    (by decide +kernel)
  simp only [Bool.and_eq_true, bne_iff_ne, ne_eq, decide_eq_true_eq] at h
  obtain ⟨t, ht, -⟩ := ends_next h.2
  exact ⟨s, t, hs, by decide, ⟨0x41, h.1.1⟩, h.1.2, ht⟩

theorem test_hyps_SingleSymbolGetsOneBit (a : Byte) : freqAt (withFreq [(0x41, 4)] start).freq a ≠ 0 ↔ a = 0x41 := by
  rw [show (withFreq [(0x41, 4)] start).freq = freqPut freqZero 0x41 4 from rfl, freqAt_freqPut, freqAt_freqZero]
  by_cases h : a = 0x41
  · rw [if_pos h]; exact ⟨fun _ => h, fun _ => by decide⟩
  · rw [if_neg h]; exact ⟨fun e => absurd rfl e, fun e => absurd e h⟩

/-- CODE_GEN without a tree, and on trees with each kind of path. -/
theorem test_hyps_CodeGenCompletes : start.treeValid = false ∧ blockAB.treeValid = true ∧ currentTree blockAB = some treeAB ∧
    treeAB.lastPath 0x5A = none ∧ treeAB.lastPath 0x42 = some [true] ∧ currentTree blockA = some treeA ∧
    treeA.lastPath 0x41 = some [] := by decide +kernel

/-- The payload of AB is 01, and its stream is 32 bits: it fits an OUT of 4 bytes exactly. -/
theorem test_hyps_EmitCompletes : (withIn [0x41, 0x42] blockAB).inLen.toNat ≤ start.cfg.inCap ∧ blockAB.treeValid = true ∧
    blockAB.codesValid = true ∧ currentTree (withIn [0x41, 0x42] (withOutCap 3 blockAB)) = some treeAB ∧
    (∀ b ∈ inBytes (withIn [0x41, 0x42] (withOutCap 3 blockAB)), (codeAt blockAB.code b).len ≠ 0) ∧
    payloadOf (withIn [0x41, 0x42] blockAB) = [false, true] ∧ (8 - ((serialize treeAB).length + 2) % 8) % 8 = 3 ∧
    (serialize treeAB ++ bin8 3 ++ zeros 3 ++ [false, true]).length / 8 ≤ (withOutCap 3 blockAB).cfg.outCap := by decide +kernel

/-- The five checks of EMIT in turn. -/
theorem test_hyps_EmitCheckOrder : start.cfg.inCap < ({ start with inLen := 4097 } : State).inLen.toNat ∧
    start.inLen.toNat ≤ start.cfg.inCap ∧ start.treeValid = false ∧
    ({ blockAB with codesValid := false } : State).codesValid = false ∧ blockAB.treeValid = true ∧
    1 < (withIn [0x41, 0x5A] blockAB).inLen.toNat ∧ (codeAt blockAB.code (inByte (withIn [0x41, 0x5A] blockAB) 1)).len = 0 ∧
    (codeAt blockAB.code (inByte (withIn [0x41, 0x5A] blockAB) 0)).len ≠ 0 ∧ currentTree (withIn [0x41, 0x42] blockAB) = some treeAB ∧
    (withOutCap 2 blockAB).cfg.outCap < streamBytes (serialize treeAB).length (payloadOf (withIn [0x41, 0x42] blockAB)).length := by
  decide +kernel

theorem test_hyps_TreeLoadCompletes : inStream (withIn [0x50, 0x68, 0x40, 0x61] start) = serialize treeAB ++
    [false, false, false, false, false, false, true, true, false, false, false, false, true] ∧ treeAB.size ≤ 511 ∧
    (withIn [0x50, 0x68, 0x40, 0x61] start).inLen.toNat ≤ start.cfg.inCap := by decide +kernel

theorem test_hyps_LoadedTreeWasSpelled : ∃ t, exec .treeLoad (withIn [0x50, 0x68, 0x40, 0x61] start) = .next t ∧ t.treeValid = true :=
  ends_next (p := fun t => t.treeValid) (by decide +kernel)

theorem test_hyps_TreeLoadTruncatedRaises : inStream (withIn [0x50] start) ++ (serialize treeAB).drop 8 = serialize treeAB ∧
    (serialize treeAB).drop 8 ≠ [] ∧ (treeAB.tags.filter fun p => decide (p < 8 * (withIn [0x50] start).inLen.toNat)).length ≤ 511 := by
  decide +kernel

/-- A tree whose left spine has n internal nodes. -/
def comb : Nat → Machine.Tree
  | 0     => Machine.Tree.leaf 0 0
  | n + 1 => Machine.Tree.node 0 (comb n) (Machine.Tree.leaf 0 0)

theorem comb_zeros (n : Nat) : ∃ x, serialize (comb n) = zeros n ++ x := by
  induction n with
  | zero => exact ⟨_, rfl⟩
  | succ n ih =>
    obtain ⟨x, h⟩ := ih
    refine ⟨x ++ serialize (Machine.Tree.leaf 0 0), ?_⟩
    show false :: (serialize (comb n) ++ _) = false :: (zeros n ++ (x ++ _))
    rw [h, List.append_assoc]

theorem comb_tags (n k : Nat) (h : k ≤ n) : (comb n).tags[k]? = some k := by
  induction n generalizing k with
  | zero => obtain rfl : k = 0 := by omega
            rfl
  | succ n ih =>
    cases k with
    | zero => rfl
    | succ k =>
      have hk := ih k (by omega)
      rw [comb, Machine.Tree.tags, List.getElem?_cons_succ, List.getElem?_append_left (by
        obtain ⟨hlt, -⟩ := List.getElem?_eq_some_iff.mp hk
        simpa using hlt), List.getElem?_map, hk, Option.map_some, Nat.add_comm]

theorem test_hyps_TreeLoadTooLargeRaises : ∃ x, inStream (withIn (List.replicate 64 0) start) ++ x = serialize (comb 512) ++ [] ∧
    (comb 512).tags[511]? = some 511 ∧ 511 < 8 * (withIn (List.replicate 64 0) start).inLen.toNat := by
  obtain ⟨x, h⟩ := comb_zeros 512
  refine ⟨x, ?_, comb_tags 512 511 (by decide), by decide⟩
  rw [List.append_nil, h, show inStream (withIn (List.replicate 64 0) start) = zeros 512 by decide +kernel]

/-- V-D1, with its pad count 3 and four code words `0`. -/
theorem test_hyps_DecodePayloadCompletes :
    (inStream (withIn [0xA0, 0x81, 0x80] blockA)).drop 9 = bin8 3 ++ zeros 3 ++ wordsOf (List.replicate 4 ((0x41 : Byte), ([] : Bits))) ∧
    treeA.follow [] = some 0x41 ∧ currentTree (withIn [0xA0, 0x81, 0x80] blockA) = some treeA ∧
    4 ≤ (withOutCap 3 blockA).cfg.outCap := by decide +kernel

/-- V-D14, V-D7, V-D5, V-D8 (on the tree of AB) and V-D6: the checks in turn. -/
theorem test_hyps_DecodeChecksRaise :
    8 * (withIn [0xA0, 0x81, 0x80] start).inLen.toNat < 25 ∧ 9 ≤ 8 * (withIn [0xA0, 0x80] start).inLen.toNat ∧
    8 * (withIn [0xA0, 0x80] start).inLen.toNat < 9 + 8 ∧
    7 < val (((inStream (withIn [0xA0, 0x84, 0x00] start)).drop 9).take 8) ∧
    val (((inStream (withIn [0x50, 0x68, 0x40, 0xE0] start)).drop 19).take 8) = 7 ∧
    8 * (withIn [0x50, 0x68, 0x40, 0xE0] start).inLen.toNat < 19 + 8 + 7 ∧
    val (((inStream (withIn [0xA0, 0x81, 0xC0] start)).drop 9).take 8) = 3 ∧
    bitof (withIn [0xA0, 0x81, 0xC0] start) 17 = true ∧ 9 + 8 + 3 ≤ 8 * (withIn [0xA0, 0x81, 0xC0] start).inLen.toNat := by
  decide +kernel

/-- V-D4: one bit 0, then a bit 1. -/
theorem test_hyps_DecodeInvalidBranchRaises : (nodeAt blockA.node blockA.root.toNat).kind = true ∧
    (inStream (withIn [0xA0, 0x81, 0x84] blockA)).drop 9 = bin8 3 ++ zeros 3 ++ (zeros 1 ++ true :: [false, false]) := by
  decide +kernel

/-- On the tree of AB with an OUT of one byte, the second of the code words 0 and 1 overflows. -/
theorem test_hyps_DecodeOverflowRaises : (inStream (withIn [0x50, 0x68, 0x40, 0x61] blockAB)).drop 19 =
      bin8 3 ++ zeros 3 ++ (wordsOf [((0x41 : Byte), [false])] ++ (wordsOf [((0x42 : Byte), [true])] ++ [])) ∧
    treeAB.follow [false] = some 0x41 ∧ treeAB.follow [true] = some 0x42 ∧ (withOutCap 0 blockAB).cfg.outCap = 1 := by
  decide +kernel

/-- A tree of three leaves, whose code word of B is cut after its first digit. -/
def treeABC : Machine.Tree :=
  Machine.Tree.node 0 (Machine.Tree.leaf 1 0x41) (Machine.Tree.node 2 (Machine.Tree.leaf 3 0x42) (Machine.Tree.leaf 4 0x43))

theorem test_hyps_DecodeTruncatedRaises : ∃ s : State, s.inLen.toNat ≤ s.cfg.inCap ∧ s.treeValid = true ∧ TreeHolds s treeABC ∧
    s.bitpos.toNat ≤ 8 * s.inLen.toNat ∧ (inStream s).drop s.bitpos.toNat = bin8 6 ++ zeros 6 ++ (wordsOf [((0x41 : Byte), [false])] ++ [true]) ∧
    treeABC.follow [false] = some 0x41 ∧ 1 ≤ s.cfg.outCap ∧ treeABC.follow ([true] ++ [false]) = some 0x42 := by
  refine ⟨{ withIn [0x06, 0x01] start with
    node := nodePut (nodePut (nodePut (nodePut (nodePut arenaZero 0 (innerEntry 0 1 2)) 1 (leafEntry 0x41 0)) 2 (innerEntry 0 3 4)) 3
      (leafEntry 0x42 0)) 4 (leafEntry 0x43 0)
    root := 0, nodeCount := 5, leafCount := 3, treeBits := 29, treeValid := true }, by decide, rfl, ?_, by decide, by decide +kernel,
    by decide, by decide, by decide⟩
  refine ⟨by decide +kernel, by decide, fun i h => ?_, rfl, by decide, rfl, rfl, fun i => ?_⟩
  · have h : 5 ≤ i := h
    simp only [nodeAt_nodePut, nodeAt_arenaZero]
    rw [if_neg (by omega), if_neg (by omega), if_neg (by omega), if_neg (by omega), if_neg (by omega)]
  · simp only [nodeAt_nodePut, nodeAt_arenaZero]
    split_ifs <;> simp [Node.tidy, innerEntry, leafEntry, Node.zero]

/-- COMPRESS too long, of nothing and of something; DECOMPRESS with a tree and without. -/
theorem test_hyps_CompositesAreTheirStages : start.cfg.inCap < ({ start with inLen := 4097 } : State).inLen.toNat ∧
    start.inLen.toNat ≤ start.cfg.inCap ∧ start.inLen = 0 ∧ (withIn [0x41] start).inLen ≠ 0 ∧
    ends (exec .treeLoad (withIn [0xA0, 0x81, 0x80] start)) (fun t => t.treeValid) = true ∧
    ends (exec .treeLoad (withIn [0x80] start)) (fun t => !t.treeValid) = true := by decide +kernel

/-- COMPRESS of AB fits an OUT of 4 bytes and overflows one of 3. -/
theorem test_hyps_CompressCompletes : (withIn [0x41, 0x42] start).inLen ≠ 0 ∧ (withIn [0x41, 0x42] start).inLen.toNat ≤ start.cfg.inCap ∧
    ends (exec .compress (withIn [0x41, 0x42] (withOutCap 3 start))) (fun t => t.done && t.outLen == 4) = true ∧
    ends (exec .compress (withIn [0x41, 0x42] (withOutCap 2 start))) (raisedAs 12 3 0) = true := by decide +kernel

theorem test_hyps_DecompressCompletes : inStream (withIn [0x50, 0x68, 0x40, 0x61] start) =
      serialize treeAB ++ (bin8 3 ++ zeros 3 ++ wordsOf [((0x41 : Byte), [false]), (0x42, [true])]) ∧ treeAB.size ≤ 511 := by
  decide +kernel

theorem test_hyps_RoundTrip : ∃ t, exec .compress (withIn [0x41, 0x42] start) = .next t ∧ t.error = false ∧
    inBytes (withIn [0x50, 0x68, 0x40, 0x61] start) = outBytes t ∧ (withIn [0x50, 0x68, 0x40, 0x61] start).inLen.toNat ≤ start.cfg.inCap ∧
    (withIn [0x41, 0x42] start).inLen.toNat ≤ start.cfg.outCap := by
  obtain ⟨t, ht, h⟩ := ends_next (o := exec .compress (withIn [0x41, 0x42] start))
    (p := fun t => !t.error && inBytes (withIn [0x50, 0x68, 0x40, 0x61] start) == outBytes t) (by decide +kernel)
  simp only [Bool.and_eq_true, Bool.not_eq_true', beq_iff_eq] at h
  exact ⟨t, ht, h.1, h.2, by decide, by decide⟩

/-- The same input on a block after reset and on one with a tree, codes and OUT. -/
theorem test_hyps_CompressDependsOnInputOnly : blockAB.cfg = start.cfg ∧
    inBytes (withIn [0x41] { blockAB with outBuf := [(0, 7)], outLen := 9 }) = inBytes (withIn [0x41] start) ∧
    ends (exec .compress (withIn [0x41] start)) (fun t => !t.error) = true ∧
    ends (exec .compress (withIn [0x41] { blockAB with outBuf := [(0, 7)], outLen := 9 })) (fun t => !t.error) = true := by
  decide +kernel

/-- Each code of ErrorRaisers by the composites that raise it (by single commands: test_hyps_ErrorEffectsByClass), and
the boundary of BITPOS > 8 IN_LEN. -/
theorem test_hyps_ErrorRaisers : start.error = false ∧
    ends (exec .compress { start with inLen := 4097 }) (raisedAs 2 4097 0) = true ∧
    ends (exec .decodePayload { blockAB with bitpos := 1 }) (raisedAs 2 1 0) = true ∧
    ends (exec .compress start) (raisedAs 3 0 0) = true ∧
    ends (exec .decompress (withIn [0x80] start)) (raisedAs 6 8 0) = true ∧
    ends (exec .decompress (withIn (List.replicate 64 0) start)) (raisedAs 7 511 0) = true ∧
    ends (exec .decompress (withIn [0xA0, 0x84, 0x00] start)) (raisedAs 8 9 0) = true ∧
    ends (exec .decompress (withIn [0xA0, 0x81, 0x84] start)) (raisedAs 9 21 0) = true ∧
    ends (exec .decompress (withIn [0xA0, 0x81, 0x80] (withOutCap 2 start))) (raisedAs 12 23 0) = true := by
  decide +kernel

end Sys2Proof.Tests
end

section
namespace Sys2Proof.Machine

/-! ## What every step keeps -/

/-- A predicate that each kind of move keeps: a change of the world outside or of the model's counters, a reset,
a host write on an idle block, and the completion of the pending command. -/
structure Stepwise (P : State → Prop) : Prop where
  world  : ∀ (s : State) a l d e, P s → P { s with agenda := a, readLog := l, draws := d, epoch := e }
  reset  : ∀ p, P (State.resetWith p)
  write  : ∀ (s : State) o v, s.busy = false → P s → P (writeWord s o v)
  engine : ∀ (s t : State) w, s.pending = some w → P s → engineStep w s = .next t → P t

/-- The induction step of every invariant: what each move keeps, each step keeps. -/
theorem Stepwise.step {P : State → Prop} (h : Stepwise P) {s t : State} (hs : P s) (ht : step s = .next t) : P t := by
  have outside : ∀ (u : State) a, P u → P { u with agenda := a } := fun u a hu => h.world u a _ _ _ hu
  rcases step_cases ht with ⟨w, u, hw, hu, he⟩ | ⟨a, rest, -, ha⟩ | ⟨rest, -, rfl⟩ | hw
  · have hp : u.pending = some w := (congrArg State.pending hu).trans hw
    exact h.engine u t w hp (hu ▸ outside s _ hs) he
  · obtain ⟨-, -, ⟨-, rfl⟩ | ⟨v, -, hb, rfl⟩⟩ := hostAccess_next ha
    · exact h.world _ _ _ _ _ (outside s rest hs)
    · exact h.write _ _ _ hb (outside s rest hs)
  · exact h.world _ _ _ _ _ (h.reset s.cfg)
  · exact hw ▸ outside s _ hs

/-- `t` has the parameters, the arena and its registers, the codes, the validity flags and the buffers of `s`. -/
structure SameHeld (s t : State) : Prop where
  cfg        : t.cfg = s.cfg
  node       : t.node = s.node
  root       : t.root = s.root
  nodeCount  : t.nodeCount = s.nodeCount
  leafCount  : t.leafCount = s.leafCount
  treeBits   : t.treeBits = s.treeBits
  treeValid  : t.treeValid = s.treeValid
  codesValid : t.codesValid = s.codesValid
  code       : t.code = s.code
  inBuf      : t.inBuf = s.inBuf
  outBuf     : t.outBuf = s.outBuf

/-- A predicate of what `SameHeld` compares that survives the commands' updates, a reset and a write of IN. -/
structure Held (P : State → Prop) : Prop where
  survives : Survives P
  congr    : ∀ {s t : State}, P s → SameHeld s t → P t
  reset    : ∀ p, P (State.resetWith p)
  input    : ∀ s k v, P s → P (putInWord s k v)

theorem Held.write {P : State → Prop} (h : Held P) {s : State} (o : Offset) (v : Word) (hs : P s) :
    P (writeWord s o v) := by
  rcases writeWord_cases s o v with e | e | e | e | e | e | ⟨b, e⟩ | ⟨k, e⟩ <;> rw [e]
  case inr.inr.inr.inr.inr.inr.inr => exact h.input s k v hs
  all_goals exact h.congr hs (by constructor <;> rfl)

theorem Held.engine {P : State → Prop} (h : Held P) {s t : State} {w : Word} (hs : P s)
    (he : engineStep w s = .next t) : P t := by
  rcases engineStep_cases he with ⟨i, -, hi⟩ | ⟨-, rfl⟩
  · refine h.survives.exec (fun u d e c p hu => ?_) hs hi
    exact h.congr hu (by constructor <;> rfl)
  · exact h.congr hs (by constructor <;> rfl)

theorem Held.stepwise {P : State → Prop} (h : Held P) : Stepwise P where
  world _ _ _ _ _ hs := h.congr hs (by constructor <;> rfl)
  reset := h.reset
  write _ o v _ := h.write o v
  engine _ _ _ _ := h.engine

/-! ## The tree (R41, R49) -/

theorem treeInv_resetWith (p : Params) : TreeInv (State.resetWith p) := ⟨nofun, nofun⟩

theorem held_treeInv : Held TreeInv where
  survives := survives_treeInv
  congr h e := h.congr e.node e.root e.nodeCount e.leafCount e.treeBits e.treeValid e.codesValid e.code
  reset := treeInv_resetWith
  input s k v h := by rw [putInWord_eq]; exact h.congr rfl rfl rfl rfl rfl rfl rfl rfl

/-- Settles O24: reset and every update of a command or of the host keeps the tree and its derived codes. -/
theorem stepKeepsTree : Obligations.StepKeepsTree := by
  unfold Obligations.StepKeepsTree
  intro s t hs ht
  exact held_treeInv.stepwise.step hs ht

/-! ## The validity flags (R41) -/

theorem ValidityInv.congr {s t : State} (h : ValidityInv s) (e : SameHeld s t) : ValidityInv t := by
  refine ⟨fun hc => ?_, fun hv => ?_, fun hc => ?_⟩
  · exact e.treeValid.trans (h.codes_need_tree (e.codesValid.symm.trans hc))
  · rw [e.node, e.root, e.nodeCount, e.leafCount, e.treeBits]
    exact h.no_tree (e.treeValid.symm.trans hv)
  · exact e.code.trans (h.no_codes (e.codesValid.symm.trans hc))

theorem validityInv_resetWith (p : Params) : ValidityInv (State.resetWith p) :=
  ⟨nofun, fun _ => ⟨rfl, rfl, rfl, rfl, rfl⟩, fun _ => rfl⟩

theorem held_validityInv : Held ValidityInv where
  survives := survives_validityInv
  congr h e := h.congr e
  reset := validityInv_resetWith
  input s k v h := by rw [putInWord_eq]; exact ⟨h.codes_need_tree, h.no_tree, h.no_codes⟩

/-- Settles O22: reset and every update of a command or of the host keeps R41 (a) to (c). -/
theorem stepKeepsValidityFlags : Obligations.StepKeepsValidityFlags := by
  unfold Obligations.StepKeepsValidityFlags
  intro s t hs ht
  exact held_validityInv.stepwise.step hs ht

/-! ## The buffers (R52, R53) -/

theorem BufferInv.congr {s t : State} (h : BufferInv s) (e : SameHeld s t) : BufferInv t := by
  refine ⟨?_, ?_, ?_, ?_⟩
  · rw [e.inBuf]; exact h.in_wf
  · rw [e.outBuf]; exact h.out_wf
  · rw [e.cfg, e.inBuf]; exact h.in_within
  · rw [e.cfg, e.outBuf]; exact h.out_within

theorem bufferInv_resetWith (p : Params) : BufferInv (State.resetWith p) := ⟨rfl, rfl, rfl, rfl⟩

theorem held_bufferInv : Held BufferInv where
  survives := survives_bufferInv
  congr h e := h.congr e
  reset := bufferInv_resetWith
  input _ _ _ h :=
    putInLane_buffers _ _ (putInLane_buffers _ _ (putInLane_buffers _ _ (putInLane_buffers _ _ h)))

/-- Settles O23: only a lane write below IN_CAP and a command's writes below OUT_CAP touch the buffers. -/
theorem stepKeepsBuffers : Obligations.StepKeepsBuffers := by
  unfold Obligations.StepKeepsBuffers
  intro s t hs ht
  exact held_bufferInv.stepwise.step hs ht

/-! ## The control flags (R35, R36, R38, R46, R341) -/

theorem Cause.code_le (c : Cause) : c.code.toNat ≤ 12 := by cases c <;> simp [Cause.code]

/-- How a completion reports (R342): DONE and the report as it was, or ERROR with the code and position of a
cause. The engine is idle. -/
theorem engineStep_report {w : Word} {s t : State} (h : engineStep w s = .next t) :
    t.busy = false ∧ t.pending = none ∧
    ((t.done = true ∧ t.error = s.error ∧ t.errCode = s.errCode ∧ t.errPos = s.errPos) ∨
     (t.done = s.done ∧ t.error = true ∧ ∃ c : Cause, t.errCode = c.code ∧ t.errPos = c.pos)) := by
  rcases engineStep_cases h with ⟨i, -, hi⟩ | ⟨-, rfl⟩
  · have hb := (survives_report s.busy s.done s.error s.errCode s.errPos s.cmdw s.pending).body i
      ⟨rfl, rfl, rfl, rfl, rfl, rfl, rfl⟩
    rw [exec_eq_finish] at hi
    rcases finish_next hi with ⟨u, hu, rfl⟩ | ⟨c, u, hu, rfl⟩
    · rw [hu] at hb
      obtain ⟨-, -, he, hc, hp, -, -⟩ := hb
      exact ⟨rfl, rfl, .inl ⟨rfl, he, hc, hp⟩⟩
    · rw [hu] at hb
      obtain ⟨-, hd, -, -, -, -, -⟩ := hb
      exact ⟨rfl, rfl, .inr ⟨(takeError_done c u).trans hd, rfl, c, rfl, rfl⟩⟩
  · exact ⟨rfl, rfl, .inr ⟨takeError_done _ _, rfl, .illegalCmd w, rfl, rfl⟩⟩

theorem controlInv_resetWith (p : Params) : ControlInv (State.resetWith p) :=
  ⟨rfl, nofun, nofun, nofun, Nat.zero_le _⟩

/-- The control invariant depends on CMD, the flags, the report and `pending` alone. -/
theorem ControlInv.congr {s t : State} (h : ControlInv s) (h1 : t.cmdw = s.cmdw) (h2 : t.busy = s.busy)
    (h3 : t.pending = s.pending) (h4 : t.done = s.done) (h5 : t.error = s.error) (h6 : t.errCode = s.errCode)
    (h7 : t.errPos = s.errPos) : ControlInv t := by
  refine ⟨?_, ?_, ?_, ?_, ?_⟩
  · rw [h2, h3]; exact h.busy_pending
  · rw [h1, h3]; exact h.cmd_pending
  · rw [h2, h4, h5, h6, h7]; exact h.cleared
  · rw [h4, h5]; exact h.exclusive
  · rw [h6]; exact h.code_legal

theorem controlInv_issue (w : Word) (s : State) : ControlInv (issue w s) := by
  refine ⟨rfl, fun v h => ?_, fun _ => ⟨rfl, rfl, rfl, rfl⟩, fun h => ?_, Nat.zero_le _⟩
  · exact Option.some.inj h
  · cases h.1

/-- Clearing DONE and ERROR on an idle block. -/
theorem ControlInv.acknowledge {s : State} (h : ControlInv s) (hb : s.busy = false) (v : Word) :
    ControlInv (acknowledge v s) := by
  refine ⟨h.busy_pending, h.cmd_pending, fun hb' => ?_, fun hde => ?_, h.code_legal⟩
  · exact absurd (hb.symm.trans hb') (by decide)
  · simp only [acknowledge_done, acknowledge_error, Bool.and_eq_true] at hde
    exact h.exclusive ⟨hde.1.1, hde.2.1⟩

theorem ControlInv.write {s : State} (h : ControlInv s) (hb : s.busy = false) (o : Offset) (v : Word) :
    ControlInv (writeWord s o v) := by
  rcases writeWord_cases s o v with e | e | e | e | e | e | ⟨b, e⟩ | ⟨k, e⟩ <;> rw [e]
  · exact h
  · exact controlInv_issue v s
  · exact h.acknowledge hb v
  · exact h.congr rfl rfl rfl rfl rfl rfl rfl
  · exact h.congr rfl rfl rfl rfl rfl rfl rfl
  · exact h.congr rfl rfl rfl rfl rfl rfl rfl
  · exact h.congr rfl rfl rfl rfl rfl rfl rfl
  · rw [putInWord_eq]; exact h.congr rfl rfl rfl rfl rfl rfl rfl

/-- A completion leaves one of DONE and ERROR set, since the issue has cleared both. -/
theorem ControlInv.engine {s t : State} {w : Word} (h : ControlInv s) (hp : s.pending = some w)
    (he : engineStep w s = .next t) : ControlInv t := by
  have hb : s.busy = true := by rw [h.busy_pending, hp]; rfl
  obtain ⟨hd, hr, hc, -⟩ := h.cleared hb
  obtain ⟨tb, tp, report⟩ := engineStep_report he
  refine ⟨by rw [tb, tp]; rfl, fun v hv => ?_, fun hb' => ?_, fun hde => ?_, ?_⟩
  · rw [tp] at hv; cases hv
  · rw [tb] at hb'; cases hb'
  · rcases report with ⟨-, e, -⟩ | ⟨e, -⟩
    · exact absurd (hde.2.symm.trans (e.trans hr)) (by decide)
    · exact absurd (hde.1.symm.trans (e.trans hd)) (by decide)
  · rcases report with ⟨-, -, e, -⟩ | ⟨-, -, c, e, -⟩
    · rw [e]; exact h.code_legal
    · rw [e]; exact c.code_le

theorem stepwise_controlInv : Stepwise ControlInv where
  world _ _ _ _ _ h := h.congr rfl rfl rfl rfl rfl rfl rfl
  reset := controlInv_resetWith
  write _ o v hb h := h.write hb o v
  engine _ _ _ hp h := h.engine hp

/-- Settles O21: an issue clears the report that a completion sets, and only a busy block completes. -/
theorem stepKeepsControlFlags : Obligations.StepKeepsControlFlags := by
  unfold Obligations.StepKeepsControlFlags
  intro s t hs ht
  exact stepwise_controlInv.step hs ht

/-- Settles O20: each invariant holds of the reset state, whatever the capacities. -/
theorem resetSatisfiesInvariants : Obligations.ResetSatisfiesInvariants := by
  have reset : ∀ p, Inv (State.resetWith p) := fun p =>
    ⟨controlInv_resetWith p, validityInv_resetWith p, bufferInv_resetWith p, treeInv_resetWith p⟩
  exact ⟨reset, reset Config.params⟩

end Sys2Proof.Machine
end

section
namespace Sys2Proof.Machine

/-! ## What a valid tree and valid codes are (R49, R51) -/

/-- The nodes of the tree are the indices below NODE_COUNT (R49 b). -/
theorem TreeHolds.mem_indices {s : State} {t : Tree} (h : TreeHolds s t) (i : Nat) :
    i ∈ t.indices ↔ i < s.nodeCount.toNat := by
  rw [h.indices.mem_iff, List.mem_range]

theorem TreeHolds.nodup_indices {s : State} {t : Tree} (h : TreeHolds s t) : t.indices.Nodup :=
  h.indices.nodup_iff.mpr List.nodup_range

/-- Settles O25: the nodes reached from ROOT are the tree's indices, and each has its owner in the tree. -/
theorem validTreeIsFullBinary : Obligations.ValidTreeIsFullBinary := by
  unfold Obligations.ValidTreeIsFullBinary
  intro s hs hv
  obtain ⟨t, h⟩ := hs.tree hv
  obtain ⟨holds, hroot, -⟩ := currentTree_eq_some.mp h.reads
  have reached : ∀ i, Reached s i ↔ i ∈ t.indices := reached_iff holds hroot
  have hlen := h.length_serialize
  have hpos : 1 ≤ s.leafCount.toNat := h.count ▸ t.leaves_pos
  have hnodes := h.nodes
  refine ⟨⟨hpos, h.atMost, by omega⟩, ?_, h.unused, ?_, ?_, ?_, ?_, t, h.reads, by omega, hlen.2⟩
  · intro i
    rw [reached, h.mem_indices]
  · intro j hj hne
    obtain ⟨i, d, hi, hk, he⟩ := holds.owner ((reached j).mp hj) (hroot ▸ hne)
    refine ⟨i, d, ⟨(reached i).mpr hi, hk, he⟩, fun i' d' hi' hk' he' => ?_⟩
    exact holds.owner_unique h.nodup_indices ((reached i').mp hi') hi hk' hk (he'.trans he.symm)
  · intro i d hi hk
    rw [← hroot]
    exact holds.child_ne_root h.nodup_indices ((reached i).mp hi) hk d
  · exact fun i _ hk => (h.tidy i).1 hk
  · rw [← h.indices.countP_eq, holds.count_leaves, h.count]

/-- An entry of the derived table is coded exactly where the symbol has a leaf, and then it holds the code word of
a path to such a leaf (R51, R201 to R203). -/
theorem coded_walkCodes {t : Tree} (hl : t.levels ≤ 256) {b : Byte}
    (hb : 0 < (codeAt (walkCodes t [] codeZero) b).len.toNat) :
    ∃ d, t.follow d = some b ∧ (codeAt (walkCodes t [] codeZero) b).bits = leafCode d ∧
      (codeAt (walkCodes t [] codeZero) b).len.toNat = (leafCode d).length := by
  rcases walkCodes_entry hl b with ⟨-, e⟩ | ⟨d, -, h⟩
  · rw [e] at hb; exact absurd hb (by decide)
  · exact ⟨d, h⟩

/-- Only the code words of one symbol begin with one another (R205). -/
theorem eq_of_leafCode_isPrefix {t : Tree} {d e : Bits} {a b : Byte} (hd : t.follow d = some a)
    (he : t.follow e = some b) (h : leafCode d <+: leafCode e) : a = b := by
  cases t with
  | leaf i s =>
    have ha := Tree.follow_mem hd
    have hb := Tree.follow_mem he
    simp only [Tree.symbols, List.mem_singleton] at ha hb
    exact ha.trans hb.symm
  | node i l r =>
    have inner : ∀ {p : Bits} {c : Byte}, (Tree.node i l r).follow p = some c → leafCode p = p := by
      intro p c hp
      refine leafCode_of_ne fun e => ?_
      rw [e] at hp; cases hp
    rw [inner hd, inner he] at h
    obtain ⟨rest, rfl⟩ := h
    exact (Tree.follow_unique hd he).2

/-- The code word of a path leads from the root to the path's leaf, or is `0` where the root is the leaf (R51, R202). -/
theorem HoldsTree.leafCode_leads {a : Arena} {t : Tree} (h : HoldsTree a t) {d : Bits} {b : Byte}
    (hd : t.follow d = some b) :
    if (nodeAt a t.index).kind then t.follow [] = some b ∧ leafCode d = [false] else t.follow (leafCode d) = some b := by
  cases t with
  | leaf i x =>
    rw [Tree.index, if_pos h.1]
    cases d with
    | nil => exact ⟨hd, rfl⟩
    | cons c d => cases hd
  | node i l r =>
    rw [Tree.index, if_neg (by simp [h.1]), leafCode_of_ne (by rintro rfl; cases hd)]
    exact hd

theorem HoldsTree.symbols_of_root_leaf {a : Arena} {t : Tree} (h : HoldsTree a t) (hk : (nodeAt a t.index).kind = true)
    {b : Byte} (hb : b ∈ t.symbols) : t.symbols = [b] := by
  cases t with
  | leaf i x => rw [List.mem_singleton.mp hb]; rfl
  | node i l r => exact absurd (h.1.symm.trans hk) (by decide)

/-- Settles O26: valid codes are the paths to leaves of the tree they were derived from. -/
theorem validCodesMeanLeaves : Obligations.ValidCodesMeanLeaves := by
  unfold Obligations.ValidCodesMeanLeaves
  intro s hs hv
  obtain ⟨t, ht, hcode⟩ := hs.codes hv
  obtain ⟨holds, hroot, hl⟩ := currentTree_eq_some.mp ht
  rw [hcode, ← hroot]
  refine ⟨t, ht, fun b hb => ?_, fun b hb => ?_, fun a b hab ha hb hp => ?_, fun b hb => ?_, fun hk b hb => ?_⟩
  · obtain ⟨d, hd, -, -⟩ := coded_walkCodes hl hb
    exact Tree.follow_mem hd
  · exact Nat.pos_of_ne_zero fun e => walkCodes_coded hl hb (BitVec.eq_of_toNat_eq e)
  · obtain ⟨d, hd, ed, -⟩ := coded_walkCodes hl ha
    obtain ⟨e, he, ee, -⟩ := coded_walkCodes hl hb
    rw [ed, ee] at hp
    exact hab (eq_of_leafCode_isPrefix hd he hp)
  · obtain ⟨d, hd, ed, el⟩ := coded_walkCodes hl hb
    rw [el, ed]
    exact ⟨rfl, holds.leafCode_leads hd⟩
  · obtain ⟨d, hd, -, -⟩ := coded_walkCodes hl hb
    exact holds.symbols_of_root_leaf hk (Tree.follow_mem hd)

end Sys2Proof.Machine
end

section
namespace Sys2Proof.Machine

/-! ## An input longer than IN_CAP (R40, R341, R344) -/

/-- Settles O32: each of the six checks IN_LEN first, and BAD_LENGTH is a precondition error. -/
theorem inputTooLongRaises : Obligations.InputTooLongRaises := by
  unfold Obligations.InputTooLongRaises
  intro i s hi hlen
  have hno : inLenOk s = false := (inLenOk_false_iff s).mpr hlen
  have raises : bodyOf i s = .raised (.badLength s.inLen) s := by
    simp only [List.mem_cons, List.not_mem_nil, or_false] at hi
    rcases hi with rfl | rfl | rfl | rfl | rfl | rfl
    · simp [bodyOf, bodyFreqCount, hno]
    · simp [bodyOf, bodyEmit, hno]
    · simp [bodyOf, bodyTreeLoad, hno]
    · simp [bodyOf, bodyDecodePayload, hno]
    · exact bodyCompress_long hlen
    · simp [bodyOf, bodyDecompress, bodyTreeLoad, hno, Ran.andThen]
  rw [exec_raised raises, takeError_precondition s rfl]
  rfl

/-! ## What each command may change (R90) -/

theorem Ran.all_mono {P Q : State → Prop} (h : ∀ s, P s → Q s) {r : Ran} (hr : r.all P) : r.all Q := by
  cases r with
  | done s => exact h s hr
  | raised c s => exact h s hr
  | stuck f => trivial

/-- `t` has the fields of `s` that the command is not named for (R90). A composite is held to the fields that no
stage of it writes. -/
structure Keeps (i : Instr) (s t : State) : Prop where
  out    : i ∉ [.emit, .decodePayload, .compress, .decompress] → t.outBuf = s.outBuf
  freq   : i ∉ [.freqCount, .clear, .compress] → t.freq = s.freq
  tree   : i ∉ [.treeBuild, .treeLoad, .clear, .compress, .decompress] →
    t.node = s.node ∧ t.root = s.root ∧ t.nodeCount = s.nodeCount ∧ t.leafCount = s.leafCount ∧
    t.treeValid = s.treeValid ∧ (i ≠ .emit → t.treeBits = s.treeBits)
  code   : i ∉ [.treeBuild, .codeGen, .treeLoad, .clear, .compress, .decompress] →
    t.code = s.code ∧ t.codesValid = s.codesValid
  bitpos : i ∉ [.treeLoad, .decodePayload, .clear, .decompress] → t.bitpos = s.bitpos
  outLen : i ∉ [.emit, .treeLoad, .decodePayload, .clear, .compress, .decompress] → t.outLen = s.outLen
  stream : i ∉ [.emit, .decodePayload, .clear, .compress, .decompress] →
    t.padCount = s.padCount ∧ t.payloadBits = s.payloadBits

theorem Keeps.refl (i : Instr) (s : State) : Keeps i s s := by constructor <;> simp

theorem keeps_clear (s : State) : (bodyOf .clear s).all (Keeps .clear s) :=
  Ran.all_done.mpr (by constructor <;> simp)

theorem keeps_freqCount (s : State) : (bodyFreqCount s).all (Keeps .freqCount s) := by
  rcases bodyFreqCount_cases s with ⟨-, e⟩ | ⟨-, e⟩ <;> rw [e]
  · exact Ran.all_done.mpr (by constructor <;> simp)
  · exact Keeps.refl _ s

theorem keeps_treeBuild (s : State) : (bodyTreeBuild s).all (Keeps .treeBuild s) := by
  rcases bodyTreeBuild_cases s with ⟨-, e⟩ | ⟨-, t, tr, e, ht, -⟩ <;> rw [e]
  · exact Keeps.refl _ s
  · rw [ht]; exact Ran.all_done.mpr (by constructor <;> simp)

theorem keeps_codeGen (s : State) : (bodyCodeGen s).all (Keeps .codeGen s) := by
  rcases bodyCodeGen_cases s with ⟨-, e⟩ | ⟨-, -, e⟩ | ⟨-, t, -, e⟩ <;> rw [e]
  · exact Keeps.refl _ s
  · trivial
  · exact Ran.all_done.mpr (by constructor <;> simp)

theorem keeps_emit (s : State) : (bodyEmit s).all (Keeps .emit s) := by
  rcases bodyEmit_cases s with ⟨-, e⟩ | ⟨-, e⟩ | ⟨-, e⟩ | ⟨-, -, -, e⟩ | ⟨k, e⟩ | ⟨-, -, t, -, e⟩ <;> rw [e]
  · exact Keeps.refl _ s
  · exact Keeps.refl _ s
  · exact Keeps.refl _ s
  · trivial
  · exact Keeps.refl _ s
  · rcases emitStream_cases (serialize t) (payloadOf s) s with ⟨-, e⟩ | ⟨-, e⟩ <;> rw [e]
    · exact Keeps.refl _ s
    · exact Ran.all_done.mpr (by constructor <;> simp)

theorem keeps_treeLoad (s : State) : (bodyTreeLoad s).all (Keeps .treeLoad s) := by
  rcases bodyTreeLoad_cases s with ⟨-, e⟩ | ⟨-, c, e, -⟩ | ⟨-, t, tr, rest, e, ht, -⟩ <;> rw [e]
  · exact Keeps.refl _ s
  · exact Ran.all_raised.mpr (by constructor <;> simp)
  · rw [ht]; exact Ran.all_done.mpr (by constructor <;> simp)

theorem keeps_decodePayload (s : State) : (bodyDecodePayload s).all (Keeps .decodePayload s) := by
  rcases bodyDecodePayload_cases s with ⟨-, e⟩ | ⟨-, e⟩ | ⟨-, e⟩ | ⟨-, bytes, c, -, -, e⟩ | ⟨-, bytes, c, n, -, e⟩ <;>
    rw [e]
  · exact Keeps.refl _ s
  · exact Keeps.refl _ s
  · exact Keeps.refl _ s
  · exact Ran.all_raised.mpr (by constructor <;> simp)
  · exact Ran.all_done.mpr (by constructor <;> simp)

/-- COMPRESS writes no BITPOS: none of its stages does. -/
theorem bodyCompress_bitpos (s : State) : (bodyCompress s).all fun u => u.bitpos = s.bitpos := by
  have stage : ∀ {i : Instr} {f : State → Ran}, i ∉ [.treeLoad, .decodePayload, .clear, .decompress] →
      (∀ u, (f u).all (Keeps i u)) → ∀ u, u.bitpos = s.bitpos → (f u).all fun v => v.bitpos = s.bitpos :=
    fun hi hf u hu => Ran.all_mono (fun _ hv => (hv.bitpos hi).trans hu) (hf u)
  have counted := stage (by simp) keeps_freqCount s rfl
  have built := Ran.all_andThen counted (stage (by simp) keeps_treeBuild)
  have coded := Ran.all_andThen built (stage (by simp) keeps_codeGen)
  exact Ran.all_andThen coded (stage (by simp) keeps_emit)

/-- DECOMPRESS writes no FREQ: neither of its stages does. -/
theorem bodyDecompress_freq (s : State) : (bodyDecompress s).all fun u => u.freq = s.freq := by
  have loaded := Ran.all_mono (fun u hu => hu.freq (by simp)) (keeps_treeLoad s)
  exact Ran.all_andThen loaded fun u hu =>
    Ran.all_mono (fun v hv => (hv.freq (by simp)).trans hu) (keeps_decodePayload u)

theorem keeps_body (i : Instr) (s : State) : (bodyOf i s).all (Keeps i s) := by
  cases i with
  | nop => exact Keeps.refl _ s
  | clear => exact keeps_clear s
  | freqCount => exact keeps_freqCount s
  | treeBuild => exact keeps_treeBuild s
  | codeGen => exact keeps_codeGen s
  | emit => exact keeps_emit s
  | treeLoad => exact keeps_treeLoad s
  | decodePayload => exact keeps_decodePayload s
  | compress => exact Ran.all_mono (fun u hu => by constructor <;> simp [hu]) (bodyCompress_bitpos s)
  | decompress => exact Ran.all_mono (fun u hu => by constructor <;> simp [hu]) (bodyDecompress_freq s)

/-- Which single-stage command raises an error of each class (R341). -/
theorem raised_class_single {i : Instr} {s u : State} {c : Cause} (h1 : i ≠ .compress) (h2 : i ≠ .decompress)
    (h : bodyOf i s = .raised c u) :
    c.cls = .precondition ∨ (c.cls = .emitData ∧ i = .emit) ∨ (c.cls = .treeData ∧ i = .treeLoad) ∨
    (c.cls = .decodeData ∧ i = .decodePayload) := by
  rcases raised_single h1 h2 h with ⟨hc, -⟩ | ⟨hi, hc, -⟩ | ⟨hi, hc, -⟩ | ⟨hi, hc, -⟩
  · exact .inl hc.cls
  · refine .inr (.inl ⟨?_, hi⟩)
    rcases hc with ⟨k, rfl⟩ | rfl <;> rfl
  · refine .inr (.inr (.inl ⟨?_, hi⟩))
    rcases hc with rfl | ⟨p, rfl⟩ <;> rfl
  · exact .inr (.inr (.inr ⟨hc.cls, hi⟩))

/-- Which commands raise an error of each class (R341). -/
theorem raised_class {i : Instr} {s u : State} {c : Cause} (h : bodyOf i s = .raised c u) :
    c.cls = .precondition ∨ (c.cls = .emitData ∧ i ∈ [.emit, .compress]) ∨
    (c.cls = .treeData ∧ i ∈ [.treeLoad, .decompress]) ∨ (c.cls = .decodeData ∧ i ∈ [.decodePayload, .decompress]) := by
  by_cases h1 : i = .compress
  · subst h1
    rcases raised_compress h with ⟨rfl, -⟩ | ⟨rfl, -⟩ | ⟨rfl, -⟩
    · exact .inl rfl
    · exact .inl rfl
    · exact .inr (.inl ⟨rfl, by simp⟩)
  · by_cases h2 : i = .decompress
    · subst h2
      rcases raised_decompress h with h | ⟨t, -, h⟩
      · rcases raised_class_single (i := .treeLoad) (by simp) (by simp) h with hc | ⟨-, e⟩ | ⟨hc, -⟩ | ⟨-, e⟩
        · exact .inl hc
        · cases e
        · exact .inr (.inr (.inl ⟨hc, by simp⟩))
        · cases e
      · rcases raised_class_single (i := .decodePayload) (by simp) (by simp) h with hc | ⟨-, e⟩ | ⟨-, e⟩ | ⟨hc, -⟩
        · exact .inl hc
        · cases e
        · cases e
        · exact .inr (.inr (.inr ⟨hc, by simp⟩))
    · rcases raised_class_single h1 h2 h with hc | ⟨hc, rfl⟩ | ⟨hc, rfl⟩ | ⟨hc, rfl⟩
      · exact .inl hc
      · exact .inr (.inl ⟨hc, by simp⟩)
      · exact .inr (.inr (.inl ⟨hc, by simp⟩))
      · exact .inr (.inr (.inr ⟨hc, by simp⟩))

/-- The error effects of a command's own classes stay within what the command is named for (R347 to R350). -/
theorem Keeps.takeError {i : Instr} {s u : State} {c : Cause} (k : Keeps i s u) (h : bodyOf i s = .raised c u) :
    Keeps i s (takeError c u) := by
  rcases raised_class h with hc | ⟨hc, hi⟩ | ⟨hc, hi⟩ | ⟨hc, hi⟩
  · rw [takeError_precondition u hc]
    exact ⟨k.out, k.freq, k.tree, k.code, k.bitpos, k.outLen, k.stream⟩
  all_goals simp only [List.mem_cons, List.not_mem_nil, or_false] at hi
  · rw [takeError_emitData u hc]
    rcases hi with rfl | rfl <;> exact ⟨k.out, k.freq, k.tree, k.code, k.bitpos, by simp, by simp⟩
  · rw [takeError_treeData u hc]
    rcases hi with rfl | rfl <;> exact ⟨k.out, k.freq, by simp, by simp, k.bitpos, by simp, k.stream⟩
  · rw [takeError_decodeData u hc]
    rcases hi with rfl | rfl <;> exact ⟨k.out, k.freq, k.tree, k.code, k.bitpos, by simp, by simp⟩

theorem exec_keeps {i : Instr} {s t : State} (h : exec i s = .next t) : Keeps i s t := by
  have body := keeps_body i s
  rw [exec_eq_finish] at h
  rcases finish_next h with ⟨u, hu, rfl⟩ | ⟨c, u, hu, rfl⟩ <;> rw [hu] at body
  · have k := Ran.all_done.mp body
    exact ⟨k.out, k.freq, k.tree, k.code, k.bitpos, k.outLen, k.stream⟩
  · exact (Ran.all_raised.mp body).takeError hu

theorem SameOutside.inByte_eq {s t : State} (h : SameOutside s t) (k : Nat) : inByte t k = inByte s k := by
  obtain ⟨-, -, -, -, hin, -, -, -, hepoch⟩ := h
  rw [inByte, hin, hepoch, inByte]

/-- The bytes of OUT at or above OUT_CAP read in `t` as in `s` (R53). -/
def SameAboveOut (s t : State) : Prop :=
  t.cfg = s.cfg ∧ t.epoch = s.epoch ∧ ∀ k, s.cfg.outCap ≤ k → outByte t k = outByte s k

theorem SameAboveOut.putAll {s t : State} (h : SameAboveOut s t) {bytes : List Byte} (hb : bytes.length ≤ t.cfg.outCap) :
    SameAboveOut s { t with outBuf := Memory.putAll t.outBuf 0 bytes } := by
  obtain ⟨hcfg, hepoch, hout⟩ := h
  refine ⟨hcfg, hepoch, fun k hk => ?_⟩
  rw [hcfg] at hb
  rw [← hout k hk, outByte, Memory.byte_putAll, if_neg (by omega)]
  rfl

theorem survives_sameAboveOut (s₀ : State) : Survives (SameAboveOut s₀) where
  freq _ _ h := h
  clear _ h := h
  tree _ _ _ h ht _ := by rw [ht]; exact h
  codes _ _ h _ _ := h
  emitted _ _ _ h _ _ hc := h.putAll (by rw [length_pack]; exact hc)
  wrote _ _ h hb := h.putAll hb
  decoded _ _ _ _ _ h := h

/-- Settles O31: no update of a command leaves its reach, and each body and its errors write the fields it is
named for. -/
theorem commandFrames : Obligations.CommandFrames := by
  unfold Obligations.CommandFrames
  intro i s t h
  have outside : SameOutside s t :=
    (survives_sameOutside s).exec (fun _ _ _ _ _ hs => hs) ⟨rfl, rfl, rfl, rfl, rfl, rfl, rfl, rfl, rfl⟩ h
  obtain ⟨-, hepoch, above⟩ : SameAboveOut s t :=
    (survives_sameAboveOut s).exec (fun _ _ _ _ _ hs => hs) ⟨rfl, rfl, fun _ _ => rfl⟩ h
  have k := exec_keeps h
  refine ⟨outside, outside.inByte_eq, above, fun hi j => ?_, fun hi b => ?_, k.tree, k.code, k.bitpos, k.outLen, k.stream⟩
  · rw [outByte, k.out hi, hepoch, outByte]
  · rw [k.freq hi]

end Sys2Proof.Machine
end

section
namespace Sys2Proof.Machine

/-! ## Registers at their offsets (R32) -/

theorem regionOf_reg (r : Reg) : regionOf r.offset = .reg r := by cases r <;> rfl

theorem toNat_offset (r : Reg) : (BitVec.ofNat 30 r.offset).toNat = r.offset := by cases r <;> rfl

theorem readWord_reg (s : State) (r : Reg) : readWord s (BitVec.ofNat 30 r.offset) = regWord s r := by
  rw [readWord, toNat_offset, regionOf_reg]; rfl

theorem writeWord_reg (s : State) (r : Reg) (v : Word) : writeWord s (BitVec.ofNat 30 r.offset) v = writeReg v s r := by
  rw [writeWord, toNat_offset, regionOf_reg]; rfl

/-! ## What a register reads (R33 to R45) -/

theorem toNat_inCapR (s : State) : (regWord s .inCapR).toNat = s.cfg.inCap := by
  rw [regWord, BitVec.toNat_ofNat, Nat.mod_eq_of_lt (by have := inCap_le s.cfg; omega)]

theorem toNat_outCapR (s : State) : (regWord s .outCapR).toNat = s.cfg.outCap := by
  rw [regWord, BitVec.toNat_ofNat, Nat.mod_eq_of_lt (by have := outCap_le s.cfg; omega)]

/-- Both readings of R35 show the opcode field (assumption 8). -/
theorem cmdReadValue_opcode (w : Word) : (cmdReadValue w).extractLsb' 0 8 = w.extractLsb' 0 8 := by
  have low : (w &&& 0xFF).extractLsb' 0 8 = w.extractLsb' 0 8 := by
    have masked : (w &&& 0xFF).toNat = w.toNat % 2 ^ 8 := Nat.and_two_pow_sub_one_eq_mod w.toNat 8
    apply BitVec.eq_of_toNat_eq
    rw [BitVec.extractLsb'_toNat, BitVec.extractLsb'_toNat, masked]
    simp
  rw [cmdReadValue]
  split
  · rfl
  · split
    · rfl
    · exact low

theorem toNat_bitWord (b : Bool) : (0#31 ++ BitVec.ofBool b).toNat = b.toNat := by cases b <;> rfl

theorem toNat_ctrl (s : State) : (regWord s .ctrl).toNat = s.irqEn.toNat := toNat_bitWord s.irqEn

/-- Settles O9: each register at its offset, by the field it reads. -/
theorem registerReads : Obligations.RegisterReads := by
  unfold Obligations.RegisterReads
  intro s
  have read := readWord_reg s
  have number := fun r => congrArg BitVec.toNat (readWord_reg s r)
  exact ⟨number .id, (number .inCapR).trans (toNat_inCapR s), (number .outCapR).trans (toNat_outCapR s),
    (congrArg (BitVec.extractLsb' 0 8) (read .cmd)).trans (cmdReadValue_opcode s.cmdw),
    (number .ctrl).trans (toNat_ctrl s), (number .errCode).trans (BitVec.toNat_setWidth_of_le (by decide)),
    read .errPos, read .inLen, read .outLen, read .bitpos,
    (number .root).trans (BitVec.toNat_setWidth_of_le (by decide)),
    (number .nodeCount).trans (BitVec.toNat_setWidth_of_le (by decide)),
    (number .leafCount).trans (BitVec.toNat_setWidth_of_le (by decide)), read .treeBits,
    (number .padCount).trans (BitVec.toNat_setWidth_of_le (by decide)), read .payloadBits⟩

theorem cmdReadValue_zero : cmdReadValue 0 = 0 := if_pos (by decide)

theorem statusWord_resetWith (p : Params) : statusWord (State.resetWith p) = 0 :=
  (if_neg (by simp [State.resetWith])).trans (show packStatus false false false false false false = 0 by decide)

/-- Settles O8: the registers by their offsets, the tables by their entries. -/
theorem resetValues : Obligations.ResetValues := by
  unfold Obligations.ResetValues
  rintro p s rfl
  have read := readWord_reg (State.resetWith p)
  refine ⟨read .id, (congrArg BitVec.toNat (read .inCapR)).trans (toNat_inCapR _),
    (congrArg BitVec.toNat (read .outCapR)).trans (toNat_outCapR _), (read .cmd).trans cmdReadValue_zero,
    (read .status).trans (statusWord_resetWith p),
    rfl, rfl, rfl, rfl, rfl, (read .ctrl).trans (BitVec.eq_of_toNat_eq (toNat_ctrl _)),
    rfl, rfl, rfl, rfl, rfl, rfl, rfl, rfl, rfl, rfl, rfl,
    freqAt_freqZero, nodeAt_arenaZero, codeAt_codeZero, fun _ => rfl, fun _ => rfl, rfl, rfl⟩

/-! ## STATUS and the IRQ line (R36, R54) -/

/-- Bit k of a word of STATUS fields (R36). -/
theorem getLsbD_packStatus (busy done error treeValid codesValid irq : Bool) (k : Nat) :
    (packStatus busy done error treeValid codesValid irq).getLsbD k =
      [busy, done, error, treeValid, codesValid, irq].getD k false := by
  simp only [packStatus, BitVec.getLsbD_append]
  match k with
  | 0 | 1 | 2 | 3 | 4 | 5 => simp
  | k + 6 => simp

/-- A STATUS read by bit (R36, U3). -/
theorem getLsbD_status (s : State) (k : Nat) : (readWord s 0x014#30).getLsbD k =
    if s.busy then
      [true, false, false, (Config.busyFlags s.draws).getLsbD 0, (Config.busyFlags s.draws).getLsbD 1, false].getD k false
    else [false, s.done, s.error, s.treeValid, s.codesValid, irq s].getD k false := by
  have read : readWord s 0x014#30 = statusWord s := readWord_reg s .status
  rw [read, statusWord]
  split <;> exact getLsbD_packStatus _ _ _ _ _ _ k

/-- Settles O10: STATUS bit by bit, and the acknowledge that a write of it is. -/
theorem statusRegister : Obligations.StatusRegister := by
  unfold Obligations.StatusRegister
  intro s
  have write : ∀ v, writeWord s 0x014#30 v = acknowledge v s := writeWord_reg s .status
  simp only [getLsbD_status]
  refine ⟨fun k hk => ?_, ?_, fun hb => ?_, fun hb => ?_, fun v => ?_⟩
  · split <;> exact List.getD_eq_default _ _ hk
  · cases s.busy <;> rfl
  · simp [hb, irq]
  · simp [hb]
  · rw [write, acknowledge]
    cases v.getLsbD 1 <;> cases v.getLsbD 2 <;> simp

/-- While a command is pending the line is low, since the issue has cleared DONE and ERROR. -/
theorem ControlInv.irq_busy {s : State} (h : ControlInv s) (hb : s.busy = true) : irq s = false := by
  obtain ⟨hd, he, -, -⟩ := h.cleared hb
  simp [irq, hd, he]

/-- Settles O11: the line by the flags it reads, and each write by the flag it clears. -/
theorem irqLevel : Obligations.IrqLevel := by
  unfold Obligations.IrqLevel
  intro s hs
  refine ⟨rfl, fun v h1 h2 => ?_, fun v h0 => ?_, fun v => ?_, ?_⟩
  · rw [show writeWord s 0x014#30 v = acknowledge v s from writeWord_reg s .status v]
    simp [irq, h1, h2]
  · rw [show writeWord s 0x018#30 v = { s with irqEn := v.getLsbD 0 } from writeWord_reg s .ctrl v]
    simp only [irq, h0, Bool.false_and]
  · rw [show writeWord s 0x010#30 v = issue v s from writeWord_reg s .cmd v]
    simp [irq]
  · rw [getLsbD_status]
    cases hb : s.busy with
    | true => rw [hs.irq_busy hb]; rfl
    | false => rfl

/-! ## Writable and read-only state (R57, R58) -/

theorem toNat_freqOffset (b : Byte) : (BitVec.ofNat 30 (0x400 + 4 * b.toNat)).toNat = 0x400 + 4 * b.toNat :=
  toNat_ofNat30 (by have := b.isLt; omega)

theorem readWord_freq (s : State) (b : Byte) : readWord s (BitVec.ofNat 30 (0x400 + 4 * b.toNat)) = freqAt s.freq b := by
  rw [readWord, toNat_freqOffset, regionOf_freq]; rfl

theorem writeWord_freq (s : State) (b : Byte) (v : Word) :
    writeWord s (BitVec.ofNat 30 (0x400 + 4 * b.toNat)) v = { s with freq := freqPut s.freq b v } := by
  rw [writeWord, toNat_freqOffset, regionOf_freq]; rfl

/-- CTRL reads as its bit 0. -/
theorem ctrl_of_bit (v : Word) : 0#31 ++ BitVec.ofBool (v.getLsbD 0) = v &&& 1 := by
  have bit : (v.getLsbD 0).toNat = v.toNat % 2 := (Nat.toNat_testBit v.toNat 0).trans (by simp)
  have masked : (v &&& 1).toNat = v.toNat % 2 := Nat.and_two_pow_sub_one_eq_mod v.toNat 1
  exact BitVec.eq_of_toNat_eq ((toNat_bitWord _).trans (bit.trans masked.symm))

/-- Settles O12: each write by its register's rule, and a FREQ write by read after write. -/
theorem writableRegistersReadBack : Obligations.WritableRegistersReadBack := by
  unfold Obligations.WritableRegistersReadBack
  intro s v
  have write := fun r => writeWord_reg s r v
  refine ⟨⟨?_, write .inLen⟩, ⟨?_, write .bitpos⟩, ⟨?_, write .ctrl⟩, fun b => ⟨freqPut s.freq b v, ?_, ?_, ?_⟩⟩
  · exact readWord_reg { s with inLen := v } .inLen
  · exact readWord_reg { s with bitpos := v } .bitpos
  · exact (readWord_reg { s with irqEn := v.getLsbD 0 } .ctrl).trans (ctrl_of_bit v)
  · exact writeWord_freq s b v
  · exact fun a => freqAt_freqPut s.freq b a v
  · rw [readWord_freq, freqAt_freqPut, if_pos rfl]

/-- The registers whose writes are ignored (R58). -/
def readOnlyRegs : List Reg :=
  [.id, .inCapR, .outCapR, .errCode, .errPos, .outLen, .root, .nodeCount, .leafCount, .treeBits, .padCount, .payloadBits]

theorem writeReg_readOnly {r : Reg} (h : r ∈ readOnlyRegs) (v : Word) (s : State) : writeReg v s r = s := by
  simp only [readOnlyRegs, List.mem_cons, List.not_mem_nil, or_false] at h
  rcases h with rfl | rfl | rfl | rfl | rfl | rfl | rfl | rfl | rfl | rfl | rfl | rfl <;> rfl

/-- The NODE, CODE and OUT windows, as ranges of the map (R81). -/
theorem regionOf_readOnlyWindow {o : Nat} (h4 : o % 4 = 0)
    (h : 0x2000 ≤ o ∧ o < 0x8000 ∨ 0x20000000 ≤ o ∧ o < 0x30000000) :
    (∃ i w, regionOf o = .node i w) ∨ (∃ b w, regionOf o = .code b w) ∨ ∃ k, regionOf o = .output k := by
  by_cases hnode : o < 0x4000
  · have e : o = 0x2000 + 16 * ((o - 0x2000) / 16) + 4 * ((o - 0x2000) % 16 / 4) := by omega
    rw [e]
    exact .inl ⟨_, _, regionOf_node (by omega) (by omega)⟩
  · by_cases hcode : o < 0x8000
    · have hb : (BitVec.ofNat 8 ((o - 0x4000) / 64)).toNat = (o - 0x4000) / 64 := by
        rw [BitVec.toNat_ofNat, Nat.mod_eq_of_lt (by omega)]
      have e : o = 0x4000 + 64 * (BitVec.ofNat 8 ((o - 0x4000) / 64)).toNat + 4 * ((o - 0x4000) % 64 / 4) := by
        rw [hb]; omega
      rw [e]
      exact .inr (.inl ⟨_, _, regionOf_code _ (by omega)⟩)
    · have e : o = 0x20000000 + (o - 0x20000000) := by omega
      rw [e]
      exact .inr (.inr ⟨_, regionOf_output (by omega)⟩)

/-- Settles O13: each offset is a read-only register's, or lies in one of the three windows. -/
theorem readOnlyWritesIgnored : Obligations.ReadOnlyWritesIgnored := by
  unfold Obligations.ReadOnlyWritesIgnored
  intro s o v h4 ho
  by_cases hreg : o.toNat ≤ 0x044
  · obtain ⟨r, hr, e⟩ : ∃ r ∈ readOnlyRegs, o.toNat = r.offset := by
      simp only [readOnlyRegs, List.mem_cons, List.not_mem_nil, or_false, exists_eq_or_imp, exists_eq_left, Reg.offset]
      omega
    rw [writeWord, e, regionOf_reg]
    exact writeReg_readOnly hr v s
  · rw [writeWord]
    rcases regionOf_readOnlyWindow h4 (by omega) with ⟨i, w, e⟩ | ⟨b, w, e⟩ | ⟨k, e⟩ <;> rw [e] <;> rfl

end Sys2Proof.Machine
end

section
namespace Sys2Proof.Machine

/-! ## The buffer windows (R83, R86, R87) -/

/-- A lane of the word at `k` of the IN window (R83, R86). -/
theorem lane_readWord_input (s : State) {k j : Nat} (hk : k < 2 ^ 28) (hj : j < 4) :
    (readWord s (BitVec.ofNat 30 (0x10000000 + k))).extractLsb' (8 * j) 8 = inWindowByte s (k + j) := by
  rw [readWord, toNat_ofNat30 (by omega), regionOf_input hk]
  exact lane_ofLanes (fun i => inWindowByte s (k + i)) hj

/-- A lane of the word at `k` of the OUT window (R83, R87). -/
theorem lane_readWord_output (s : State) {k j : Nat} (hk : k < 2 ^ 28) (hj : j < 4) :
    (readWord s (BitVec.ofNat 30 (0x20000000 + k))).extractLsb' (8 * j) 8 = outWindowByte s (k + j) := by
  rw [readWord, toNat_ofNat30 (by omega), regionOf_output hk]
  exact lane_ofLanes (fun i => outWindowByte s (k + i)) hj

theorem writeWord_input (s : State) {k : Nat} (hk : k < 2 ^ 28) (v : Word) :
    writeWord s (BitVec.ofNat 30 (0x10000000 + k)) v = putInWord s k v := by
  rw [writeWord, toNat_ofNat30 (by omega), regionOf_input hk]; rfl

theorem writeWord_output (s : State) {k : Nat} (hk : k < 2 ^ 28) (v : Word) :
    writeWord s (BitVec.ofNat 30 (0x20000000 + k)) v = s := by
  rw [writeWord, toNat_ofNat30 (by omega), regionOf_output hk]; rfl

/-- Settles O15: a read by its lanes, a write of IN by the four bytes it puts. -/
theorem bufferWindowLanes : Obligations.BufferWindowLanes := by
  unfold Obligations.BufferWindowLanes
  intro s m v hm
  have hk : 4 * m < 2 ^ 28 := by omega
  refine ⟨fun j hj => lane_readWord_input s hk hj, ⟨(putInWord s (4 * m) v).inBuf, ?_, fun k => ?_⟩,
    fun j hj => lane_readWord_output s hk hj, writeWord_output s hk v⟩
  · rw [writeWord_input s hk, ← putInWord_eq]
  · rw [← putInWord_eq, inByte_putInWord]

/-! ## The NODE window (R88) -/

theorem readWord_node (s : State) {i w : Nat} (hi : i < 512) (hw : w < 4) :
    readWord s (BitVec.ofNat 30 (0x2000 + 16 * i + 4 * w)) = nodeWord (nodeAt s.node i) w := by
  rw [readWord, toNat_ofNat30 (by omega), regionOf_node hi hw]; rfl

/-- KIND at bit 0 and SYM at [15:8]. -/
theorem getLsbD_nodeWord_zero (n : Node) (k : Nat) : (nodeWord n 0).getLsbD k =
    if k = 0 then n.kind else decide (8 ≤ k ∧ k < 16) && n.sym.getLsbD (k - 8) := by
  show (0#16 ++ n.sym ++ 0#7 ++ BitVec.ofBool n.kind : BitVec (16 + 8 + 7 + 1)).getLsbD k = _
  simp only [BitVec.getLsbD_append]
  by_cases h0 : k = 0
  · simp [h0]
  · by_cases h8 : k < 8
    · rw [if_neg (by omega), if_pos (by omega), if_neg h0]
      simp [show ¬8 ≤ k by omega]
    · by_cases h16 : k < 16
      · rw [if_neg (by omega), if_neg (by omega), if_pos (by omega), if_neg h0, Nat.sub_sub]
        simp [h16, show 8 ≤ k by omega]
      · rw [if_neg (by omega), if_neg (by omega), if_neg (by omega), if_neg h0]
        simp [h16]

/-- NFREQ[31:0]. -/
theorem getLsbD_nodeWord_one (n : Node) {k : Nat} (hk : k < 32) : (nodeWord n 1).getLsbD k = n.nfreq.getLsbD k := by
  show (n.nfreq.extractLsb' 0 32).getLsbD k = _
  rw [BitVec.getLsbD_extractLsb', Nat.zero_add]
  simp [hk]

/-- NFREQ[39:32] at [7:0]. -/
theorem getLsbD_nodeWord_two (n : Node) (k : Nat) : (nodeWord n 2).getLsbD k =
    (decide (k < 8) && n.nfreq.getLsbD (32 + k)) := by
  show (0#24 ++ n.nfreq.extractLsb' 32 8).getLsbD k = _
  simp only [BitVec.getLsbD_append, BitVec.getLsbD_extractLsb']
  by_cases h : k < 8
  · rw [if_pos h]
  · simp [h]

/-- LEFT at [8:0] and RIGHT at [24:16]; RIGHT's bits end at 25, and LEFT's at 9. -/
theorem getLsbD_nodeWord_three (n : Node) (k : Nat) : (nodeWord n 3).getLsbD k =
    if k < 16 then n.left.getLsbD k else n.right.getLsbD (k - 16) := by
  show (0#7 ++ n.right ++ 0#7 ++ n.left : BitVec (7 + 9 + 7 + 9)).getLsbD k = _
  simp only [BitVec.getLsbD_append]
  by_cases h9 : k < 9
  · rw [if_pos h9, if_pos (by omega)]
  · by_cases h16 : k < 16
    · rw [if_neg h9, if_pos (by omega), if_pos h16, BitVec.getLsbD_zero, BitVec.getLsbD_of_ge _ _ (by omega)]
    · rw [if_neg h9, if_neg (by omega), if_neg h16, Nat.sub_sub]
      by_cases h25 : k < 25
      · rw [if_pos (by omega)]
      · rw [if_neg (by omega), BitVec.getLsbD_zero, BitVec.getLsbD_of_ge _ _ (by omega)]

theorem nodeWord_nodeZero {w : Nat} (hw : w < 4) : nodeWord Node.zero w = 0 := by
  interval_cases w <;> rfl

/-! ## The CODE window (R88) -/

theorem readWord_code (s : State) (b : Byte) {w : Nat} (hw : w < 16) :
    readWord s (BitVec.ofNat 30 (0x4000 + 64 * b.toNat + 4 * w)) = codeWord (codeAt s.code b) w := by
  rw [readWord, toNat_ofNat30 (by have := b.isLt; omega), regionOf_code b hw]; rfl

theorem val_append_singleton (a : Bits) (b : Bool) : val (a ++ [b]) = Nat.bit b (val a) := by
  rw [val, List.foldl_append, Nat.bit_val]; rfl

/-- The bits of a number are the digits that spell it, the last one least significant (R13). -/
theorem testBit_val (a : Bits) (k : Nat) : (val a).testBit k = a.reverse.getD k false := by
  induction a using List.reverseRecOn generalizing k with
  | nil => simp [val]
  | append_singleton a b ih =>
    rw [val_append_singleton, List.reverse_append]
    cases k with
    | zero => exact Nat.testBit_bit_zero b (val a)
    | succ k => exact (Nat.testBit_bit_succ k b (val a)).trans (ih k)

theorem toNat_codeWord_zero (c : Code) : (codeWord c 0).toNat = c.len.toNat :=
  BitVec.toNat_setWidth_of_le (show 8 ≤ 32 by decide)

/-- Digit j of a digit word is its bit 31 - j (R88). -/
theorem getLsbD_codeWord_digits (c : Code) {w j : Nat} (hw : w < 8) (hj : j < 32) :
    (codeWord c (w + 1)).getLsbD (31 - j) = codeDigit c (32 * w + j) := by
  rw [codeWord, if_neg (by omega), if_pos (by omega), BitVec.getLsbD_ofNat, testBit_val,
    List.getD_eq_getElem _ _ (by simp; omega), List.getElem_reverse, List.getElem_map, List.getElem_range]
  have digit : 32 - 1 - (31 - j) = j := by omega
  simp [digit]; omega

theorem codeWord_reserved (c : Code) {w : Nat} (hw : 9 ≤ w) : codeWord c w = 0 := by
  rw [codeWord, if_neg (by omega), if_neg (by omega)]

/-- Settles O16: each window read by its entry's words. -/
theorem tableWindows : Obligations.TableWindows := by
  unfold Obligations.TableWindows
  intro s
  refine ⟨readWord_freq s, fun b v => ?_, fun i hi k hk => ?_, fun w hw => ?_,
    fun b => ⟨?_, fun w j hw hj => ?_, fun w h9 hw => ?_⟩, fun o v h4 hlo hhi => ?_⟩
  · rw [writeWord_freq, freqAt_freqPut, if_pos rfl]
  · have word := fun w hw => congrArg (BitVec.getLsbD · k) (readWord_node s (i := i) (w := w) (by omega) hw)
    exact ⟨(word 0 (by decide)).trans (getLsbD_nodeWord_zero _ k),
      (word 1 (by decide)).trans (getLsbD_nodeWord_one _ hk),
      (word 2 (by decide)).trans (getLsbD_nodeWord_two _ k),
      (word 3 (by decide)).trans (getLsbD_nodeWord_three _ k)⟩
  · rw [readWord_node s (by decide) hw, nodeAt_beyond s.node (Nat.le_refl 511), nodeWord_nodeZero hw]
  · exact (congrArg BitVec.toNat (readWord_code s b (w := 0) (by decide))).trans (toNat_codeWord_zero _)
  · rw [show 0x4000 + 64 * b.toNat + 4 + 4 * w = 0x4000 + 64 * b.toNat + 4 * (w + 1) by omega,
      readWord_code s b (by omega), getLsbD_codeWord_digits _ hw hj]
    rfl
  · rw [readWord_code s b hw, codeWord_reserved _ h9]
  · exact readOnlyWritesIgnored s o v h4 (by omega)

/-! ## Host accesses (R82, R89, R91, R390) -/

theorem step_host {s : State} {a : BusAccess} {rest : List Event} (h : s.agenda = .host a :: rest) :
    step s = hostAccess a { s with agenda := rest } := by
  rw [step, h]; rfl

theorem BusAccess.isWord_iff (a : BusAccess) : a.isWord = true ↔ a.bytes = 4 ∧ a.offset.toNat % 4 = 0 := by
  simp [BusAccess.isWord]

theorem BusAccess.readsStatus_iff {a : BusAccess} (h : a.bytes = 4) : a.readsStatus = true ↔ a = readAt 0x014#30 := by
  obtain ⟨bytes, offset, op⟩ := a
  have status : offset.toNat = 0x014 ↔ offset = 0x014#30 := BitVec.toNat_inj (y := 0x014#30)
  simp only [BusAccess.readsStatus, readAt, Reg.offset, Bool.and_eq_true, beq_iff_eq, BusAccess.mk.injEq] at h ⊢
  rw [status]
  exact ⟨fun ⟨ho, hs⟩ => ⟨h, hs, ho⟩, fun ⟨_, hs, ho⟩ => ⟨ho, hs⟩⟩

theorem hostAccess_notWord {a : BusAccess} (h : a.isWord = false) (s : State) :
    hostAccess a s = .refused .notAWordAccess := by
  rw [hostAccess, h]; rfl

theorem hostAccess_busy {a : BusAccess} {s : State} (hw : a.isWord = true) (hb : s.busy = true)
    (hr : a.readsStatus = false) : hostAccess a s = .refused .accessWhileBusy := by
  rw [hostAccess, hw, hb, hr]; rfl

/-- A read goes through on an idle block, and one of STATUS always (R390). -/
theorem hostAccess_read {a : BusAccess} {s : State} (hw : a.isWord = true)
    (hb : s.busy = false ∨ a.readsStatus = true) (ho : a.op = .read) : hostAccess a s = .next (hostRead s a.offset) := by
  have admitted : (s.busy && !a.readsStatus) = false := by
    rcases hb with h | h <;> simp [h]
  rw [hostAccess, hw, admitted, ho]; rfl

theorem hostAccess_write {a : BusAccess} {s : State} {v : Word} (hw : a.isWord = true) (hb : s.busy = false)
    (ho : a.op = .write v) : hostAccess a s = .next (writeWord s a.offset v) := by
  rw [hostAccess, hw, hb, ho]; rfl

/-- What is outside the block does not enter a host read. -/
theorem hostRead_agenda (s : State) (rest : List Event) (o : Offset) :
    hostRead { s with agenda := rest } o = { hostRead s o with agenda := rest } := by
  rw [hostRead, readWord_agenda]; rfl

/-- Settles O17: the width and alignment, then BUSY, then the operation of the access. -/
theorem hostAccessOutcomes : Obligations.HostAccessOutcomes := by
  unfold Obligations.HostAccessOutcomes
  intro s a rest h
  rw [step_host h]
  refine ⟨fun hn => ?_, fun hbytes halign => ?_⟩
  · refine hostAccess_notWord (Bool.eq_false_iff.mpr fun hw => ?_) _
    obtain ⟨hbytes, halign⟩ := a.isWord_iff.mp hw
    exact hn.elim (· hbytes) (· halign)
  · have hw : a.isWord = true := a.isWord_iff.mpr ⟨hbytes, halign⟩
    have status := BusAccess.readsStatus_iff hbytes
    have read := hostAccess_read (s := { s with agenda := rest }) hw
    refine ⟨fun hb ha => ?_, fun hb ha => ?_, fun hb ho => ?_, fun v hb ho => hostAccess_write hw hb ho⟩
    · rw [read (.inr (status.mpr ha)) (by rw [ha]; rfl), hostRead_agenda, hostRead, hb, ha]; rfl
    · exact hostAccess_busy hw hb (Bool.eq_false_iff.mpr (mt status.mp ha))
    · rw [read (.inl hb) ho, hostRead_agenda, hostRead, hb]; rfl

theorem readWord_reserved (s : State) {o : Offset} (h : reservedOffset o.toNat) : readWord s o = 0 := by
  rw [readWord, regionOf_reserved h]; rfl

theorem writeWord_reserved (s : State) {o : Offset} (h : reservedOffset o.toNat) (v : Word) : writeWord s o v = s := by
  rw [writeWord, regionOf_reserved h]; rfl

/-- Settles O14: an idle block admits both accesses, and each finds no register or window. -/
theorem reservedOffsetsInert : Obligations.ReservedOffsetsInert := by
  unfold Obligations.ReservedOffsetsInert
  intro s o v h4 ho
  refine ⟨readWord_reserved s ho, writeWord_reserved s ho v, fun rest hb => ⟨fun h => ?_, fun h => ?_⟩⟩
  · obtain ⟨-, word⟩ := hostAccessOutcomes s (readAt o) rest h
    obtain ⟨-, -, read, -⟩ := word rfl h4
    rw [read hb rfl, show readWord s (readAt o).offset = 0 from readWord_reserved s ho]
    rfl
  · obtain ⟨-, word⟩ := hostAccessOutcomes s (writeAt o v) rest h
    obtain ⟨-, -, -, write⟩ := word rfl h4
    rw [write v hb rfl]
    exact congrArg _ (writeWord_reserved _ ho v)

end Sys2Proof.Machine
end

section
namespace Sys2Proof.Machine

/-! ## Decoding and encoding (R120, R122, R124) -/

theorem joinWord_splitWord (w : Word) : joinWord (splitWord w) = w :=
  BitVec.extractLsb'_append_extractLsb' (w := 24) (len := 8)

theorem opcodeInstr_eq_some {op : BitVec 8} {i : Instr} : opcodeInstr op = some i ↔ op = i.opcode := by
  constructor
  · intro h
    unfold opcodeInstr at h
    split_ifs at h <;> cases h <;> assumption
  · rintro rfl
    cases i <;> rfl

/-- The reserved ranges of R124 are what the ten opcodes of R122 leave. -/
theorem reservedOpcode_iff {op : BitVec 8} : reservedOpcode op ↔ ∀ i : Instr, op ≠ i.opcode := by
  unfold reservedOpcode
  constructor
  · rintro h i rfl
    cases i <;> revert h <;> decide
  · intro h
    have apart : ∀ i : Instr, op.toNat ≠ i.opcode.toNat := fun i => mt BitVec.eq_of_toNat_eq (h i)
    have below := op.isLt
    have ten : op.toNat ≠ 0x00 ∧ op.toNat ≠ 0x01 ∧ op.toNat ≠ 0x10 ∧ op.toNat ≠ 0x20 ∧ op.toNat ≠ 0x30 ∧
        op.toNat ≠ 0x40 ∧ op.toNat ≠ 0x50 ∧ op.toNat ≠ 0x60 ∧ op.toNat ≠ 0x80 ∧ op.toNat ≠ 0x81 :=
      ⟨apart .nop, apart .clear, apart .freqCount, apart .treeBuild, apart .codeGen, apart .emit, apart .treeLoad,
        apart .decodePayload, apart .compress, apart .decompress⟩
    omega

theorem opcodeInstr_eq_none {op : BitVec 8} : opcodeInstr op = none ↔ reservedOpcode op := by
  rw [reservedOpcode_iff, Option.eq_none_iff_forall_ne_some]
  exact forall_congr' fun i => not_congr opcodeInstr_eq_some

/-- A word whose fields are a command's decodes to the command and is its word (R121, R122). -/
theorem decode_legal {w : Word} {i : Instr} (h0 : (splitWord w).rsvd = 0#24) (hi : (splitWord w).opcode = i.opcode) :
    decode w = .ok i ∧ w = encode i := by
  constructor
  · rw [decode, if_neg (not_not_intro h0), opcodeInstr_eq_some.mpr hi]
  · rw [← joinWord_splitWord w, encode, Instr.commandWord, ← hi, ← h0]

theorem illegalWord_iff {w : Word} :
    illegalWord w ↔ (splitWord w).rsvd ≠ 0#24 ∨ reservedOpcode (splitWord w).opcode := Iff.rfl

/-- What the decoder answers (R121): an error on the illegal words, and otherwise the command whose word it is. -/
theorem decode_cases (w : Word) :
    (illegalWord w ∧ ∃ e, decode w = .error e) ∨ (¬illegalWord w ∧ ∃ i, decode w = .ok i ∧ w = encode i) := by
  by_cases h0 : (splitWord w).rsvd = 0#24
  · cases hop : opcodeInstr (splitWord w).opcode with
    | none =>
      refine .inl ⟨.inr (opcodeInstr_eq_none.mp hop), .reservedOpcode, ?_⟩
      rw [decode, if_neg (not_not_intro h0), hop]
    | some i =>
      refine .inr ⟨?_, i, decode_legal h0 (opcodeInstr_eq_some.mp hop)⟩
      rw [illegalWord_iff, ← opcodeInstr_eq_none, hop]
      simp [h0]
  · exact .inl ⟨.inl h0, .reservedBits, if_pos h0⟩

theorem decode_encode (i : Instr) : decode (encode i) = .ok i := by cases i <;> rfl

theorem decode_eq_ok {w : Word} {i : Instr} : decode w = .ok i ↔ w = encode i := by
  constructor
  · intro h
    rcases decode_cases w with ⟨-, e, he⟩ | ⟨-, j, hj, hw⟩
    · rw [h] at he; cases he
    · rw [h] at hj; cases hj; exact hw
  · rintro rfl
    exact decode_encode i

theorem decode_eq_error {w : Word} : (∃ e, decode w = .error e) ↔ illegalWord w := by
  rcases decode_cases w with ⟨hw, he⟩ | ⟨hw, i, hi, -⟩
  · exact iff_of_true he hw
  · refine iff_of_false ?_ hw
    rintro ⟨e, he⟩
    rw [hi] at he; cases he

/-- Settles O2: a word is its two fields, and the opcodes of R122 and the ranges of R124 share out the field. -/
theorem decodeInvertsEncode : Obligations.DecodeInvertsEncode := by
  unfold Obligations.DecodeInvertsEncode
  exact ⟨fun _ _ => decode_eq_ok, fun _ => decode_eq_error⟩

/-- Settles O1: each of the words is its command's, and a command's word decodes to it. -/
theorem commandWordsDecode : Obligations.CommandWordsDecode := by
  unfold Obligations.CommandWordsDecode
  exact ⟨decode_encode .nop, decode_encode .clear, decode_encode .freqCount, decode_encode .treeBuild,
    decode_encode .codeGen, decode_encode .emit, decode_encode .treeLoad, decode_encode .decodePayload,
    decode_encode .compress, decode_encode .decompress⟩

/-! ## The engine's move (R121, R342) -/

theorem engineStep_encode (i : Instr) (s : State) : engineStep (encode i) s = exec i s := by
  rw [engineStep, decode_encode]

/-- An illegal word is a precondition error: it changes the report alone (R121, R347). -/
theorem engineStep_illegal {w : Word} (h : illegalWord w) (s : State) :
    engineStep w s = .next (raisedWith 1 w s) := by
  obtain ⟨e, he⟩ := decode_eq_error.mpr h
  rw [engineStep, he]
  exact congrArg _ (takeError_precondition s rfl)

theorem engineTurn_pending {s : State} {w : Word} (h : s.pending = some w) : engineTurn s = engineStep w s := by
  rw [engineTurn, h]

theorem step_engine {s : State} {rest : List Event} (h : s.agenda = .engine :: rest) :
    step s = engineTurn { s with agenda := rest } := by
  rw [step, h]; rfl

/-- Settles O3: the engine decodes the pending word, and an illegal one has no command. -/
theorem illegalWordRaises : Obligations.IllegalWordRaises := by
  unfold Obligations.IllegalWordRaises
  intro s w rest ha hp
  rw [step_engine ha, engineTurn_pending (s := { s with agenda := rest }) hp]
  rcases decode_cases w with ⟨hw, -⟩ | ⟨hw, i, -, rfl⟩
  · exact ⟨fun _ => engineStep_illegal hw _, fun h => absurd hw h⟩
  · exact ⟨fun h => absurd h hw, fun _ => ⟨i, rfl, engineStep_encode i _⟩⟩

theorem tableWord_toNat (w : Word) : tableWord 32 w.toNat = w := by
  rw [tableWord, Nat.mod_eq_of_lt w.isLt, BitVec.ofNat_toNat, BitVec.setWidth_eq]

/-- The step after `withFetchWord` is the engine's, on the block as the issue left it (assumption 10). -/
theorem step_withFetchWord (s : State) (w : Word) : step (s.withFetchWord 32 w.toNat) = engineStep w (issue w s) := by
  rw [State.withFetchWord, tableWord_toNat, step_engine (rest := s.agenda) rfl]
  exact engineTurn_pending (s := issue w s) rfl

/-- Settles O4: each of the four leaves the move to the engine, which decodes the pending word. -/
theorem stepRunsDecoded : Obligations.StepRunsDecoded := by
  unfold Obligations.StepRunsDecoded
  refine ⟨fun s i rest hp => ?_, fun s w i hw => ?_⟩
  · have moves : engineTurn s = exec i s := by rw [engineTurn_pending hp, engineStep_encode]
    refine ⟨fun ha => ?_, fun ha => ?_, fun ha hb => ?_, fun ha hq => ?_⟩
    · rw [step, ha, ← moves]; rfl
    · rw [step_engine ha, engineTurn_pending (s := { s with agenda := rest }) hp, engineStep_encode]
    · rw [step, ha, turn, if_pos hb, moves]
    · rw [step, ha, turn, if_neg (by simp [hq]), moves]
  · rw [step_withFetchWord, decode_eq_ok.mp hw, engineStep_encode]

/-! ## Serialized trees (R130, R220) -/

/-- Settles O6: the first digit says whether a tree is a leaf, and then its symbol or its subtrees follow. -/
theorem serializationSelfDelimits : Obligations.SerializationSelfDelimits := by
  unfold Obligations.SerializationSelfDelimits
  intro t u x y h
  exact serialize_append_inj h

end Sys2Proof.Machine
end

section
namespace Sys2Proof.Machine

/-! ## LOADIN (R126) -/

/-- One more step after a run. -/
theorem run_succ {M : Host.Core} {n : Nat} {s t : M.State} (h : M.run n s = .next t) : M.run (n + 1) s = M.step t := by
  induction n generalizing s with
  | zero =>
    cases h
    rw [Host.Core.run]
    cases M.step t <;> rfl
  | succ n ih =>
    rw [Host.Core.run] at h ⊢
    cases hs : M.step s with
    | next u => rw [hs] at h; exact ih h
    | fault r => rw [hs] at h; cases h
    | refused r => rw [hs] at h; cases h

/-- A host write of an aligned word on an idle block (R82, R91). -/
theorem step_write (s : State) (hb : s.busy = false) {tgt : Target} (h4 : tgt.toOffset.toNat % 4 = 0) (v : Word)
    (rest : List Event) : step { s with agenda := writeEvent tgt v :: rest } =
      .next (writeWord { s with agenda := rest } tgt.toOffset v) :=
  (step_host rfl).trans
    (hostAccess_write (s := { s with agenda := rest }) ((BusAccess.isWord_iff _).mpr ⟨rfl, h4⟩) hb rfl)

/-- Byte j of word m of LOADIN (R126). -/
theorem lane_loadWord (bytes : List Byte) (m : Nat) {j : Nat} (hj : j < 4) :
    (loadWord bytes m).extractLsb' (8 * j) 8 = bytes.getD (4 * m + j) 0 :=
  lane_ofLanes (fun i => bytes.getD (4 * m + i) 0) hj

/-- With `buf` in IN, the first `n` words of LOADIN stand there below IN_CAP, 0 after the bytes, and the rest of IN
is as in `s`. -/
def Loaded (s : State) (bytes : List Byte) (n : Nat) (buf : Memory) : Prop :=
  ∀ k, inByte { s with inBuf := buf } k = if k < 4 * n ∧ k < s.cfg.inCap then bytes.getD k 0 else inByte s k

/-- One more word written (R83, R86, R126). -/
theorem Loaded.succ {s : State} {bytes : List Byte} {n : Nat} {buf : Memory} (h : Loaded s bytes n buf)
    (rest : List Event) :
    Loaded s bytes (n + 1) (putInWord { s with agenda := rest, inBuf := buf } (4 * n) (loadWord bytes n)).inBuf := by
  intro k
  have written := inByte_putInWord { s with agenda := rest, inBuf := buf } (4 * n) (loadWord bytes n) k
  rw [putInWord_eq] at written
  refine written.trans ?_
  by_cases here : 4 * n ≤ k ∧ k < 4 * n + 4 ∧ k < s.cfg.inCap
  · rw [if_pos here, if_pos (by omega), lane_loadWord bytes n (by omega), Nat.add_sub_cancel' here.1]
  · exact (if_neg here).trans ((h k).trans (if_congr (by omega) rfl rfl))

theorem step_loadWord (s : State) (hb : s.busy = false) {n : Nat} (hn : 4 * n < 2 ^ 28) (v : Word) (buf : Memory)
    (rest : List Event) :
    step { s with agenda := writeEvent (.input n) v :: rest, inBuf := buf } =
      .next { s with
        agenda := rest, inBuf := (putInWord { s with agenda := rest, inBuf := buf } (4 * n) v).inBuf } := by
  have aligned : (Target.input n).toOffset.toNat % 4 = 0 := by
    rw [Target.toOffset, toNat_ofNat30 (by omega)]; omega
  refine (step_write { s with inBuf := buf } hb aligned v rest).trans (congrArg _ ?_)
  exact (writeWord_input _ hn v).trans (putInWord_eq _ _ _)

/-- The words of LOADIN, one step each. -/
theorem run_loadWords {s : State} (bytes : List Byte) (hb : s.busy = false) (n : Nat) (hn : 4 * n < 2 ^ 28 + 4)
    (rest : List Event)
    (ha : s.agenda = ((List.range n).map fun m => writeEvent (.input m) (loadWord bytes m)) ++ rest) :
    ∃ buf, core.run n s = .next ({ s with agenda := rest, inBuf := buf } : State) ∧ Loaded s bytes n buf := by
  induction n generalizing rest with
  | zero =>
    refine ⟨s.inBuf, ?_, fun k => (if_neg (by omega)).symm⟩
    rw [← show s.agenda = rest from ha]; rfl
  | succ n ih =>
    rw [List.range_succ, List.map_append, List.append_assoc] at ha
    obtain ⟨buf, run, loaded⟩ := ih (by omega) _ ha
    rw [run_succ run]
    exact ⟨_, step_loadWord s hb (by omega) _ buf rest, loaded.succ rest⟩

/-- Settles O5: one step for each word, and then the write of IN_LEN. -/
theorem loadInFillsInput : Obligations.LoadInFillsInput := by
  unfold Obligations.LoadInFillsInput
  intro s bytes hb hlen ha
  have hcap := inCap_le s.cfg
  obtain ⟨buf, words, loaded⟩ := run_loadWords bytes hb ((bytes.length + 3) / 4) (by omega) _ ha
  have steps : s.agenda.length = (bytes.length + 3) / 4 + 1 := by rw [ha, HostStmt.expand]; simp
  have number : (BitVec.ofNat 32 bytes.length).toNat = bytes.length := by
    rw [BitVec.toNat_ofNat, Nat.mod_eq_of_lt (by omega)]
  refine ⟨({ s with agenda := [], inBuf := buf, inLen := BitVec.ofNat 32 bytes.length } : State), ?_, rfl, ?_,
    fun k h1 h2 h3 => ?_, fun k hk => ?_⟩
  · rw [steps, run_succ words]
    exact (step_write { s with inBuf := buf } hb (tgt := .reg .inLen) rfl _ []).trans
      (congrArg _ (writeWord_reg _ .inLen _))
  · apply List.ext_getElem
    · rw [length_inBytes, number]
    · intro k hk hk'
      simp only [inBytes, List.getElem_map, List.getElem_range]
      exact (loaded k).trans ((if_pos (by omega)).trans (List.getD_eq_getElem _ _ hk'))
  · exact (loaded k).trans ((if_pos ⟨h2, h3⟩).trans (List.getD_eq_default _ _ h1))
  · exact (loaded k).trans (if_neg (by omega))

end Sys2Proof.Machine
end

section
namespace Sys2Proof.Machine

/-! ## COMPRESS (R312) -/

theorem streamBytes_eq (t p : Bits) : streamBytes t.length p.length = (streamOf t p).length / 8 := by
  rw [length_streamOf, streamBytes, pad]

/-- A tree of at most 256 leaves and codes of at most 255 digits bound the stream (R137, R204). -/
theorem streamBytes_compress_le {s : State} {tr : Tree} (hT : TreeHolds (beforeEmit s tr) tr) :
    streamBytes (serialize tr).length (payloadOf (beforeEmit s tr)).length ≤ 322 + 32 * s.inLen.toNat := by
  have hlevels := (currentTree_eq_some.mp hT.reads).2.2
  have hpayload := length_payloadOf_beforeEmit (s := s) hlevels
  have hserial := hT.length_serialize.1
  have hleaves := hT.atMost
  unfold streamBytes
  omega

/-- TREE_BUILD has left in TREE_BITS what EMIT writes there (R45, R255). -/
theorem treeBits_beforeEmit {s : State} {tr : Tree} (hT : TreeHolds (beforeEmit s tr) tr) :
    BitVec.ofNat 32 (serialize tr).length = (beforeEmit s tr).treeBits := by
  rw [← hT.length_serialize.2, BitVec.ofNat_toNat, BitVec.setWidth_eq]

/-- COMPRESS where its output fits (R255, R312). -/
theorem exec_compress_fits {s : State} {tr : Tree} {p : Bits}
    (hs : bodyCompress s = emitStream (serialize tr) p (beforeEmit s tr)) (hT : TreeHolds (beforeEmit s tr) tr)
    (hfit : streamBytes (serialize tr).length p.length ≤ s.cfg.outCap) :
    exec .compress s = .next (complete { beforeEmit s tr with
      outBuf := Memory.putAll s.outBuf 0 (pack (streamOf (serialize tr) p))
      outLen := BitVec.ofNat 32 (streamBytes (serialize tr).length p.length)
      padCount := BitVec.ofNat 3 (pad (serialize tr).length p.length)
      payloadBits := BitVec.ofNat 32 p.length }) := by
  rw [streamBytes_eq] at hfit ⊢
  rcases emitStream_cases (serialize tr) p (beforeEmit s tr) with ⟨h, -⟩ | ⟨-, h⟩
  · exact absurd h (Nat.not_lt.mpr hfit)
  · rw [treeBits_beforeEmit hT] at h
    exact exec_done (hs.trans h)

/-- COMPRESS where it does not (R254, R347). -/
theorem exec_compress_overflows {s : State} {tr : Tree} {p : Bits}
    (hs : bodyCompress s = emitStream (serialize tr) p (beforeEmit s tr))
    (hover : s.cfg.outCap < streamBytes (serialize tr).length p.length) :
    exec .compress s = .next (raisedWith 12 (BitVec.ofNat 32 s.cfg.outCap)
      { beforeEmit s tr with outLen := 0, padCount := 0, payloadBits := 0 }) := by
  rw [streamBytes_eq] at hover
  rcases emitStream_cases (serialize tr) p (beforeEmit s tr) with ⟨-, h⟩ | ⟨h, -⟩
  · rw [exec_raised (i := .compress) (hs.trans h), takeError_emitData _ rfl]; rfl
  · exact absurd hover (Nat.not_lt.mpr h)

/-- Settles O56: the four stages come to EMIT's capacity check, and either end keeps the tables they built. -/
theorem compressCompletes : Obligations.CompressCompletes := by
  unfold Obligations.CompressCompletes
  intro s hne hlen
  obtain ⟨tr, hs, hT, hperm, hmem, -⟩ := bodyCompress_stream hlen hne
  have hnodup : tr.symbols.Nodup := hperm.nodup_iff.mpr (nodup_presentSymbols _)
  have hcounts : ∀ b, (freqAt (countBytes (inBytes s)) b).toNat = (inBytes s).count b :=
    toNat_countBytes (by rw [length_inBytes]; exact s.inLen.isLt)
  have hbits := hT.length_serialize.2
  have hbound := streamBytes_compress_le hT
  have hcap := outCap_le s.cfg
  by_cases hfit : streamBytes (serialize tr).length (payloadOf (beforeEmit s tr)).length ≤ s.cfg.outCap
  · have hpad := pad_le (serialize tr).length (payloadOf (beforeEmit s tr)).length
    have hpayload : (payloadOf (beforeEmit s tr)).length < 2 ^ 32 := by
      unfold streamBytes at hfit; omega
    refine ⟨_, tr, _, exec_compress_fits hs hT hfit, rfl, hT.congr rfl rfl rfl rfl rfl, rfl, hnodup, hmem, hcounts,
      hbits, rfl, hbound, fun _ => ⟨rfl, rfl, rfl, rfl, ?_, ?_, ?_, ?_⟩, fun hover => absurd hover (Nat.not_lt.mpr hfit)⟩
    · exact (BitVec.toNat_ofNat _ _).trans (Nat.mod_eq_of_lt (by omega))
    · exact (BitVec.toNat_ofNat _ _).trans (Nat.mod_eq_of_lt (by omega))
    · exact (BitVec.toNat_ofNat _ _).trans (Nat.mod_eq_of_lt hpayload)
    · exact outHolds_putAll _ rfl rfl
  · have hover := Nat.lt_of_not_le hfit
    refine ⟨_, tr, _, exec_compress_overflows hs hover, rfl, hT.congr rfl rfl rfl rfl rfl, rfl, hnodup, hmem, hcounts,
      hbits, rfl, hbound, fun h => absurd h hfit, fun _ => ⟨rfl, rfl, rfl, ?_, rfl, rfl, rfl, fun _ => rfl⟩⟩
    exact (BitVec.toNat_ofNat _ _).trans (Nat.mod_eq_of_lt (by omega))

end Sys2Proof.Machine
end

section
namespace Sys2Proof.Machine

/-! ## FREQ_COUNT (R160 to R162) -/

/-- A byte occurs in the input as often as there are positions below IN_LEN that hold it (R161). -/
theorem count_inBytes (s : State) (b : Byte) :
    (inBytes s).count b = (List.range s.inLen.toNat).countP fun k => inByte s k == b := by
  rw [inBytes, List.count, List.countP_map]; rfl

/-- A byte occurs in the input where some position below IN_LEN holds it (R162). -/
theorem mem_inBytes {s : State} {b : Byte} : b ∈ inBytes s ↔ ∃ k, k < s.inLen.toNat ∧ inByte s k = b := by
  simp only [inBytes, List.mem_map, List.mem_range]

/-- IN_LEN is a word, so no count of FREQ_COUNT wraps (R161). -/
theorem length_inBytes_lt (s : State) : (inBytes s).length < 2 ^ 32 := by
  rw [length_inBytes]; exact s.inLen.isLt

/-- Settles O35: FREQ becomes the counts of the input bytes, and those are exact and sum to the length. -/
theorem freqCountCompletes : Obligations.FreqCountCompletes := by
  unfold Obligations.FreqCountCompletes
  intro s hlen
  have exact_counts : ∀ b, (freqAt (countBytes (inBytes s)) b).toNat = (inBytes s).count b :=
    toNat_countBytes (length_inBytes_lt s)
  refine ⟨countBytes (inBytes s), exec_done (i := .freqCount) (bodyFreqCount_done hlen), fun b => ?_, ?_, fun b => ?_⟩
  · rw [exact_counts, count_inBytes]
  · simp only [exact_counts]
    rw [sum_count_bytes, length_inBytes]
  · rw [countBytes_ne_zero (length_inBytes_lt s), mem_inBytes]

end Sys2Proof.Machine
end

section
namespace Sys2Proof.Machine

/-! ## TREE_BUILD (R180 to R188) -/

/-- Settles O36: EMPTY_INPUT is a precondition error, so its raise changes the report alone. -/
theorem treeBuildEmptyRaises : Obligations.TreeBuildEmptyRaises := by
  unfold Obligations.TreeBuildEmptyRaises
  intro s h
  rw [exec_raised (i := .treeBuild) (bodyTreeBuild_empty h), takeError_precondition s rfl]
  rfl

/-- What TREE_BUILD leaves where some symbol is present: `t` differs from `s` in the tree and its registers, the
cleared codes and the completion, and holds the weighed tree `tr` of the symbols present. -/
structure Built (s t : State) (tr : Tree) : Prop where
  frame     : t = { s with node := t.node, root := t.root, nodeCount := t.nodeCount, leafCount := t.leafCount,
                           treeBits := t.treeBits, treeValid := true, code := codeZero, codesValid := false,
                           done := true, busy := false, pending := none }
  present   : 1 ≤ (presentSymbols s.freq).length
  node      : t.node = (buildArena s.freq (presentSymbols s.freq)).1
  root      : t.root.toNat = 2 * (presentSymbols s.freq).length - 2
  leafCount : t.leafCount.toNat = (presentSymbols s.freq).length
  holds     : TreeHolds t tr
  symbols   : tr.symbols.Perm (presentSymbols s.freq)
  weighed   : Weighed s.freq t.node tr

/-- TREE_BUILD completes with a tree where some symbol is present (R180, R187). -/
theorem exec_treeBuild_built {s : State} (h : ∃ b, freqAt s.freq b ≠ 0) :
    ∃ t tr, exec .treeBuild s = .next t ∧ Built s t tr := by
  obtain ⟨b, hb⟩ := h
  obtain ⟨t, tr, body, frame, node, root, holds, symbols, weighed⟩ := bodyTreeBuild_done hb
  refine ⟨complete t, tr, exec_done body, ?_, ?_, node, root, ?_, holds.congr rfl rfl rfl rfl rfl, symbols, weighed⟩
  · rw [frame]; rfl
  · exact List.length_pos_of_mem ((mem_presentSymbols _ _).mpr hb)
  · rw [complete_leafCount, ← holds.count, ← tr.length_symbols, symbols.length_eq]

/-- Every answer of TREE_BUILD, where some symbol is present, is that completion. -/
theorem built_of_exec {s t : State} (h : ∃ b, freqAt s.freq b ≠ 0) (ht : exec .treeBuild s = .next t) :
    ∃ tr, Built s t tr := by
  obtain ⟨u, tr, hu, built⟩ := exec_treeBuild_built h
  cases ht.symm.trans hu
  exact ⟨tr, built⟩

/-! ### The registers and the tree (R187, R188) -/

theorem Built.nodeCount {s t : State} {tr : Tree} (h : Built s t tr) :
    t.nodeCount.toNat = 2 * (presentSymbols s.freq).length - 1 := by
  have nodes := h.holds.nodes
  rw [h.leafCount] at nodes
  omega

theorem Built.treeBits {s t : State} {tr : Tree} (h : Built s t tr) :
    t.treeBits.toNat = 10 * (presentSymbols s.freq).length - 1 := by
  have bits := h.holds.treeBits
  rw [h.leafCount] at bits
  omega

/-- ROOT is the index of the tree that the arena holds. -/
theorem TreeHolds.holdsTree {s : State} {t : Tree} (h : TreeHolds s t) :
    HoldsTree s.node t ∧ t.index = s.root.toNat ∧ t.levels ≤ 256 := currentTree_eq_some.mp h.reads

theorem Built.mem_symbols {s t : State} {tr : Tree} (h : Built s t tr) (b : Byte) :
    b ∈ tr.symbols ↔ freqAt s.freq b ≠ 0 := by
  rw [h.symbols.mem_iff, mem_presentSymbols]

/-- An internal node's frequency is the sum of its children's (R182, R186). -/
theorem Built.nfreq_sum {s t : State} {tr : Tree} (h : Built s t tr) {i : Nat} (hi : i < t.nodeCount.toNat)
    (hk : (nodeAt t.node i).kind = false) :
    (nodeAt t.node i).nfreq.toNat = (nodeAt t.node (childOf t.node i false)).nfreq.toNat +
      (nodeAt t.node (childOf t.node i true)).nfreq.toNat :=
  h.weighed.sum h.holds.holdsTree.1 ((h.holds.mem_indices i).mpr hi) hk

/-- Settles O37: the tree of the merge loop, the registers by the number of its leaves, and each frequency the sum
of two. -/
theorem treeBuildCompletes : Obligations.TreeBuildCompletes := by
  unfold Obligations.TreeBuildCompletes
  intro s hs
  obtain ⟨t, tr, ht, h⟩ := exec_treeBuild_built hs
  refine ⟨t, tr, ht, h.frame, h.root, h.nodeCount, h.leafCount, h.treeBits, h.holds,
    h.symbols.nodup_iff.mpr (nodup_presentSymbols _), h.mem_symbols, fun i d hi hk => ?_⟩
  rw [h.nfreq_sum hi hk]
  cases d
  · exact Nat.le_add_right _ _
  · exact Nat.le_add_left _ _

/-! ### The arena and its merges (R181 to R183) -/

/-- The symbols present stand in ascending order (R183). -/
theorem presentSymbols_ascending (f : FreqTable) : (presentSymbols f).Pairwise fun a b => a.toNat < b.toNat := by
  refine List.Pairwise.filter _ (List.pairwise_map.mpr ?_)
  refine List.pairwise_lt_range.imp_of_mem fun {x y} hx hy hxy => ?_
  rw [List.mem_range] at hx hy
  rwa [BitVec.toNat_ofNat, BitVec.toNat_ofNat, Nat.mod_eq_of_lt hx, Nat.mod_eq_of_lt hy]

theorem presentSymbols_ne_nil {f : FreqTable} (h : 1 ≤ (presentSymbols f).length) : presentSymbols f ≠ [] :=
  List.length_pos_iff.mp h

/-- The leaves come first, in the order of the symbols present (R183). -/
theorem Built.nodeAt_leaf {s t : State} {tr : Tree} (h : Built s t tr) {i : Nat}
    (hi : i < (presentSymbols s.freq).length) :
    nodeAt t.node i = leafNode (presentSymbols s.freq)[i] (freqAt s.freq (presentSymbols s.freq)[i]) := by
  rw [h.node]
  exact (buildArena_merging s.freq (length_presentSymbols _) (presentSymbols_ne_nil h.present)).2 i hi

/-- The n - 1 merges were right, and ROOT is what they have left (R182). -/
theorem Built.merging {s t : State} {tr : Tree} (h : Built s t tr) :
    Merging t.node (presentSymbols s.freq).length (2 * (presentSymbols s.freq).length - 1) [t.root.toNat] := by
  have hn := length_presentSymbols s.freq
  have hne := presentSymbols_ne_nil h.present
  rw [h.node, h.root, ← buildArena_root s.freq hn hne]
  exact (buildArena_merging s.freq hn hne).1

theorem Built.mergedAt {s t : State} {tr : Tree} (h : Built s t tr) {k : Nat}
    (hk : k + 1 < (presentSymbols s.freq).length) : MergedAt t.node (presentSymbols s.freq).length k :=
  h.merging.merged k (by omega)

/-- Settles O38: the leaves are put first, each merge writes the next entry, and nothing else is written. -/
theorem treeBuildArena : Obligations.TreeBuildArena := by
  unfold Obligations.TreeBuildArena
  intro s t hs ht
  obtain ⟨tr, h⟩ := built_of_exec hs ht
  refine ⟨presentSymbols_ascending _, mem_presentSymbols _, fun i hi => h.nodeAt_leaf hi, fun k hk => (h.mergedAt hk).node,
    fun i hi => h.holds.unused i ?_⟩
  rw [h.nodeCount]
  exact hi

/-- After the last merge ROOT alone has not been removed (R182). -/
theorem Built.inQueue_last {s t : State} {tr : Tree} (h : Built s t tr) (i : Nat) :
    inQueue t.node (presentSymbols s.freq).length ((presentSymbols s.freq).length - 1) i ↔ i = t.root.toNat := by
  have merges : 2 * (presentSymbols s.freq).length - 1 - (presentSymbols s.freq).length =
      (presentSymbols s.freq).length - 1 := by omega
  rw [← merges, ← h.merging.queue, List.mem_singleton]

/-- Settles O39: `MergedAt` of each merge, with the sum of R182. -/
theorem treeBuildMergesSmallestKeys : Obligations.TreeBuildMergesSmallestKeys := by
  unfold Obligations.TreeBuildMergesSmallestKeys
  rintro s t _ rfl hpos ht
  obtain ⟨b, hb⟩ := List.exists_mem_of_length_pos hpos
  obtain ⟨tr, h⟩ := built_of_exec ⟨b, (mem_presentSymbols _ _).mp hb⟩ ht
  refine ⟨?_, h.inQueue_last⟩
  rintro k _ _ hk rfl rfl
  obtain ⟨first, second, order, least, kind, -⟩ := h.mergedAt hk
  exact ⟨first, second, order, least, h.nfreq_sum (by rw [h.nodeCount]; omega) kind⟩

/-! ### Frequencies (R186) -/

/-- The root's frequency is the sum of FREQ (R186). -/
theorem Built.nfreq_root {s t : State} {tr : Tree} (h : Built s t tr) :
    (nodeAt t.node t.root.toNat).nfreq.toNat =
      ((List.range 256).map fun x => (freqAt s.freq (BitVec.ofNat 8 x)).toNat).sum := by
  rw [← h.holds.holdsTree.2.1, h.weighed.root, weigh_perm s.freq h.symbols, weigh_presentSymbols]

/-- Every node is the root of a tree in the arena whose leaves its frequency weighs (R186). -/
theorem Built.nfreq_subtree {s t : State} {tr : Tree} (h : Built s t tr) {i : Nat} (hi : i < t.nodeCount.toNat) :
    ∃ u, readTree t.node maxLevels i = some u ∧ (nodeAt t.node i).nfreq.toNat = weigh s.freq u.symbols := by
  obtain ⟨held, -, levels⟩ := h.holds.holdsTree
  obtain ⟨u, hu, rfl, hlevels, weighed⟩ := h.weighed.subtree held ((h.holds.mem_indices i).mpr hi)
  exact ⟨u, readTree_eq_some.mpr ⟨hu, rfl, hlevels.trans levels⟩, weighed.root⟩

/-- Settles O40: each node weighs its leaves, and FREQ_COUNT's counts sum to IN_LEN. -/
theorem treeBuildFrequenciesExact : Obligations.TreeBuildFrequenciesExact := by
  unfold Obligations.TreeBuildFrequenciesExact
  intro s t hs ht
  obtain ⟨tr, h⟩ := built_of_exec hs ht
  refine ⟨fun i hi => h.nfreq_subtree hi, h.nfreq_root, fun u hlen hu => ?_⟩
  obtain ⟨f, hf, -, total, -⟩ := freqCountCompletes u hlen
  cases hu.symm.trans hf
  rw [h.nfreq_root, total]

/-! ### One symbol (R184, R202) -/

theorem presentSymbols_eq_singleton {f : FreqTable} {b : Byte} (h : ∀ a, freqAt f a ≠ 0 ↔ a = b) :
    presentSymbols f = [b] :=
  List.perm_singleton.mp ((List.perm_ext_iff_of_nodup (nodup_presentSymbols f) (List.nodup_singleton b)).mpr fun a => by
    rw [mem_presentSymbols, h, List.mem_singleton])

/-- A tree with one leaf symbol is that leaf: a node has a leaf on each side. -/
theorem Tree.eq_leaf_of_symbols {t : Tree} {b : Byte} (h : t.symbols = [b]) : t = .leaf t.index b := by
  cases t with
  | leaf i a => rw [List.singleton_inj.mp h]; rfl
  | node i l r =>
    have count := congrArg List.length h
    have hl := l.leaves_pos
    have hr := r.leaves_pos
    simp only [Tree.length_symbols, Tree.leaves, List.length_singleton] at count
    omega

/-- The codes of a single leaf: `0` for its symbol, none for any other (R202). -/
theorem codeAt_walkCodes_leaf (i : Nat) (b a : Byte) :
    codeAt (walkCodes (.leaf i b) [] codeZero) a =
      if a = b then { len := 1, bits := [false] } else { len := 0, bits := [] } := by
  rw [walkCodes, codeAt_codePut, codeAt_codeZero]
  rfl

/-- Settles O41: the tree of one symbol is a leaf, and the walk of CODE_GEN comes to it with the empty path. -/
theorem singleSymbolGetsOneBit : Obligations.SingleSymbolGetsOneBit := by
  unfold Obligations.SingleSymbolGetsOneBit
  intro s b hb
  have one := presentSymbols_eq_singleton hb
  obtain ⟨t, tr, ht, h⟩ := exec_treeBuild_built ⟨b, (hb b).mpr rfl⟩
  have leaf := h.nodeAt_leaf (i := 0) h.present
  have hroot := h.root
  have hnodes := h.nodeCount
  have hleaves := h.leafCount
  have hbits := h.treeBits
  have htr := h.symbols
  simp only [one, List.length_singleton, List.getElem_singleton] at leaf hroot hnodes hleaves hbits htr
  have hvalid : t.treeValid = true := by rw [h.frame]
  have codes := codeAt_walkCodes_leaf tr.index b
  rw [← Tree.eq_leaf_of_symbols (List.perm_singleton.mp htr)] at codes
  exact ⟨t, _, ht, exec_done (i := .codeGen) (bodyCodeGen_done hvalid h.holds.reads), leaf,
    BitVec.eq_of_toNat_eq hroot, BitVec.eq_of_toNat_eq hnodes, BitVec.eq_of_toNat_eq hleaves, BitVec.eq_of_toNat_eq hbits,
    (codes b).trans (if_pos rfl), fun a ha => (codes a).trans (if_neg ha)⟩

end Sys2Proof.Machine
end

section
namespace Sys2Proof.Machine

/-! ## CODE_GEN (R200 to R206) -/

/-- CODE_GEN of a tree completes with the table of the walk (R200). -/
theorem exec_codeGen_tree {s : State} {t : Tree} (hv : s.treeValid = true) (ht : currentTree s = some t) :
    exec .codeGen s = .next { s with code := walkCodes t [] codeZero, codesValid := true, done := true,
                                     busy := false, pending := none } :=
  exec_done (i := .codeGen) (bodyCodeGen_done hv ht)

/-- Settles O42: NO_TREE is a precondition error; on a tree the last leaf's path decides a symbol's entry, by whether
there is such a leaf and whether it is the root. -/
theorem codeGenCompletes : Obligations.CodeGenCompletes := by
  unfold Obligations.CodeGenCompletes
  refine fun s => ⟨fun hv => ?_, fun tr hv htr => ⟨walkCodes tr [] codeZero, exec_codeGen_tree hv htr, fun b => ?_⟩⟩
  · have body : bodyOf .codeGen s = .raised .noTree s := if_neg (by simp [hv])
    rw [exec_raised body, takeError_precondition s rfl]
    rfl
  · obtain ⟨-, -, levels⟩ := currentTree_eq_some.mp htr
    have entry := codeAt_walkCodes_lastPath tr [] codeZero b
    rcases walkCodes_entry levels b with ⟨noLeaf, zero⟩ | ⟨path, lastLeaf, -, bits, len⟩
    · rw [noLeaf]
      exact zero
    · rw [lastLeaf] at entry ⊢
      cases path with
      | nil => exact entry
      | cons d ds => exact ⟨bits, len⟩

/-- The walk gives a code to the leaf symbols and to no other (R51, R201). -/
theorem len_walkCodes_pos {t : Tree} (hl : t.levels ≤ 256) (b : Byte) :
    0 < (codeAt (walkCodes t [] codeZero) b).len.toNat ↔ b ∈ t.symbols := by
  refine ⟨fun coded => ?_, fun leaf => Nat.pos_of_ne_zero fun e => walkCodes_coded hl leaf (BitVec.eq_of_toNat_eq e)⟩
  obtain ⟨path, leads, -⟩ := coded_walkCodes hl coded
  exact Tree.follow_mem leads

/-- Settles O43: the symbols coded are the tree's leaf symbols, and TREE_BUILD gave those with FREQ ≠ 0 a leaf. -/
theorem builtCodesComplete : Obligations.BuiltCodesComplete := by
  unfold Obligations.BuiltCodesComplete
  intro s hs
  obtain ⟨t, tr, ht, h⟩ := exec_treeBuild_built hs
  obtain ⟨-, -, levels⟩ := h.holds.holdsTree
  have valid : t.treeValid = true := by rw [h.frame]
  exact ⟨t, _, ht, exec_codeGen_tree valid h.holds.reads, fun b => (len_walkCodes_pos levels b).trans (h.mem_symbols b)⟩

end Sys2Proof.Machine
end

section
namespace Sys2Proof.Machine

/-! ## TREE_LOAD (R222 to R229) and DECOMPRESS of its tree (R313) -/

/-- A number below `2 ^ w` is kept by a field of `w` bits. -/
theorem toNat_ofNat_of_lt {w n : Nat} (h : n < 2 ^ w) : (BitVec.ofNat w n).toNat = n := by
  rw [BitVec.toNat_ofNat, Nat.mod_eq_of_lt h]

/-- A tree that fits the arena serializes to fewer digits than a word counts (R137). -/
theorem length_serialize_lt {t : Tree} (h : t.size ≤ 511) : (serialize t).length < 2 ^ 32 := by
  have digits := length_serialize t
  have nodes := t.size_leaves
  omega

/-- Settles O46: the parse rebuilds an alike tree, and alike trees have the same symbols and serialization. -/
theorem treeLoadCompletes : Obligations.TreeLoadCompletes := by
  unfold Obligations.TreeLoadCompletes
  intro s tr rest hlen hs hsize
  obtain ⟨t, u, body, frame, holds, alike, indices, nfreq⟩ := bodyTreeLoad_done hlen hs hsize
  have digits := length_serialize_lt hsize
  have nodes := tr.size_leaves
  refine ⟨complete t, u, exec_done body, ?_, holds.congr rfl rfl rfl rfl rfl, alike, (Tree.symbols_alike alike).symm,
    indices, (serialize_alike alike).symm, ?_, ?_, ?_, ?_, nfreq⟩
  · rw [frame]; rfl
  · rw [complete_bitpos, frame]; exact toNat_ofNat_of_lt digits
  · rw [complete_treeBits, frame]; exact toNat_ofNat_of_lt digits
  · rw [complete_nodeCount, frame]; exact toNat_ofNat_of_lt (by omega)
  · rw [complete_leafCount, frame]; exact toNat_ofNat_of_lt (by omega)

/-- Settles O47: a raise clears TREE_VALID, so TREE_LOAD has ended with the tree that its parse read. -/
theorem loadedTreeWasSpelled : Obligations.LoadedTreeWasSpelled := by
  unfold Obligations.LoadedTreeWasSpelled
  intro s t hlen ht hvalid
  rcases bodyTreeLoad_cases s with ⟨tooLong, -⟩ | ⟨-, c, body, cause⟩ | ⟨-, v, u, rest, body, -, holds, spelled, bitpos⟩
  · exact absurd hlen (Nat.not_le.mpr tooLong)
  · cases ht.symm.trans (exec_raised (i := .treeLoad) body)
    rcases cause with rfl | ⟨p, rfl⟩ <;> cases hvalid
  · cases ht.symm.trans (exec_done (i := .treeLoad) body)
    have fits : u.size ≤ 511 := by
      have nodes := u.size_leaves
      have leaves := holds.count.trans_le holds.atMost
      omega
    refine ⟨u, rest, holds.congr rfl rfl rfl rfl rfl, spelled, ?_⟩
    rw [complete_bitpos, bitpos]
    exact toNat_ofNat_of_lt (length_serialize_lt fits)

/-- A parse error ends TREE_LOAD by a raise of class tree data: the tree and the codes cleared, OUT_LEN 0 (R349). -/
theorem exec_treeLoad_error {s : State} {c : Cause} (hlen : s.inLen.toNat ≤ s.cfg.inCap)
    (parsed : parseStream (inStream s) = .error c) (cls : c.cls = .treeData) :
    exec .treeLoad s = .next (raisedWith c.code c.pos
      { s with node := arenaZero, root := 0, nodeCount := 0, leafCount := 0, treeBits := 0, treeValid := false,
               code := codeZero, codesValid := false, outLen := 0 }) := by
  have body : bodyTreeLoad s = .raised c (clearTree s) := by
    rw [bodyTreeLoad, if_pos ((inLenOk_iff s).mpr hlen), parsed]
  rw [exec_raised (i := .treeLoad) body, takeError_treeData _ cls]
  rfl

/-- Settles O48: the parse from the empty arena runs out of digits before it comes to a 512th tag. -/
theorem treeLoadTruncatedRaises : Obligations.TreeLoadTruncatedRaises := by
  unfold Obligations.TreeLoadTruncatedRaises
  intro s tr missing hlen hmissing hs htags
  have parsed : parseStream (inStream s) = .error (.corruptTree (8 * s.inLen.toNat)) := by
    rw [← length_inStream]
    exact parse_truncated _ hmissing hs (by simpa [Tree.tagsBefore] using htags) (Nat.le_refl 512)
  exact exec_treeLoad_error hlen parsed rfl

/-- Settles O49: the parse from the empty arena comes to the tag of node 511 with 511 nodes made. -/
theorem treeLoadTooLargeRaises : Obligations.TreeLoadTooLargeRaises := by
  unfold Obligations.TreeLoadTooLargeRaises
  intro s tr x y p hlen hs htag hp
  have parsed : parseStream (inStream s) = .error (.treeTooLarge (0 + p)) :=
    parse_tooLarge _ hs htag (by rwa [length_inStream]) (Nat.zero_le 511) (Nat.le_refl 512)
  rw [Nat.zero_add] at parsed
  exact exec_treeLoad_error hlen parsed rfl

/-- Settles O57: TREE_LOAD leaves an alike tree, which the code words lead through to the same symbols. -/
theorem decompressCompletes : Obligations.DecompressCompletes := by
  unfold Obligations.DecompressCompletes
  intro s tr c ps hlen hsize hc hs hps hn
  obtain ⟨t, u, n, k, l, body, frame, holds, alike⟩ := bodyDecompress_words hlen hsize hc hs hps hn
  refine ⟨complete t, u, exec_done body, ?_, holds.congr rfl rfl rfl rfl rfl, alike, outHolds_putAll _ ?_ ?_⟩
  · rw [frame]; rfl
  · rw [complete_outBuf, frame]
  · rw [complete_epoch, frame]; rfl

end Sys2Proof.Machine
end

section
namespace Sys2Proof.Machine

/-! ## The order of bits (R251, R252, R260, R262) -/

/-- Entry k of the input bytes is IN[k] (R52). -/
theorem getD_inBytes {s : State} {k : Nat} (h : k < s.inLen.toNat) (d : Byte) : (inBytes s).getD k d = inByte s k := by
  rw [List.getD_eq_getElem _ _ (by rwa [length_inBytes])]
  simp only [inBytes, List.getElem_map, List.getElem_range]

/-- Digit k of the unpacked stream is `bitof(k)` (R262). -/
theorem getElem?_inStream {s : State} {k : Nat} (h : k < 8 * s.inLen.toNat) : (inStream s)[k]? = some (bitof s k) := by
  rw [inStream, getElem_unpack _ _ (by rwa [length_inBytes]), getD_inBytes (by omega), bitof]

/-- Settles O7: the laws of `pad`, `pack` and `unpack`, the last read through IN. -/
theorem streamBitOrder : Obligations.StreamBitOrder := by
  unfold Obligations.StreamBitOrder
  refine ⟨fun t p => ⟨rfl, pad_le t p, pad_aligns t p⟩, fun S m hS => ⟨?_, getD_pack S m hS⟩,
    fun s => ⟨length_inStream s, ?_⟩⟩
  · rw [length_pack, hS, Nat.mul_div_cancel_left m (by decide)]
  · exact fun k hk => ⟨getElem?_inStream hk, rfl⟩

/-! ## The checks of EMIT (R254) -/

/-- A property of every input byte is one of IN[k] for every k below IN_LEN. -/
theorem forall_mem_inBytes {s : State} {P : Byte → Prop} :
    (∀ b ∈ inBytes s, P b) ↔ ∀ k, k < s.inLen.toNat → P (inByte s k) := by
  simp only [inBytes, List.forall_mem_map, List.mem_range]

/-- The payload fails at the first input byte that has no code (R250). -/
theorem payload_uncoded {s : State} {k : Nat} (hk : k < s.inLen.toNat) (uncoded : (codeAt s.code (inByte s k)).len = 0)
    (before : ∀ j, j < k → (codeAt s.code (inByte s j)).len ≠ 0) : payload s = .error (.uncodedSymbol k) := by
  rcases payloadFrom_cases s.code 0 (inBytes s) with ⟨coded, -⟩ | ⟨j, hj, failed, uncoded', before'⟩
  · exact absurd uncoded (forall_mem_inBytes.mp coded k hk)
  · rw [length_inBytes] at hj
    rw [getD_inBytes hj] at uncoded'
    rcases Nat.lt_trichotomy j k with hlt | rfl | hgt
    · exact absurd uncoded' (before j hlt)
    · rwa [Nat.zero_add] at failed
    · have coded := before' k hgt
      rw [getD_inBytes hk] at coded
      exact absurd uncoded coded

theorem bodyEmit_noTree {s : State} (hlen : s.inLen.toNat ≤ s.cfg.inCap) (hv : s.treeValid = false) :
    bodyEmit s = .raised .noTree s := by
  rw [bodyEmit, if_pos ((inLenOk_iff s).mpr hlen), if_neg (by simp [hv])]

theorem bodyEmit_noCodes {s : State} (hlen : s.inLen.toNat ≤ s.cfg.inCap) (hv : s.treeValid = true)
    (hc : s.codesValid = false) : bodyEmit s = .raised .noCodes s := by
  rw [bodyEmit, if_pos ((inLenOk_iff s).mpr hlen), if_pos hv, if_neg (by simp [hc])]

/-- Past the first three checks, EMIT ends by the error its payload meets. -/
theorem bodyEmit_payloadError {s : State} {tr : Tree} {e : Cause} (hlen : s.inLen.toNat ≤ s.cfg.inCap)
    (hv : s.treeValid = true) (hc : s.codesValid = true) (ht : currentTree s = some tr) (hp : payload s = .error e) :
    bodyEmit s = .raised e s := by
  rw [bodyEmit, if_pos ((inLenOk_iff s).mpr hlen), if_pos hv, if_pos hc, ht]
  simp only [hp]

/-- A precondition error of EMIT changes only the report (R347). -/
theorem exec_emit_precondition {s : State} {c : Cause} (body : bodyEmit s = .raised c s) (cls : c.cls = .precondition) :
    exec .emit s = .next (raisedWith c.code c.pos s) := by
  rw [exec_raised (i := .emit) body, takeError_precondition s cls]

/-- A data error of EMIT also zeroes OUT_LEN, PAD_COUNT and PAYLOAD_BITS (R348). -/
theorem exec_emit_dataError {s : State} {c : Cause} (body : bodyEmit s = .raised c s) (cls : c.cls = .emitData) :
    exec .emit s = .next (raisedWith c.code c.pos { s with outLen := 0, padCount := 0, payloadBits := 0 }) := by
  rw [exec_raised (i := .emit) body, takeError_emitData s cls]

/-- Settles O45: each check is reached where the ones before it pass, and its class says what the raise changes. -/
theorem emitCheckOrder : Obligations.EmitCheckOrder := by
  unfold Obligations.EmitCheckOrder
  intro s
  refine ⟨inputTooLongRaises .emit s (by decide), fun hlen hv => ?_, fun hlen hv hc => ?_,
    fun tr hlen hv hc ht => ⟨fun k hk uncoded before => ?_, fun coded hover => ?_⟩⟩
  · exact exec_emit_precondition (bodyEmit_noTree hlen hv) rfl
  · exact exec_emit_precondition (bodyEmit_noCodes hlen hv hc) rfl
  · exact exec_emit_dataError (bodyEmit_payloadError hlen hv hc ht (payload_uncoded hk uncoded before)) rfl
  · rw [streamBytes_eq] at hover
    have body := bodyEmit_stream hlen hv hc ht (forall_mem_inBytes.mpr coded)
    rcases emitStream_cases (serialize tr) (payloadOf s) s with ⟨-, raised⟩ | ⟨hfit, -⟩
    · exact exec_emit_dataError (body.trans raised) rfl
    · exact absurd hover (Nat.not_lt.mpr hfit)

/-! ## The results of EMIT (R255) -/

/-- What EMIT leaves where the stream of `tree` and `p` fits OUT (R253). -/
def afterEmit (tree p : Bits) (s : State) : State :=
  complete { s with
    outBuf := Memory.putAll s.outBuf 0 (pack (streamOf tree p))
    outLen := BitVec.ofNat 32 ((streamOf tree p).length / 8)
    treeBits := BitVec.ofNat 32 tree.length
    padCount := BitVec.ofNat 3 (pad tree.length p.length)
    payloadBits := BitVec.ofNat 32 p.length }

/-- EMIT where the five checks of R254 pass. -/
theorem exec_emit_fits {s : State} {tr : Tree} (hlen : s.inLen.toNat ≤ s.cfg.inCap) (hv : s.treeValid = true)
    (hc : s.codesValid = true) (ht : currentTree s = some tr) (coded : ∀ b ∈ inBytes s, (codeAt s.code b).len ≠ 0)
    (hfit : (streamOf (serialize tr) (payloadOf s)).length / 8 ≤ s.cfg.outCap) :
    exec .emit s = .next (afterEmit (serialize tr) (payloadOf s) s) := by
  have body := bodyEmit_stream hlen hv hc ht coded
  rcases emitStream_cases (serialize tr) (payloadOf s) s with ⟨hover, -⟩ | ⟨-, done⟩
  · exact absurd hover (Nat.not_lt.mpr hfit)
  · exact exec_done (body.trans done)

theorem outHolds_afterEmit (tree p : Bits) (s : State) : OutHolds s (afterEmit tree p s) (pack (streamOf tree p)) :=
  outHolds_putAll _ rfl rfl

/-- OUT_CAP is at most 2^28, so every length of a stream that fits is below what its register counts (R255). -/
theorem afterEmit_lengths {tree p : Bits} {s : State} (hfit : (streamOf tree p).length / 8 ≤ s.cfg.outCap) :
    (afterEmit tree p s).outLen.toNat = (streamOf tree p).length / 8 ∧
    (afterEmit tree p s).treeBits.toNat = tree.length ∧
    (afterEmit tree p s).padCount.toNat = pad tree.length p.length ∧
    (afterEmit tree p s).payloadBits.toNat = p.length := by
  have hcap := outCap_le s.cfg
  have hpad := pad_le tree.length p.length
  have digits := length_streamOf tree p
  exact ⟨toNat_ofNat_of_lt (by omega), toNat_ofNat_of_lt (by omega), toNat_ofNat_of_lt (by omega),
    toNat_ofNat_of_lt (by omega)⟩

/-- A packed stream in OUT is read off bit by bit (R252). -/
theorem OutHolds.getLsbD_pack {s t : State} {S : Bits} (h : OutHolds s t (pack S)) (aligned : S.length % 8 = 0) {k b : Nat}
    (hk : k < S.length / 8) (hb : b < 8) : (outByte t k).getLsbD (7 - b) = S.getD (8 * k + b) false := by
  have hk' : k < (pack S).length := by rwa [length_pack]
  rw [h k, dif_pos hk', ← List.getD_eq_getElem _ 0 hk', getD_pack S (S.length / 8) (by omega) k b hk hb]

/-- Writing a packed stream leaves OUT alone from its length on (R255). -/
theorem OutHolds.outByte_beyond_pack {s t : State} {S : Bits} (h : OutHolds s t (pack S)) {k : Nat}
    (hk : S.length / 8 ≤ k) : outByte t k = outByte s k := by
  rw [h k, dif_neg (by rw [length_pack]; omega)]

/-- Settles O44: OUT holds the packed stream, and the four registers its lengths, which R251 aligns. -/
theorem emitCompletes : Obligations.EmitCompletes := by
  unfold Obligations.EmitCompletes
  rintro s tr T P S c hlen hv hc ht coded rfl rfl rfl hS hfit
  obtain rfl : S = streamOf (serialize tr) (payloadOf s) := hS
  have out := outHolds_afterEmit (serialize tr) (payloadOf s) s
  have aligned := streamOf_aligned (serialize tr) (payloadOf s)
  have digits := length_streamOf (serialize tr) (payloadOf s)
  obtain ⟨outLen, treeBits, padCount, payloadBits⟩ := afterEmit_lengths hfit
  refine ⟨_, exec_emit_fits hlen hv hc ht coded hfit, rfl, fun k b hk hb => out.getLsbD_pack aligned hk hb,
    fun k hk => out.outByte_beyond_pack hk, outLen, treeBits, padCount, payloadBits, ?_⟩
  rw [outLen, treeBits, padCount, payloadBits]
  omega

end Sys2Proof.Machine
end

section
namespace Sys2Proof.Machine

/-! ## The checks of DECODE_PAYLOAD (R281, R282) -/

/-- Fewer than 8 digits are no pad field (R281). -/
theorem readPadding_noField {p : Nat} {bits : Bits} (short : bits.length < 8) :
    readPadding p bits = .error (.badPadding p) := by
  rw [readPadding, splitBits_of_gt short]

/-- A pad field above 7 is refused at its first digit (R281). -/
theorem readPadding_tooLarge {p : Nat} {bits : Bits} (field : 8 ≤ bits.length) (large : 7 < val (bits.take 8)) :
    readPadding p bits = .error (.badPadding p) := by
  rw [readPadding, splitBits_of_le field]
  exact if_pos large

/-- Fewer pad bits than the field says are refused at the first of them (R282). -/
theorem readPadding_tooFew {p : Nat} {bits : Bits} (field : 8 ≤ bits.length) (small : val (bits.take 8) ≤ 7)
    (few : bits.length < 8 + val (bits.take 8)) : readPadding p bits = .error (.badPadding (p + 8)) := by
  have few' : (bits.drop 8).length < val (bits.take 8) := by rw [List.length_drop]; omega
  rw [readPadding, splitBits_of_le field]
  exact (if_neg (Nat.not_lt.mpr small)).trans (if_pos few')

/-- The pad bits are refused at the first 1 among them (R282). -/
theorem skipPad_firstOne {k j p : Nat} {bits : Bits} (hj : j < k) (one : bits[j]? = some true)
    (before : ∀ i, i < j → bits[i]? = some false) : skipPad k p bits = .error (.badPadding (p + j)) := by
  induction bits generalizing k j p with
  | nil => simp at one
  | cons b bs ih =>
    obtain ⟨k, rfl⟩ := Nat.exists_eq_add_one.mpr (Nat.zero_lt_of_lt hj)
    cases j with
    | zero =>
      obtain rfl : b = true := by simpa using one
      rfl
    | succ j =>
      obtain rfl : b = false := by simpa using before 0 (Nat.succ_pos j)
      have rest : skipPad k (p + 1) bs = .error (.badPadding (p + 1 + j)) :=
        ih (by omega) (by simpa using one) fun i hi => by simpa using before (i + 1) (by omega)
      rw [skipPad, if_neg Bool.false_ne_true, rest, Nat.add_right_comm, Nat.add_assoc]

/-- A pad field of at most 7 with a 1 among its pad bits is refused at the first such bit (R282). -/
theorem readPadding_padBitOne {p j : Nat} {bits : Bits} (small : val (bits.take 8) ≤ 7)
    (enough : 8 + val (bits.take 8) ≤ bits.length) (hj : j < val (bits.take 8)) (one : bits[8 + j]? = some true)
    (before : ∀ i, i < j → bits[8 + i]? = some false) :
    readPadding p bits = .error (.badPadding (p + 8 + j)) := by
  have enough' : ¬(bits.drop 8).length < val (bits.take 8) := by rw [List.length_drop]; omega
  have skipped : skipPad (val (bits.take 8)) (p + 8) (bits.drop 8) = .error (.badPadding (p + 8 + j)) :=
    skipPad_firstOne hj (by rwa [List.getElem?_drop]) fun i hi => by rw [List.getElem?_drop]; exact before i hi
  rw [readPadding, splitBits_of_le (by omega)]
  simp only [skipped]
  rw [if_neg (Nat.not_lt.mpr small), if_neg enough']

theorem bodyDecodePayload_noTree {s : State} (hlen : s.inLen.toNat ≤ s.cfg.inCap) (hv : s.treeValid = false) :
    bodyDecodePayload s = .raised .noTree s := by
  rw [bodyDecodePayload, if_pos ((inLenOk_iff s).mpr hlen), if_neg (by simp [hv])]

theorem bodyDecodePayload_beyond {s : State} (hlen : s.inLen.toNat ≤ s.cfg.inCap) (hv : s.treeValid = true)
    (beyond : 8 * s.inLen.toNat < s.bitpos.toNat) : bodyDecodePayload s = .raised (.badLength s.bitpos) s := by
  rw [bodyDecodePayload, if_pos ((inLenOk_iff s).mpr hlen), if_pos hv, if_pos beyond]

/-- A precondition error of DECODE_PAYLOAD changes only the report (R347). -/
theorem exec_decodePayload_precondition {s : State} {c : Cause} (body : bodyDecodePayload s = .raised c s)
    (cls : c.cls = .precondition) : exec .decodePayload s = .next (raisedWith c.code c.pos s) := by
  rw [exec_raised (i := .decodePayload) body, takeError_precondition s cls]

/-- An error in the padding is raised before the walk, so OUT is as before (R350). -/
theorem exec_decodePayload_badPadding {s : State} {pos : Nat} (hlen : s.inLen.toNat ≤ s.cfg.inCap)
    (hv : s.treeValid = true) (hp : s.bitpos.toNat ≤ 8 * s.inLen.toNat)
    (padding : readPadding s.bitpos.toNat ((inStream s).drop s.bitpos.toNat) = .error (.badPadding pos)) :
    exec .decodePayload s =
      .next (raisedWith 8 (BitVec.ofNat 32 pos) { s with outLen := 0, padCount := 0, payloadBits := 0 }) := by
  have body : bodyDecodePayload s = .raised (.badPadding pos) s := by
    rw [bodyDecodePayload, if_pos ((inLenOk_iff s).mpr hlen), if_pos hv, if_neg (Nat.not_lt.mpr hp), padding]
  rw [exec_raised (i := .decodePayload) body, takeError_decodeData s rfl]
  rfl

/-- Digit k from BITPOS on is `bitof(BITPOS + k)` (R262). -/
theorem getElem?_inStream_drop {s : State} {p k : Nat} (h : p + k < 8 * s.inLen.toNat) :
    ((inStream s).drop p)[k]? = some (bitof s (p + k)) := by
  rw [List.getElem?_drop, getElem?_inStream h]

/-- Settles O51: each check is reached where the ones before it pass, and none of them has written to OUT. -/
theorem decodeChecksRaise : Obligations.DecodeChecksRaise := by
  unfold Obligations.DecodeChecksRaise
  rintro s L p c bad hlen rfl rfl rfl rfl
  have digits : ((inStream s).drop s.bitpos.toNat).length = 8 * s.inLen.toNat - s.bitpos.toNat := by
    rw [List.length_drop, length_inStream]
  refine ⟨fun hv => ?_, fun hv => ⟨fun beyond => ?_, fun hp short => ?_, fun field large => ?_,
    fun field small few => ?_, fun j small enough hj one before => ?_⟩⟩
  · exact exec_decodePayload_precondition (bodyDecodePayload_noTree hlen hv) rfl
  · exact exec_decodePayload_precondition (bodyDecodePayload_beyond hlen hv beyond) rfl
  · exact exec_decodePayload_badPadding hlen hv hp (readPadding_noField (by omega))
  · exact exec_decodePayload_badPadding hlen hv (by omega) (readPadding_tooLarge (by omega) large)
  · exact exec_decodePayload_badPadding hlen hv (by omega) (readPadding_tooFew (by omega) small (by omega))
  · refine exec_decodePayload_badPadding hlen hv (by omega) (readPadding_padBitOne small (by omega) hj ?_ fun i hi => ?_)
    · rw [getElem?_inStream_drop (by omega), ← Nat.add_assoc, one]
    · rw [getElem?_inStream_drop (by omega), ← Nat.add_assoc, before i hi]

/-! ## The walk of DECODE_PAYLOAD over code words (R283 to R287) -/

/-- Where the walk stands behind the code words `ps`: at the root, with their symbols written from OUT[0] on. -/
def afterWords (s : State) (ps : List (Byte × Bits)) : Walker :=
  { cur := s.root.toNat, n := ps.length, out := Memory.putAll s.outBuf 0 (ps.map Prod.fst) }

/-- Settles O50: the walk ends behind the last code word, with their symbols in OUT. -/
theorem decodePayloadCompletes : Obligations.DecodePayloadCompletes := by
  unfold Obligations.DecodePayloadCompletes
  intro s tr c ps hlen hv ht hp hc hs hps hn
  have body := (bodyDecodePayload_start hlen hv hp hc hs).trans (decodeFrom_words c _ ht hps hn)
  exact ⟨_, exec_done (i := .decodePayload) body, rfl, outHolds_putAll _ rfl rfl⟩

/-- Where the walk stops with an error behind the code words `ps`, DECODE_PAYLOAD raises it, with their symbols in
OUT (R345, R350). -/
theorem exec_decodePayload_stops {s : State} {tr : Tree} {c : Nat} {ps : List (Byte × Bits)} {rest : Bits} {e : Cause}
    (hlen : s.inLen.toNat ≤ s.cfg.inCap) (hv : s.treeValid = true) (ht : currentTree s = some tr)
    (hp : s.bitpos.toNat ≤ 8 * s.inLen.toNat) (hc : c ≤ 7)
    (hs : (inStream s).drop s.bitpos.toNat = bin8 (BitVec.ofNat 8 c) ++ zeros c ++ (wordsOf ps ++ rest))
    (hps : ∀ q ∈ ps, tr.follow q.2 = some q.1) (hn : ps.length ≤ s.cfg.outCap) (cls : e.cls = .decodeData)
    (stops : ∃ i, walkPayload s.node s.root.toNat s.cfg.outCap rest (s.bitpos.toNat + 8 + c + (wordsOf ps).length)
      (afterWords s ps) = ({ afterWords s ps with cur := i }, some e)) :
    ∃ t, exec .decodePayload s = .next t ∧
      t = raisedWith e.code e.pos { s with outBuf := t.outBuf, outLen := 0, padCount := 0, payloadBits := 0 } ∧
      OutHolds s t (ps.map Prod.fst) := by
  obtain ⟨i, stops⟩ := stops
  have body := (bodyDecodePayload_start hlen hv hp hc hs).trans
    (decodeFrom_raised ((walk_words (s.bitpos.toNat + 8 + c) ht hps hn).trans stops))
  refine ⟨_, exec_raised (i := .decodePayload) body, ?_⟩
  rw [takeError_decodeData _ cls]
  exact ⟨rfl, outHolds_putAll _ rfl rfl⟩

/-- A root leaf is the current tree (R49). -/
theorem currentTree_rootLeaf {s : State} (hk : (nodeAt s.node s.root.toNat).kind = true) :
    currentTree s = some (.leaf s.root.toNat (nodeAt s.node s.root.toNat).sym) :=
  currentTree_eq_some.mpr ⟨⟨hk, rfl⟩, rfl, by simp [Tree.levels]⟩

/-- `n` digits 0 are `n` code words of a single leaf (R202). -/
theorem wordsOf_replicate_leaf (n : Nat) (b : Byte) : wordsOf (List.replicate n (b, [])) = zeros n := by
  induction n with
  | zero => rfl
  | succ n ih => rw [List.replicate_succ, wordsOf, List.flatMap_cons, ← wordsOf, ih, leafCode_nil]; rfl

/-- At a root leaf, a digit 1 leads nowhere (R284). -/
theorem walkPayload_invalidBranch {a : Arena} {root cap : Nat} (hk : (nodeAt a root).kind = true) (rest : Bits) (p : Nat)
    (w : Walker) : walkPayload a root cap (true :: rest) p w = (w, some (.invalidBranch p)) := by
  rw [walkPayload, if_pos hk, if_pos rfl]

/-- Settles O52: the n digits 0 are n code words of the single leaf, and the digit 1 behind them stops the walk. -/
theorem decodeInvalidBranchRaises : Obligations.DecodeInvalidBranchRaises := by
  unfold Obligations.DecodeInvalidBranchRaises
  intro s c n rest hlen hv hp hc hk hn hs
  rw [← wordsOf_replicate_leaf n (nodeAt s.node s.root.toNat).sym] at hs
  have raised := exec_decodePayload_stops hlen hv (currentTree_rootLeaf hk) hp hc hs
    (fun q hq => by rw [List.eq_of_mem_replicate hq]; rfl) (by rwa [List.length_replicate]) rfl
    ⟨s.root.toNat, walkPayload_invalidBranch hk rest _ _⟩
  rwa [wordsOf_replicate_leaf, length_zeros, List.map_replicate] at raised

/-- With OUT full, the walk over one code word ends in OUT_OVERFLOW at its last digit (R285), also on a single leaf. -/
theorem walkPayload_word_overflow {a : Arena} {root cap : Nat} {t : Tree} (ht : HoldsTree a t) (hroot : t.index = root)
    {b : Byte} {d : Bits} (hd : t.follow d = some b) (rest : Bits) (p : Nat) (w : Walker) (hcur : w.cur = root)
    (hn : w.n = cap) :
    ∃ i, walkPayload a root cap (leafCode d ++ rest) p w =
      ({ w with cur := i }, some (.decodeOverflow (p + (leafCode d).length - 1))) := by
  cases t with
  | leaf i v =>
    cases d with
    | cons x d => simp [Tree.follow] at hd
    | nil =>
      have hk : (nodeAt a root).kind = true := hroot ▸ ht.1
      refine ⟨w.cur, ?_⟩
      rw [leafCode_nil, List.singleton_append, walkPayload, if_pos hk, if_neg Bool.false_ne_true, emitByte, if_pos hn]
      rfl
  | node i l r =>
    have hdne : d ≠ [] := by rintro rfl; simp [Tree.follow] at hd
    rw [leafCode_of_ne hdne]
    exact walkPayload_overflow (hroot ▸ ht.1) hd hdne ht rest p w (hcur.trans hroot.symm) hn

/-- Settles O53: behind OUT_CAP code words OUT is full, and the next one cannot write its symbol. -/
theorem decodeOverflowRaises : Obligations.DecodeOverflowRaises := by
  unfold Obligations.DecodeOverflowRaises
  intro s tr c ps q rest hlen hv ht hp hc hs hps hn
  obtain ⟨holds, index, -⟩ := currentTree_eq_some.mp ht
  obtain ⟨before, last⟩ := List.forall_mem_append.mp hps
  have word : wordsOf [q] = leafCode q.2 := List.append_nil _
  refine exec_decodePayload_stops (e := .decodeOverflow _) hlen hv ht hp hc hs before hn.le rfl ?_
  rw [word]
  exact walkPayload_word_overflow holds index (last q (List.mem_singleton_self q)) rest _ _ rfl hn

/-- Settles O54: the proper beginning of a code word leaves the walk below the root, where the stream ends. -/
theorem decodeTruncatedRaises : Obligations.DecodeTruncatedRaises := by
  unfold Obligations.DecodeTruncatedRaises
  intro s tr c ps d e b hlen hv holds hp hc hs hps hn hd he hb
  obtain ⟨held, index, -⟩ := holds.holdsTree
  have ending : 8 * s.inLen.toNat = s.bitpos.toNat + 8 + c + (wordsOf ps).length + d.length := by
    have digits := congrArg List.length hs
    simp only [List.length_drop, length_inStream, List.length_append, length_bin8, length_zeros] at digits
    omega
  rw [ending]
  exact exec_decodePayload_stops hlen hv holds.reads hp hc hs hps hn rfl
    (walkPayload_stopped hb hd he held holds.nodup_indices index _ (afterWords s ps) rfl)

end Sys2Proof.Machine
end

section
namespace Sys2Proof.Machine

/-! ## NOP and CLEAR (R310, R311) -/

/-- Settles O33: NOP is its completion alone, and an issue has cleared the report before it. -/
theorem nopCompletes : Obligations.NopCompletes := by
  unfold Obligations.NopCompletes
  exact fun s => ⟨exec_done (i := .nop) rfl, exec_done (i := .nop) rfl⟩

/-- Settles O34: CLEAR leaves the three zero tables, whose entries are read off one by one. -/
theorem clearCompletes : Obligations.ClearCompletes := by
  unfold Obligations.ClearCompletes
  exact fun s => ⟨_, exec_done (i := .clear) rfl, rfl, nodeAt_arenaZero, codeAt_codeZero, freqAt_freqZero,
    fun _ => rfl, fun _ => rfl⟩

/-! ## A composite is its stages (R312, R313, R351) -/

theorem complete_eq_idleWith (s : State) : complete s = idleWith true s := rfl

/-- A stage that does not look at BUSY, DONE and `pending` completes alike on an idle engine and on a busy one. -/
theorem exec_idleWith {i : Instr} {s : State}
    (blind : bodyOf i (idleWith s.done s) = (bodyOf i s).map (idleWith s.done)) :
    exec i (idleWith s.done s) = exec i s := by
  have report := (survives_report s.busy s.done s.error s.errCode s.errPos s.cmdw s.pending).body i
    ⟨rfl, rfl, rfl, rfl, rfl, rfl, rfl⟩
  have keepsDone : (bodyOf i s).all fun u => u.done = s.done := Ran.all_mono (fun _ ⟨_, hd, _⟩ => hd) report
  rw [exec_eq_finish, blind, finish_map_idleWith keepsDone, exec_eq_finish]

/-- COMPRESS of the empty input ends as TREE_BUILD on what FREQ_COUNT left (R312). -/
theorem exec_compress_empty {s : State} (h : s.inLen = 0) :
    exec .compress s = exec .treeBuild { s with freq := countBytes (inBytes s) } ∧
    exec .compress s = .next (raisedWith 3 0 { s with freq := freqZero }) := by
  have noBytes : inBytes s = [] := by rw [inBytes, h]; rfl
  have built : exec .treeBuild { s with freq := freqZero } = .next (raisedWith 3 0 { s with freq := freqZero }) :=
    treeBuildEmptyRaises _ freqAt_freqZero
  have compressed : exec .compress s = .next (raisedWith 3 0 { s with freq := freqZero }) :=
    (exec_raised (i := .compress) (bodyCompress_empty h)).trans (congrArg _ (takeError_precondition _ rfl))
  refine ⟨?_, compressed⟩
  rw [noBytes]
  exact compressed.trans built.symm

/-- COMPRESS of a non-empty input runs TREE_BUILD and CODE_GEN to their ends, and ends as EMIT (R312). -/
theorem exec_compress_stages {s : State} (hlen : s.inLen.toNat ≤ s.cfg.inCap) (hne : s.inLen ≠ 0) :
    ∃ u v, exec .treeBuild (complete { s with freq := countBytes (inBytes s) }) = .next u ∧
      exec .codeGen u = .next v ∧ exec .compress s = exec .emit { v with done := s.done } := by
  obtain ⟨u, tr, built, valid, reads, coded, -⟩ := bodyCompress_stages hne
  have body : bodyCompress s = bodyEmit (beforeEmit s tr) := by
    rw [bodyCompress, bodyFreqCount_done hlen]
    simp only [Ran.andThen, built]
    rw [bodyCodeGen_done valid reads]
    exact congrArg bodyEmit coded
  have built' : bodyTreeBuild (complete { s with freq := countBytes (inBytes s) }) = .done (idleWith true u) := by
    rw [complete_eq_idleWith, bodyTreeBuild_idleWith, built]
    rfl
  have coded' : bodyCodeGen (idleWith true u) = .done (idleWith true (beforeEmit s tr)) := by
    rw [bodyCodeGen_idleWith, bodyCodeGen_done valid reads, coded]
    rfl
  refine ⟨idleWith true u, idleWith true (beforeEmit s tr), exec_done (i := .treeBuild) (t := idleWith true u) built',
    exec_done (i := .codeGen) (t := idleWith true (beforeEmit s tr)) coded', ?_⟩
  rw [exec_eq_finish]
  exact (congrArg finish body).trans
    (exec_idleWith (i := .emit) (s := beforeEmit s tr) (bodyEmit_idleWith _ _)).symm

/-- DECOMPRESS ends as DECODE_PAYLOAD where TREE_LOAD leaves a tree, and as TREE_LOAD where it does not (R313). -/
theorem exec_decompress_stages {s : State} (hlen : s.inLen.toNat ≤ s.cfg.inCap) :
    ∃ t, exec .treeLoad s = .next t ∧
      (t.treeValid = true → exec .decompress s = exec .decodePayload { t with done := s.done }) ∧
      (t.treeValid = false → exec .decompress s = .next t) := by
  rcases bodyTreeLoad_cases s with ⟨tooLong, -⟩ | ⟨-, c, body, cause⟩ | ⟨-, t, tr, rest, body, frame, -⟩
  · exact absurd hlen (Nat.not_le.mpr tooLong)
  · have invalid : (takeError c (clearTree s)).treeValid = false := by rcases cause with rfl | ⟨p, rfl⟩ <;> rfl
    have decompressed : bodyDecompress s = .raised c (clearTree s) := by rw [bodyDecompress, body]; rfl
    exact ⟨_, exec_raised (i := .treeLoad) body, fun valid => absurd (invalid.symm.trans valid) (by decide),
      fun _ => exec_raised (i := .decompress) decompressed⟩
  · have valid : t.treeValid = true := by rw [frame]
    have done : t.done = s.done := by rw [frame]; rfl
    have decompressed : bodyDecompress s = bodyDecodePayload t := by rw [bodyDecompress, body]; rfl
    refine ⟨complete t, exec_done (i := .treeLoad) body, fun _ => ?_,
      fun invalid => absurd (valid.symm.trans invalid) (by decide)⟩
    rw [← done, exec_eq_finish]
    exact (congrArg finish decompressed).trans
      (exec_idleWith (i := .decodePayload) (s := t) (bodyDecodePayload_idleWith _ _)).symm

/-- Settles O55: too long an input is each first stage's own error; otherwise each stage runs on what the last one
left, and does not look at the completion between them. -/
theorem compositesAreTheirStages : Obligations.CompositesAreTheirStages := by
  unfold Obligations.CompositesAreTheirStages
  refine fun s => ⟨fun hlen => ?_, fun hlen => ⟨?_, exec_decompress_stages hlen⟩⟩
  · have raises := fun i hi => inputTooLongRaises i s hi hlen
    exact ⟨(raises .compress (by decide)).trans (raises .freqCount (by decide)).symm,
      (raises .decompress (by decide)).trans (raises .treeLoad (by decide)).symm⟩
  · refine ⟨_, exec_done (i := .freqCount) (bodyFreqCount_done hlen), fun hz => ?_, exec_compress_stages hlen⟩
    obtain ⟨asBuild, raised⟩ := exec_compress_empty hz
    refine ⟨asBuild.trans ?_, freqZero, freqAt_freqZero, raised⟩
    exact (exec_idleWith (i := .treeBuild) (s := { s with freq := countBytes (inBytes s) })
      (bodyTreeBuild_idleWith _ _)).symm

/-! ## The round trip (R315) -/

/-- OUT[0..OUT_LEN) is what was written there, where OUT_LEN counts it (R53). -/
theorem OutHolds.outBytes_eq {s t : State} {bytes : List Byte} (h : OutHolds s t bytes)
    (len : t.outLen.toNat = bytes.length) : outBytes t = bytes := by
  refine List.ext_getElem (by rw [length_outBytes, len]) fun k _ hk => ?_
  simp only [outBytes, List.getElem_map, List.getElem_range]
  exact (h k).trans (dif_pos hk)

/-- What COMPRESS puts out where its stream fits (R255, R312). -/
theorem exec_compress_output {s t : State} {tr : Tree} {p : Bits}
    (hs : bodyCompress s = emitStream (serialize tr) p (beforeEmit s tr)) (hT : TreeHolds (beforeEmit s tr) tr)
    (hfit : streamBytes (serialize tr).length p.length ≤ s.cfg.outCap) (ht : exec .compress s = .next t) :
    outBytes t = pack (streamOf (serialize tr) p) := by
  have hcap := outCap_le s.cfg
  cases ht.symm.trans (exec_compress_fits hs hT hfit)
  refine OutHolds.outBytes_eq (s := s) (outHolds_putAll _ rfl rfl) ?_
  rw [length_pack, ← streamBytes_eq]
  exact toNat_ofNat_of_lt (by omega)

/-- A successful COMPRESS puts out a tree and the input as code words of that tree (R312, R315). -/
theorem exec_compress_success {s t : State} (hne : s.inLen ≠ 0) (hlen : s.inLen.toNat ≤ s.cfg.inCap)
    (ht : exec .compress s = .next t) (success : t.error = false) :
    ∃ (tr : Tree) (ps : List (Byte × Bits)), tr.size ≤ 511 ∧ (∀ q ∈ ps, tr.follow q.2 = some q.1) ∧
      ps.map Prod.fst = inBytes s ∧ outBytes t = pack (streamOf (serialize tr) (wordsOf ps)) := by
  obtain ⟨tr, hs, hT, -, hmem, -⟩ := bodyCompress_stream hlen hne
  obtain ⟨-, -, levels⟩ := hT.holdsTree
  obtain ⟨payload, follows, input⟩ := payloadOf_beforeEmit levels hmem
  rw [payload] at hs
  have nodes : tr.size ≤ 511 := by
    have size := tr.size_leaves
    have leaves := hT.count.trans_le hT.atMost
    omega
  refine ⟨tr, codedInput s tr, nodes, follows, input, ?_⟩
  rcases Nat.lt_or_ge s.cfg.outCap (streamBytes (serialize tr).length (wordsOf (codedInput s tr)).length) with
    exceeds | fit
  · cases ht.symm.trans (exec_compress_overflows hs exceeds)
    cases success
  · exact exec_compress_output hs hT fit ht

/-- Settles O58: the output unpacks to the tree, its padding and the input's code words, and DECOMPRESS of those gives
their symbols. -/
theorem roundTrip : Obligations.RoundTrip := by
  unfold Obligations.RoundTrip
  intro s t s' hne hlen ht success same hlen' room
  obtain ⟨tr, ps, size, follows, input, output⟩ := exec_compress_success hne hlen ht success
  have count : ps.length = s.inLen.toNat := by rw [← length_inBytes, ← input, List.length_map]
  have stream : inStream s' = serialize tr ++ (bin8 (BitVec.ofNat 8 (pad (serialize tr).length (wordsOf ps).length)) ++
      zeros (pad (serialize tr).length (wordsOf ps).length) ++ wordsOf ps) := by
    rw [inStream, same, output, unpack_pack _ (streamOf_aligned _ _), streamOf]
    simp only [List.append_assoc]
  obtain ⟨u, -, hu, frame, -, -, out⟩ :=
    decompressCompletes s' tr _ ps hlen' size (pad_le _ _) stream follows (by rwa [count])
  refine ⟨u, hu, ?_, ?_, ?_, (out.outBytes_eq ?_).trans input⟩
  · rw [frame]
  · rw [frame]
  · rw [frame]
  · rw [frame, List.length_map]
    exact toNat_ofNat_of_lt (by rw [count]; exact s.inLen.isLt)

/-! ## COMPRESS depends on its input alone (R316) -/

/-- The tables and registers before EMIT are functions of the input. -/
theorem beforeEmit_congr {s s' : State} (input : inBytes s' = inBytes s) (tr : Tree) :
    beforeEmit s' tr = { s' with
      freq := (beforeEmit s tr).freq, node := (beforeEmit s tr).node, root := (beforeEmit s tr).root
      nodeCount := (beforeEmit s tr).nodeCount, leafCount := (beforeEmit s tr).leafCount
      treeBits := (beforeEmit s tr).treeBits, treeValid := true, code := (beforeEmit s tr).code, codesValid := true } := by
  rw [beforeEmit, input]; rfl

/-- On the same input COMPRESS comes to EMIT with the same tree and the same payload. -/
theorem bodyCompress_sameStream {s s' : State} (cfg : s'.cfg = s.cfg) (input : inBytes s' = inBytes s)
    (hne : s.inLen ≠ 0) (hlen : s.inLen.toNat ≤ s.cfg.inCap) :
    ∃ (tr : Tree) (p : Bits),
      (bodyCompress s = emitStream (serialize tr) p (beforeEmit s tr) ∧ TreeHolds (beforeEmit s tr) tr) ∧
      (bodyCompress s' = emitStream (serialize tr) p (beforeEmit s' tr) ∧ TreeHolds (beforeEmit s' tr) tr) := by
  have len : s'.inLen = s.inLen := BitVec.eq_of_toNat_eq (by rw [← length_inBytes, input, length_inBytes])
  obtain ⟨tr, hs, hT, -⟩ := bodyCompress_stream hlen hne
  obtain ⟨tr', hs', hT', -⟩ := bodyCompress_stream (s := s') (by rwa [len, cfg]) (by rwa [len])
  have sameTree : currentTree (beforeEmit s' tr') = currentTree (beforeEmit s tr) := by
    rw [beforeEmit_congr input]; rfl
  obtain rfl : tr' = tr := Option.some.inj (hT'.reads.symm.trans (sameTree.trans hT.reads))
  have samePayload : payloadOf (beforeEmit s' tr') = payloadOf (beforeEmit s tr') := by
    rw [payloadOf, inBytes_beforeEmit, input, payloadOf, inBytes_beforeEmit]; rfl
  rw [samePayload] at hs'
  exact ⟨tr', _, ⟨hs, hT⟩, ⟨hs', hT'⟩⟩

theorem outBytes_of_empty {s : State} (h : s.outLen = 0) : outBytes s = [] := by rw [outBytes, h]; rfl

/-- Settles O59: both blocks come to EMIT's capacity check with the same stream, and either end writes functions of
the tables and the stream. -/
theorem compressDependsOnInputOnly : Obligations.CompressDependsOnInputOnly := by
  unfold Obligations.CompressDependsOnInputOnly
  intro s s' t t' cfg input hne hlen ht ht'
  obtain ⟨tr, p, ⟨hs, hT⟩, hs', hT'⟩ := bodyCompress_sameStream cfg input hne hlen
  by_cases fit : streamBytes (serialize tr).length p.length ≤ s.cfg.outCap
  · have fit' : streamBytes (serialize tr).length p.length ≤ s'.cfg.outCap := by rwa [cfg]
    have output := (exec_compress_output hs' hT' fit' ht').trans (exec_compress_output hs hT fit ht).symm
    cases ht.symm.trans (exec_compress_fits hs hT fit)
    cases ht'.symm.trans (exec_compress_fits hs' hT' fit')
    rw [beforeEmit_congr input] at output ⊢
    refine ⟨rfl, rfl, rfl, rfl, rfl, rfl, rfl, rfl, rfl, rfl, rfl, rfl, output, fun e e' => e'.trans e.symm,
      fun raised e _ => ?_⟩
    exact absurd (raised.symm.trans e) (by decide)
  · have exceeds := Nat.lt_of_not_le fit
    cases ht.symm.trans (exec_compress_overflows hs exceeds)
    cases ht'.symm.trans (exec_compress_overflows hs' (by rwa [cfg]))
    rw [beforeEmit_congr input, cfg]
    exact ⟨rfl, rfl, rfl, rfl, rfl, rfl, rfl, rfl, rfl, rfl, rfl, rfl,
      (outBytes_of_empty rfl).trans (outBytes_of_empty rfl).symm, fun _ _ => rfl, fun _ _ _ => ⟨rfl, rfl⟩⟩

end Sys2Proof.Machine
end

section
namespace Sys2Proof.Machine

/-! ## Who raises what, and why (R341) -/

/-- R341's columns "raised by" and "cause": the commands that raise an error, and what the state shows of a
precondition error. ILLEGAL_CMD is of a word that is no command. -/
def RaisedBy (i : Instr) (s : State) : Cause → Prop
  | .illegalCmd _       => False
  | .badLength _        => i ∈ [.freqCount, .emit, .treeLoad, .decodePayload, .compress, .decompress] ∧
      (s.cfg.inCap < s.inLen.toNat ∨ i = .decodePayload ∧ 8 * s.inLen.toNat < s.bitpos.toNat)
  | .emptyInput         => i = .treeBuild ∧ (∀ b, freqAt s.freq b = 0) ∨ i = .compress ∧ s.inLen = 0
  | .noTree             => i ∈ [.codeGen, .emit, .decodePayload] ∧ s.treeValid = false
  | .noCodes            => i = .emit ∧ s.codesValid = false
  | .corruptTree _      => i ∈ [.treeLoad, .decompress]
  | .treeTooLarge _     => i ∈ [.treeLoad, .decompress]
  | .badPadding _       => i ∈ [.decodePayload, .decompress]
  | .invalidBranch _    => i ∈ [.decodePayload, .decompress]
  | .truncatedPayload _ => i ∈ [.decodePayload, .decompress]
  | .uncodedSymbol _    => i = .emit
  | .emitOverflow _     => i ∈ [.emit, .compress]
  | .decodeOverflow _   => i ∈ [.decodePayload, .decompress]

theorem DecodeCause.raisedBy {c : Cause} (h : DecodeCause c) {i : Instr} (hi : i ∈ [.decodePayload, .decompress])
    (s : State) : RaisedBy i s c := by
  rcases h with ⟨q, rfl⟩ | ⟨q, rfl⟩ | ⟨q, rfl⟩ | ⟨q, rfl⟩ <;> exact hi

/-- The raises of TREE_LOAD, alone or as the first stage of DECOMPRESS. -/
theorem raisedBy_treeLoad {i : Instr} (hi : i ∈ [.treeLoad, .decompress]) {s u : State} {c : Cause}
    (h : bodyTreeLoad s = .raised c u) : RaisedBy i s c := by
  rcases bodyTreeLoad_raised h with ⟨rfl, -, long⟩ | ⟨rfl | ⟨p, rfl⟩, -⟩
  · simp only [List.mem_cons, List.not_mem_nil, or_false] at hi
    exact ⟨by rcases hi with rfl | rfl <;> decide, .inl long⟩
  · exact hi
  · exact hi

theorem raisedBy_emit {s u : State} {c : Cause} (h : bodyEmit s = .raised c u) : RaisedBy .emit s c := by
  rcases bodyEmit_cases s with ⟨long, e⟩ | ⟨noTree, e⟩ | ⟨noCodes, e⟩ | ⟨-, -, -, e⟩ | ⟨k, e⟩ | ⟨-, -, t, -, e⟩ <;>
    rw [e] at h
  · cases h; exact ⟨by decide, .inl long⟩
  · cases h; exact ⟨by decide, noTree⟩
  · cases h; exact ⟨rfl, noCodes⟩
  · cases h
  · cases h; exact rfl
  · rcases emitStream_cases (serialize t) (payloadOf s) s with ⟨-, e⟩ | ⟨-, e⟩ <;> rw [e] at h <;> cases h
    simp [RaisedBy]

theorem raisedBy_decodePayload {s u : State} {c : Cause} (h : bodyDecodePayload s = .raised c u) :
    RaisedBy .decodePayload s c := by
  rcases bodyDecodePayload_cases s with ⟨long, e⟩ | ⟨noTree, e⟩ | ⟨beyond, e⟩ | ⟨-, bytes, c', -, cause, e⟩ |
    ⟨-, bytes, c', n, -, e⟩ <;> rw [e] at h <;> cases h
  · exact ⟨by decide, .inl long⟩
  · exact ⟨by decide, noTree⟩
  · exact ⟨by decide, .inr ⟨rfl, beyond⟩⟩
  · exact cause.raisedBy (by decide) s

/-- After TREE_LOAD the preconditions of DECODE_PAYLOAD hold: the length is checked, the tree is valid, and BITPOS
is within IN (R313). -/
theorem decodeCause_of_loaded {s t u : State} {c : Cause} (loaded : bodyTreeLoad s = .done t)
    (h : bodyDecodePayload t = .raised c u) : DecodeCause c := by
  rcases bodyTreeLoad_cases s with ⟨-, e⟩ | ⟨-, c', e, -⟩ | ⟨fits, t', tr, rest, e, frame, -, stream, bitpos⟩ <;>
    rw [e] at loaded <;> cases loaded
  have cfg : t.cfg = s.cfg := by rw [frame]; rfl
  have inLen : t.inLen = s.inLen := by rw [frame]; rfl
  have valid : t.treeValid = true := by rw [frame]
  have within : t.bitpos.toNat ≤ 8 * t.inLen.toNat := by
    have length : 8 * s.inLen.toNat = (serialize tr ++ rest).length := by rw [← stream, length_inStream]
    rw [bitpos, inLen, length, List.length_append, BitVec.toNat_ofNat]
    exact (Nat.mod_le _ _).trans (Nat.le_add_right _ _)
  rcases bodyDecodePayload_cases t with ⟨long, -⟩ | ⟨noTree, -⟩ | ⟨beyond, -⟩ | ⟨-, bytes, c', -, cause, e⟩ |
    ⟨-, bytes, c', n, -, e⟩
  · rw [cfg, inLen] at long; omega
  · exact absurd (noTree.symm.trans valid) (by decide)
  · omega
  · rw [e] at h; cases h; exact cause
  · rw [e] at h; cases h

/-- Every raise of every command is in R341's table. -/
theorem raisedBy_of_raised {i : Instr} {s u : State} {c : Cause} (h : bodyOf i s = .raised c u) : RaisedBy i s c := by
  cases i with
  | nop => cases h
  | clear => cases h
  | freqCount =>
    replace h : bodyFreqCount s = _ := h
    rcases bodyFreqCount_cases s with ⟨-, e⟩ | ⟨long, e⟩ <;> rw [e] at h <;> cases h
    exact ⟨by decide, .inl long⟩
  | treeBuild =>
    replace h : bodyTreeBuild s = _ := h
    rcases bodyTreeBuild_cases s with ⟨zero, e⟩ | ⟨-, t, tr, e, -⟩ <;> rw [e] at h <;> cases h
    exact .inl ⟨rfl, zero⟩
  | codeGen =>
    replace h : bodyCodeGen s = _ := h
    rcases bodyCodeGen_cases s with ⟨noTree, e⟩ | ⟨-, -, e⟩ | ⟨-, t, -, e⟩ <;> rw [e] at h <;> cases h
    exact ⟨by decide, noTree⟩
  | emit => exact raisedBy_emit h
  | treeLoad => exact raisedBy_treeLoad (by decide) h
  | decodePayload => exact raisedBy_decodePayload h
  | compress =>
    rcases raised_compress h with ⟨rfl, -, long⟩ | ⟨rfl, -, empty⟩ | ⟨rfl, -⟩
    · exact ⟨by decide, .inl long⟩
    · exact .inr ⟨rfl, empty⟩
    · simp [RaisedBy]
  | decompress =>
    rcases raised_decompress h with h | ⟨t, loaded, h⟩
    · exact raisedBy_treeLoad (by decide) h
    · exact (decodeCause_of_loaded loaded h).raisedBy (by decide) s

/-! ## A completion with ERROR set -/

/-- Where ERROR was clear, as an issue leaves it, a command that ends with ERROR set has raised (R38, R342). -/
theorem raised_of_error {i : Instr} {s t : State} (clear : s.error = false) (h : exec i s = .next t)
    (error : t.error = true) : ∃ c u, bodyOf i s = .raised c u ∧ t = takeError c u := by
  have report := (survives_report s.busy s.done s.error s.errCode s.errPos s.cmdw s.pending).body i
    ⟨rfl, rfl, rfl, rfl, rfl, rfl, rfl⟩
  rw [exec_eq_finish] at h
  rcases finish_next h with ⟨u, done, rfl⟩ | raised
  · rw [done] at report
    obtain ⟨-, -, kept, -⟩ := report
    exact absurd (error.symm.trans (kept.trans clear)) (by decide)
  · exact raised

/-- Settles O60: each raise is in R341's table, which is read off cause by cause; OUT_OVERFLOW alone has two
causes, with two raisers each. -/
theorem errorRaisers : Obligations.ErrorRaisers := by
  unfold Obligations.ErrorRaisers
  intro i s t clear h error
  obtain ⟨c, u, raised, rfl⟩ := raised_of_error clear h error
  have named := raisedBy_of_raised raised
  rw [takeError_errCode]
  cases c
  case illegalCmd => exact False.elim named
  case emitOverflow => rcases List.mem_pair.mp named with rfl | rfl <;> simp [Cause.code]
  case decodeOverflow => rcases List.mem_pair.mp named with rfl | rfl <;> simp [Cause.code]
  all_goals simpa [RaisedBy, Cause.code] using named

/-! ## The codes of a class (R341) -/

theorem Cause.cls_precondition_iff (c : Cause) : c.cls = .precondition ↔ c.code.toNat ∈ [1, 2, 3, 4, 5] := by
  cases c <;> simp [Cause.cls, Cause.code]

theorem Cause.cls_treeData_iff (c : Cause) : c.cls = .treeData ↔ c.code.toNat ∈ [6, 7] := by
  cases c <;> simp [Cause.cls, Cause.code]

theorem Cause.code_pos (c : Cause) : 1 ≤ c.code.toNat := by cases c <;> simp [Cause.code]

/-- A code from 6 on is of a data error. -/
theorem Cause.cls_ne_precondition {c : Cause} (h : 6 ≤ c.code.toNat) : c.cls ≠ .precondition := by
  rw [ne_eq, c.cls_precondition_iff]
  simp only [List.mem_cons, List.not_mem_nil, or_false]
  omega

/-- Settles O29: the report is the issue's with DONE, or that of the cause, whose class decides OUT_LEN. -/
theorem noPartialSuccess : Obligations.NoPartialSuccess := by
  unfold Obligations.NoPartialSuccess
  intro i s t control busy h
  obtain ⟨done, clear, code, pos⟩ := control.cleared busy
  obtain ⟨tb, tp, report⟩ := engineStep_report ((engineStep_encode i s).trans h)
  refine ⟨tb, tp, ?_⟩
  rcases report with ⟨success, sameError, sameCode, samePos⟩ | ⟨sameDone, error, -⟩
  · exact .inl ⟨success, sameError.trans clear, sameCode.trans code, samePos.trans pos⟩
  · obtain ⟨c, u, raised, rfl⟩ := raised_of_error clear h error
    refine .inr ⟨sameDone.trans done, error, c.code_pos, c.code_le, ?_⟩
    rcases raised_outLen raised with ⟨cause, kept⟩ | ⟨data, zero⟩
    · exact ⟨fun _ => kept, fun high => absurd cause.cls (Cause.cls_ne_precondition high)⟩
    · exact ⟨fun low => absurd (data.trans low) (by decide), fun _ => zero⟩

/-! ## What an error of a single-stage command leaves (R345, R347 to R350) -/

/-- What a single-stage command has written when it raises an error of a class: TREE_LOAD has cleared the tree and
DECODE_PAYLOAD has left `out` in OUT; nothing otherwise. -/
def writtenBefore (out : Memory) : ErrClass → State → State
  | .precondition, s => s
  | .emitData, s     => s
  | .treeData, s     => clearTree s
  | .decodeData, s   => { s with outBuf := out }

theorem raised_written {i : Instr} {s u : State} {c : Cause} (h1 : i ≠ .compress) (h2 : i ≠ .decompress)
    (h : bodyOf i s = .raised c u) : u = writtenBefore u.outBuf c.cls s := by
  rcases raised_single h1 h2 h with ⟨cause, rfl⟩ | ⟨-, ⟨k, rfl⟩ | rfl, rfl⟩ | ⟨-, rfl | ⟨p, rfl⟩, rfl⟩ |
    ⟨-, cause, bytes, -, rfl⟩
  · rw [cause.cls]; rfl
  · rfl
  · rfl
  · rfl
  · rfl
  · rw [cause.cls]; rfl

/-- An error of a single-stage command, by its class. -/
theorem takeError_single {i : Instr} {s u : State} {c : Cause} (h1 : i ≠ .compress) (h2 : i ≠ .decompress)
    (h : bodyOf i s = .raised c u) {k : ErrClass} (hk : c.cls = k) :
    takeError c u = raisedWith c.code c.pos (classEffects k (writtenBefore (takeError c u).outBuf k s)) := by
  subst hk
  rw [takeError_outBuf, ← raised_written h1 h2 h]
  rfl

/-- Code 12 is of two classes; the command that raises it tells them apart. -/
theorem raised_data_cls {i : Instr} {s u : State} {c : Cause} (h1 : i ≠ .compress) (h2 : i ≠ .decompress)
    (h : bodyOf i s = .raised c u) (data : 6 ≤ c.code.toNat) :
    (i = .emit → c.cls = .emitData) ∧ (i = .decodePayload → c.cls = .decodeData) := by
  rcases raised_class_single h1 h2 h with cls | ⟨cls, rfl⟩ | ⟨-, rfl⟩ | ⟨cls, rfl⟩
  · exact absurd cls (Cause.cls_ne_precondition data)
  · exact ⟨fun _ => cls, nofun⟩
  · exact ⟨nofun, nofun⟩
  · exact ⟨nofun, fun _ => cls⟩

/-- R341's column "raised by" of codes 6 to 12, for the single-stage commands. -/
theorem RaisedBy.single {i : Instr} {s : State} {c : Cause} (h1 : i ≠ .compress) (h2 : i ≠ .decompress)
    (h : RaisedBy i s c) :
    c.code.toNat ∈ [2, 3, 4, 5, 6, 7, 8, 9, 10, 11, 12] ∧ (c.code.toNat ∈ [6, 7] → i = .treeLoad) ∧
    (c.code.toNat ∈ [8, 9, 10] → i = .decodePayload) ∧ (c.code.toNat = 11 → i = .emit) ∧
    (c.code.toNat = 12 → i = .emit ∨ i = .decodePayload) := by
  cases c <;> simp_all [RaisedBy, Cause.code]

/-- Settles O30: the class of the raise, which its code and the command decide, gives the state it leaves. -/
theorem errorEffectsByClass : Obligations.ErrorEffectsByClass := by
  unfold Obligations.ErrorEffectsByClass
  intro i s t h1 h2 clear h error
  obtain ⟨c, u, raised, rfl⟩ := raised_of_error clear h error
  have effects {k : ErrClass} (hk : c.cls = k) := takeError_single h1 h2 raised hk
  have dataCls := raised_data_cls h1 h2 raised
  refine ⟨fun code => effects (c.cls_precondition_iff.mpr code), fun hi code => effects ((dataCls ?_).1 hi),
    fun code => effects (c.cls_treeData_iff.mpr code), fun hi code => effects ((dataCls ?_).2 hi),
    (raisedBy_of_raised raised).single h1 h2⟩
  · exact (by decide : ∀ n ∈ [11, 12], 6 ≤ n) _ code
  · exact (by decide : ∀ n ∈ [8, 9, 10, 12], 6 ≤ n) _ code

end Sys2Proof.Machine
end

section
namespace Sys2Proof.Machine

/-! ## Issue and reset (R380, R384) -/

/-- On an idle block a host write of CMD is an issue (R384). -/
theorem step_issue {s : State} {w : Word} {rest : List Event} (hb : s.busy = false)
    (h : s.agenda = .host (writeAt 0x010#30 w) :: rest) : step s = .next (issue w { s with agenda := rest }) := by
  obtain ⟨-, word⟩ := hostAccessOutcomes s (writeAt 0x010#30 w) rest h
  obtain ⟨-, -, -, write⟩ := word rfl (show (0x010#30).toNat % 4 = 0 from rfl)
  exact (write w hb rfl).trans (congrArg _ (writeWord_reg _ .cmd w))

/-- Settles O18: the write is an issue, which sets BUSY and clears what the IRQ line reads. -/
theorem issueEffects : Obligations.IssueEffects := by
  unfold Obligations.IssueEffects
  intro s w rest hb h
  exact ⟨_, step_issue hb h, (controlInv_issue w _).irq_busy rfl, rfl⟩

theorem step_reset {s : State} {rest : List Event} (h : s.agenda = .reset :: rest) :
    step s = .next (resetBlock { s with agenda := rest }) := by
  rw [step, h]; rfl

/-- Settles O19: the event is `resetBlock`, whose empty buffers read as the new epoch's unspecified bytes. -/
theorem resetInput : Obligations.ResetInput := by
  unfold Obligations.ResetInput
  intro s rest h
  exact ⟨_, step_reset h, rfl, rfl, rfl, rfl, rfl, rfl, fun _ => rfl, fun _ => rfl⟩

/-! ## Every command completes (R387) -/

/-- The completion of a pending word, whatever the word: an illegal one raises (R121), and a command ends. -/
theorem engineStep_completes (w : Word) {s : State} (h : TreeInv s) : ∃ t, engineStep w s = .next t := by
  rcases decode_cases w with ⟨illegal, -⟩ | ⟨-, i, -, rfl⟩
  · exact ⟨_, engineStep_illegal illegal s⟩
  · rw [engineStep_encode]
    exact (body_ends_of_tree i h).exec

theorem engineTurn_completes {s : State} (h : TreeInv s) : ∃ t, engineTurn s = .next t := by
  cases hp : s.pending with
  | none => exact ⟨s, by rw [engineTurn, hp]⟩
  | some w => rw [engineTurn_pending hp]; exact engineStep_completes w h

/-- An access the interface does not admit is refused, and the block never faults on one (R82, R390). -/
theorem hostAccess_ne_fault (a : BusAccess) (s : State) (f : Fault) : hostAccess a s ≠ .fault f := by
  unfold hostAccess
  split
  · nofun
  · split
    · nofun
    · split <;> nofun

/-- A step that faults is the engine's turn. -/
theorem step_fault {s : State} {f : Fault} (h : step s = .fault f) :
    ∃ a, engineTurn { s with agenda := a } = .fault f := by
  rw [step] at h
  cases ha : s.agenda with
  | nil => rw [ha] at h; exact ⟨s.agenda, h⟩
  | cons e rest =>
    rw [ha] at h
    cases e with
    | host a => exact absurd h (hostAccess_ne_fault a _ f)
    | reset => cases h
    | engine => exact ⟨rest, h⟩
    | wait =>
      rw [turn] at h
      split at h
      · exact ⟨s.agenda, h⟩
      · cases h
    | waitIrq =>
      rw [turn] at h
      split at h
      · cases h
      · exact ⟨s.agenda, h⟩

/-- Settles O27: only CODE_GEN and EMIT read the arena as a tree, which the invariant says it holds, and only the
engine's turn can fault. -/
theorem everyCommandCompletes : Obligations.EveryCommandCompletes := by
  unfold Obligations.EveryCommandCompletes
  refine ⟨fun i s h1 h2 => (body_ends i s h1 h2).exec, fun i s hs => (body_ends_of_tree i hs).exec,
    fun s f hs h => ?_⟩
  obtain ⟨a, fault⟩ := step_fault h
  obtain ⟨t, next⟩ := engineTurn_completes (s := { s with agenda := a }) (hs.congr rfl rfl rfl rfl rfl rfl rfl rfl)
  exact nomatch fault.symm.trans next

/-! ## A pending command completes (R385) -/

/-- `s` after `n` STATUS reads with the results `log`, newest first, and with `rest` left of the agenda. -/
def afterReads (s : State) (n : Nat) (rest : List Event) (log : List (Offset × Word)) : State :=
  { s with agenda := rest, readLog := log ++ s.readLog, draws := s.draws + n }

/-- One more STATUS read while a command is pending (R36, R390). -/
theorem step_afterReads {s : State} (hb : s.busy = true) (n : Nat) (rest : List Event) (log : List (Offset × Word)) :
    ∃ v : Word, v.getLsbD 0 = true ∧ step (afterReads s n (.host (readAt 0x014#30) :: rest) log) =
      .next (afterReads s (n + 1) rest ((0x014#30, v) :: log)) := by
  obtain ⟨-, word⟩ := hostAccessOutcomes (afterReads s n (.host (readAt 0x014#30) :: rest) log) _ rest rfl
  obtain ⟨read, -⟩ := word rfl rfl
  obtain ⟨-, busy, -⟩ := statusRegister (afterReads s n (.host (readAt 0x014#30) :: rest) log)
  exact ⟨_, busy.trans hb, read hb rfl⟩

/-- STATUS reads while a command is pending: one step each, each with BUSY = 1 in its result (R36, R385). -/
theorem run_readStatus {s : State} (hb : s.busy = true) (n : Nat) (rest : List Event)
    (ha : s.agenda = List.replicate n (.host (readAt 0x014#30)) ++ rest) :
    ∃ log, core.run n s = .next (afterReads s n rest log) ∧ log.length = n ∧
      ∀ e ∈ log, e.1 = 0x014#30 ∧ e.2.getLsbD 0 = true := by
  induction n generalizing rest with
  | zero =>
    refine ⟨[], ?_, rfl, nofun⟩
    rw [← show s.agenda = rest from ha]; rfl
  | succ n ih =>
    rw [List.replicate_succ', List.append_assoc] at ha
    obtain ⟨log, run, length, reads⟩ := ih _ ha
    obtain ⟨v, busy, read⟩ := step_afterReads hb n rest log
    exact ⟨(0x014#30, v) :: log, (run_succ run).trans read, congrArg Nat.succ length,
      List.forall_mem_cons.mpr ⟨⟨rfl, busy⟩, reads⟩⟩

/-- With nothing left to happen outside, the engine moves (assumption 2). -/
theorem step_nil {s : State} (h : s.agenda = []) : step s = engineTurn s := by
  rw [step, h]; rfl

/-- Settles O28: the reads leave the command pending and the tree as it was, so the engine's turn completes it. -/
theorem pendingCommandCompletes : Obligations.PendingCommandCompletes := by
  unfold Obligations.PendingCommandCompletes
  intro n s control tree pending ha
  obtain ⟨w, hw⟩ := Option.isSome_iff_exists.mp pending
  obtain ⟨log, run, length, reads⟩ :=
    run_readStatus (control.busy_pending.trans pending) n [] (ha.trans (List.append_nil _).symm)
  have kept : TreeInv (afterReads s n [] log) := tree.congr rfl rfl rfl rfl rfl rfl rfl rfl
  have waits : (afterReads s n [] log).pending = some w := hw
  obtain ⟨t, completes⟩ := engineStep_completes w kept
  obtain ⟨idle, nothing, report⟩ := engineStep_report completes
  refine ⟨_, t, log, run, rfl, length, reads, ?_, idle, nothing, report.imp And.left fun raised => raised.2.1⟩
  rw [step_nil rfl, engineTurn_pending waits, completes]

end Sys2Proof.Machine
end
